-- ==== Sys2Proof/Word.lean ====
section
/-! DEFINITION. The word types of the SCE: bytes, 32-bit words, 16-byte grids, the hash digest and the
256-entry tables (spec 00_scope.md R8, R11, R13). -/

namespace Sys2Proof

/-- 8 bits, always read as an unsigned number 0 to 255 (R11). -/
abbrev Byte := BitVec 8

/-- One 32-bit word of the host port, of a command, or of the hash (R9, R90, R153). -/
abbrev Word := BitVec 32

/-- A Block: 16 bytes, row-major; the entry of row `r`, column `c` is byte `4*r + c` (R13). -/
abbrev Block := Vector Byte 16

/-- A KeyMatrix has the same shape as a Block (R13, R130). -/
abbrev KeyMatrix := Block

/-- The 32-byte digest of SHA-256 (R152). -/
abbrev Digest := Vector Byte 32

/-- A substitution table of 256 bytes (R8). -/
abbrev Table := Vector Byte 256

end Sys2Proof
end

