-- ==== Sys2Proof/Syntax.lean ====
section
/-! DEFINITION. The command set of the SCE: one constructor per row of spec/opcode_table.json
(30_encoding.md R93). -/

namespace Sys2Proof

/-- The 25 commands. The only operand in a command word is the index of `KSEL` (R92). -/
inductive Instr
  | nop | clr
  | kgen | kset | kdrv | kadv
  | ksel (idx : Nat)
  | kbase
  | sgen | sinv
  | subF | subR
  | rotF | rotR
  | trnF | trnR
  | mix
  | chnF | chnR
  | pad | chunk | unpad
  | enc | encg | dec
deriving DecidableEq, Repr

end Sys2Proof
end

