-- ==== Sys2Proof/WellFormed.lean ====
section
/-! DEFINITION. Which terms of `Instr` an encoding admits: the index of KSEL is a 5-bit number, 0..31
(spec 30_encoding.md R90, R92). -/

namespace Sys2Proof

/-- The operand fits its field of R90. -/
def Instr.wellFormed : Instr → Bool
  | .ksel idx => decide (idx < 32)
  | .nop | .clr | .kgen | .kset | .kdrv | .kadv | .kbase | .sgen | .sinv | .subF | .subR | .rotF | .rotR
  | .trnF | .trnR | .mix | .chnF | .chnR | .pad | .chunk | .unpad | .enc | .encg | .dec => true

end Sys2Proof
end

