-- ==== Sys2Proof/Decode.lean ====
section
/-! DEFINITION. The command decoder and encoder (spec 30_encoding.md R90 to R97). Decoding is total: every 32-bit
word selects one row of R93 or is ILLEGAL, by name. -/

namespace Sys2Proof

/-- Why a word is ILLEGAL: the four tests of R94, and the unassigned operation codes. -/
inductive Illegal
  /-- A bit of 15:10 or 31:21 is set (R95). -/
  | reservedBits
  /-- OPC is none of the 20 assigned codes (R96). -/
  | unassignedOpc
  /-- DIR is set in a command without a direction (R94). -/
  | dirSet
  /-- GEN is set in a command other than ENC (R94). -/
  | genSet
  /-- IDX is not 0 in a command other than KSEL (R94). -/
  | idxSet
deriving DecidableEq, Repr

/-- `OPC`, bits 7:0 (R90). -/
def Word.opc (w : Word) : BitVec 8 := w.extractLsb' 0 8

/-- `DIR`, bit 8 (R90). -/
def Word.dir (w : Word) : Bool := w.getLsbD 8

/-- `GEN`, bit 9 (R90). -/
def Word.gen (w : Word) : Bool := w.getLsbD 9

/-- Bits 15:10, which must be 0 (R90). -/
def Word.reservedLow (w : Word) : BitVec 6 := w.extractLsb' 10 6

/-- `IDX`, bits 20:16 (R90). -/
def Word.idx (w : Word) : BitVec 5 := w.extractLsb' 16 5

/-- Bits 31:21, which must be 0 (R90). -/
def Word.reservedHigh (w : Word) : BitVec 11 := w.extractLsb' 21 11

/-- The rows of R93 selected by the fields, for assigned codes; `none` for an unassigned code. -/
def selectRow (opc : BitVec 8) (dir gen : Bool) (idx : BitVec 5) : Option Instr :=
  match opc.toNat with
  | 0x00 => some .nop
  | 0x01 => some .clr
  | 0x10 => some .kgen
  | 0x11 => some .kset
  | 0x12 => some .kdrv
  | 0x13 => some .kadv
  | 0x14 => some (.ksel idx.toNat)
  | 0x15 => some .kbase
  | 0x20 => some .sgen
  | 0x21 => some .sinv
  | 0x22 => some (if dir then .subR else .subF)
  | 0x30 => some (if dir then .rotR else .rotF)
  | 0x40 => some (if dir then .trnR else .trnF)
  | 0x50 => some .mix
  | 0x60 => some (if dir then .chnR else .chnF)
  | 0x70 => some .pad
  | 0x71 => some .chunk
  | 0x72 => some .unpad
  | 0x80 => some (if gen then .encg else .enc)
  | 0x81 => some .dec
  | _ => none

/-- DIR is live in SUB, ROT, TRN and CHN (R94). -/
def dirLive (opc : BitVec 8) : Bool := opc = 0x22 || opc = 0x30 || opc = 0x40 || opc = 0x60

/-- GEN is live in ENC (R94). -/
def genLive (opc : BitVec 8) : Bool := opc = 0x80

/-- IDX is live in KSEL (R94). -/
def idxLive (opc : BitVec 8) : Bool := opc = 0x14

/-- `decode` of R94: the tests in its order, then the row. -/
def decode (w : Word) : Except Illegal Instr :=
  if w.reservedLow ≠ 0 ∨ w.reservedHigh ≠ 0 then .error .reservedBits
  else
    match selectRow w.opc w.dir w.gen w.idx with
    | none => .error .unassignedOpc
    | some i =>
      if w.dir = true ∧ dirLive w.opc = false then .error .dirSet
      else if w.gen = true ∧ genLive w.opc = false then .error .genSet
      else if w.idx ≠ 0 ∧ idxLive w.opc = false then .error .idxSet
      else .ok i

/-- A command word from its fields, the reserved bits 0 (R90). -/
def assemble (opc : BitVec 8) (dir gen : Bool) (idx : BitVec 5) : Word :=
  (0 : BitVec 11) ++ idx ++ (0 : BitVec 6) ++ BitVec.ofBool gen ++ BitVec.ofBool dir ++ opc

/-- The word of R93 for each command. -/
def encode : Instr → Word
  | .nop => assemble 0x00 false false 0
  | .clr => assemble 0x01 false false 0
  | .kgen => assemble 0x10 false false 0
  | .kset => assemble 0x11 false false 0
  | .kdrv => assemble 0x12 false false 0
  | .kadv => assemble 0x13 false false 0
  | .ksel idx => assemble 0x14 false false (BitVec.ofNat 5 idx)
  | .kbase => assemble 0x15 false false 0
  | .sgen => assemble 0x20 false false 0
  | .sinv => assemble 0x21 false false 0
  | .subF => assemble 0x22 false false 0
  | .subR => assemble 0x22 true false 0
  | .rotF => assemble 0x30 false false 0
  | .rotR => assemble 0x30 true false 0
  | .trnF => assemble 0x40 false false 0
  | .trnR => assemble 0x40 true false 0
  | .mix => assemble 0x50 false false 0
  | .chnF => assemble 0x60 false false 0
  | .chnR => assemble 0x60 true false 0
  | .pad => assemble 0x70 false false 0
  | .chunk => assemble 0x71 false false 0
  | .unpad => assemble 0x72 false false 0
  | .enc => assemble 0x80 false false 0
  | .encg => assemble 0x80 false true 0
  | .dec => assemble 0x81 false false 0

/-- The command the decoder reads from the `nbits` low bits of `w`, every higher bit 0. A command is one 32-bit
word handed over whole by the port (R28, R73), so its bits are numbered as the table numbers them. -/
def decodeTableWord (nbits w : Nat) : Option Instr :=
  match decode (BitVec.ofNat 32 (w % 2 ^ nbits)) with
  | .ok i => some i
  | .error _ => none

end Sys2Proof
end

