-- ==== Sys2Proof/Config.lean ====
section
/-! DEFINITION. What an implementation of the SCE fixes (spec 00_scope.md R10), and the FREE VALUES: constants
without a body, of which nothing can be proved but their type. The log is notes/assumptions. -/

namespace Sys2Proof

/-- Which function `SBOX_DRAW` an implementation has (R10, R182, R183; log entries 4 and 7). -/
inductive SboxDraw
  /-- The digest-counter construction of R183, the default of the parameter. -/
  | digestCounter
  /-- Any other function into `0..i`, numbered; its answers are free (`Config.otherSboxDraw`). -/
  | other (n : Nat)
deriving DecidableEq, Repr

/-- The parameters of R10 that an implementation fixes. No step changes them (log entry 4). -/
structure Params where
  /-- `BUF_BYTES`, the capacity of BUF in bytes. -/
  bufBytes : Nat
  /-- `SBOX_DRAW`. -/
  sboxDraw : SboxDraw
deriving DecidableEq, Repr

/-- The defaults of R10: `BUF_BYTES` 4096 and the digest-counter construction (DESIGN CHOICE for the model's
reset state, log entry 4). -/
def Params.default : Params := { bufBytes := 4096, sboxDraw := .digestCounter }

/-- The constraint of R10 on `BUF_BYTES`: a multiple of 16, at least 32, at most `2^31`. -/
abbrev Params.legal (p : Params) : Prop :=
  p.bufBytes % 16 = 0 ∧ 32 ≤ p.bufBytes ∧ p.bufBytes ≤ 2 ^ 31

/-- One answer `(e, d)` of the entropy oracle: 16 bytes, and `d = count + 1`, an integer in 1..24 (R133). -/
structure Draw where
  bytes : Block
  count : Fin 24
deriving DecidableEq, Repr, Inhabited

/-- The integer `d` of a draw, `1 <= d <= 24` (R133). -/
def Draw.rounds (x : Draw) : Fin 25 := x.count.succ

/-- FREE VALUE: the `n`-th answer of the oracle `ENTROPY` (R133; log entry 5). -/
opaque Config.entropy : Nat → Draw

/-- FREE VALUE: the `SBOX_DRAW` of an implementation that does not use the default (R10, R182; log entry 7);
its answer is brought into `0..i` where it is used. -/
opaque Config.otherSboxDraw : Nat → Digest → Nat → Nat

/-! FREE VALUES: what the data state holds behind the `n`-th fault, which R301 leaves unspecified (log entry 6). -/

opaque Config.hiddenKey : Nat → KeyMatrix
opaque Config.hiddenRk : Nat → KeyMatrix
opaque Config.hiddenR : Nat → Fin 25
opaque Config.hiddenRks : Nat → Vector KeyMatrix 25
opaque Config.hiddenSbox : Nat → Table
opaque Config.hiddenInv : Nat → Table
opaque Config.hiddenLen : Nat → Word
opaque Config.hiddenKv : Nat → Bool
opaque Config.hiddenQv : Nat → Bool
opaque Config.hiddenSv : Nat → Bool
opaque Config.hiddenNv : Nat → Bool
/-- Byte `a` of BUF behind the `n`-th fault is `hiddenByte n a`. -/
opaque Config.hiddenByte : Nat → Nat → Byte

end Sys2Proof
end

