-- ==== Sys2Proof/Machine/State.lean ====
section
/-! DEFINITION. The architectural state of the SCE (spec 10_state.md R20) and its reset value (70_reset_and_hazards.md
R330), the events of its environment, the fault kinds it raises, and the reasons a step could stop. -/

namespace Sys2Proof.Machine

/-- BUF as a list of (byte index, byte), indices strictly rising, no entry equal to what an unlisted index reads
as (`Memory.wf`). The key is the index `a` of `BUF[a]`, host offset `0x1000 + a` (R38, R61; log entry 14). -/
abbrev Memory := List Host.Cell

/-- The fault kinds the SCE raises (60_exceptions.md R290, R291). Raising one is a NEXT state (R300). -/
inductive FaultKind
  | invalidPadding
  | roundCountOutOfRange
  | illegalCommand
  | notReady
  | bufferOverflow
  | blockShape
  | keyIndexRange
deriving DecidableEq, Repr

/-- What the host, the schedule and the reset input do, one at a time (R60, R255, R345; log entry 1). -/
inductive Event
  /-- `HostRead(off)` by an access of `width` bits; the port supports 32 only (R60, R63). -/
  | read (width off : Nat)
  /-- `HostWrite(off, value)` by an access of `width` bits (R60, R63). -/
  | write (width off : Nat) (value : Word)
  /-- The schedule gives the engine its turn (R70, R345). -/
  | engine
  /-- The reset input (R330). -/
  | reset
deriving DecidableEq, Repr

/-- The two answers of a transaction (R60). -/
inductive Resp
  | ok
  | error
deriving DecidableEq, Repr

/-- What a transaction returns: `resp`, and for a read `data`, 0 when `resp` is `ERROR` (R60). R60 gives a write no
`data`: the 0 that stands there in the model is its own, DESIGN CHOICE, log entry 3. -/
structure Response where
  resp : Resp
  data : Word
deriving DecidableEq, Repr

/-- The data state: what the commands work on, what the fault state hides (R301), and what both ways out of it
zeroise (R302). -/
structure Data where
  /-- `KEY`, the original key K0 (R22). -/
  key : KeyMatrix
  /-- `RK`, the current round key (R23). -/
  rk : KeyMatrix
  /-- `R`, the round count, 0 for "not extracted" (R25). -/
  r : Fin 25
  /-- `RKS`, the round key sequence (R35). -/
  rks : Vector KeyMatrix 25
  /-- `SBOX`, the forward table (R36). -/
  sbox : Table
  /-- `INV`, the inverse table (R37). -/
  inv : Table
  /-- `BUF`, the message buffer (R38). -/
  buf : Memory
  /-- `LEN`, the number of message bytes (R33). -/
  len : Word
  /-- The valid flags (R30). -/
  kv : Bool
  qv : Bool
  sv : Bool
  nv : Bool
deriving DecidableEq, Repr

/-- The machine: the elements of R20, and below them the model's own fields. -/
structure State where
  /-- KEY, RK, R, RKS, SBOX, INV, BUF, LEN, KV, QV, SV, NV. -/
  data : Data
  /-- `BUSY`: a command is pending (R29). -/
  busy : Bool
  /-- `DONE`: the last accepted command completed (R29). -/
  done : Bool
  /-- `ERR`: a command faulted and CLR has not run since (R29). -/
  err : Bool
  /-- `BACC`: a guarded register was touched while BUSY was 1 (R29, R67). -/
  bacc : Bool
  /-- `ECODE`, the fault code (R31). -/
  ecode : BitVec 8
  /-- `EOPC`, bits 7:0 of the command word that faulted (R31). -/
  eopc : BitVec 8
  /-- `IE_DONE` and `IE_ERR` (R32). -/
  ieDone : Bool
  ieErr : Bool
  /-- `PEND`, the command word accepted and not yet performed (R39). -/
  pend : Word
  /-- The model's own: the parameters of R10 (log entry 4). -/
  params : Params
  /-- The model's own: what will happen around the engine, first event first (log entry 1). -/
  events : List Event
  /-- The port's output: the answer to the latest transaction (R60; log entry 3). -/
  response : Option Response
  /-- The model's own: how many answers the entropy oracle has given (log entry 5). -/
  draws : Nat
  /-- The model's own: how many fault entries there have been (log entry 6). -/
  faults : Nat
deriving DecidableEq, Repr

/-- Reasons a step stops for good: NONE. Every fault of the SCE is a next state (R300), every accepted command
terminates and every state has an exit (93_implementation_defined.md, end of section 2), so no step of this
model raises one. Having no constructor is safe: the type itself shows that nothing is left unmodelled here. -/
inductive Fault
deriving DecidableEq, Repr

/-- Reasons an instruction has no meaning. -/
inductive Refusal
  /-- An instruction the model gives no meaning yet. Raised by NOBODY: every arm of `exec` has its meaning. A
  refusal is safe, it proves nothing about the hardware. -/
  | notModelled (mnemonic : String)
deriving DecidableEq, Repr

/-- The data state after reset and after CLR: all zero (R330, R266). -/
def Data.zero : Data where
  key := Vector.replicate 16 0
  rk := Vector.replicate 16 0
  r := 0
  rks := Vector.replicate 25 (Vector.replicate 16 0)
  sbox := Vector.replicate 256 0
  inv := Vector.replicate 256 0
  buf := []
  len := 0
  kv := false
  qv := false
  sv := false
  nv := false

/-- The machine right after reset (R330). The model's own fields take the values their log entries name. -/
def State.reset : State where
  data := Data.zero
  busy := false
  done := false
  err := false
  bacc := false
  ecode := 0
  eopc := 0
  ieDone := false
  ieErr := false
  pend := 0
  params := Params.default
  events := []
  response := none
  draws := 0
  faults := 0

end Sys2Proof.Machine
end

