-- ==== Sys2Proof/Machine/Ops.lean ====
section
/-! DEFINITION. The named operations of the SCE: the buffer BUF (spec 00_scope.md R14, 10_state.md R38), acceptance of a
command (R28), completion (48_orchestrator.md R256), FAULT ENTRY (60_exceptions.md R300, R301), and the two ways out of the
fault state: reset (70_reset_and_hazards.md R330) and CLR (48_orchestrator.md R266, 60_exceptions.md R302). -/

namespace Sys2Proof.Machine

/-! ## BUF -/

/-- What an unlisted byte of BUF reads as: the reset content (R330). -/
def Memory.unlisted : Byte := 0x00

/-- `BUF[a]`. -/
def Memory.read : Memory → Nat → Byte
  | [], _ => Memory.unlisted
  | c :: m, a => if c.1 = a then c.2 else Memory.read m a

/-- The entry for `BUF[a] = b`, left out where `b` is what an unlisted byte reads as. -/
def Memory.entry (a : Nat) (b : Byte) : Memory := if b = Memory.unlisted then [] else [(a, b)]

/-- `BUF[a] <- b`, keeping the canonical form. -/
def Memory.write : Memory → Nat → Byte → Memory
  | [], a, b => Memory.entry a b
  | c :: m, a, b =>
    if a < c.1 then Memory.entry a b ++ c :: m
    else if a = c.1 then Memory.entry a b ++ m
    else c :: Memory.write m a b

/-- The canonical form: indices strictly rising, no byte equal to what an unlisted index reads as. -/
abbrev Memory.wf (m : Memory) : Prop :=
  m.Pairwise (fun c d => c.1 < d.1) ∧ ∀ c ∈ m, c.2 ≠ Memory.unlisted

/-- Every listed index lies in `0 .. n - 1`. -/
abbrev Memory.within (m : Memory) (n : Nat) : Prop := ∀ c ∈ m, c.1 < n

/-- The buffer of `n` bytes whose byte `a` is `f a`. -/
def Memory.ofFn (n : Nat) (f : Nat → Byte) : Memory :=
  (List.range n).flatMap fun a => Memory.entry a (f a)

/-- `MemWrite(a, length v, v)` (R14). -/
def Memory.writeBytes : Memory → Nat → List Byte → Memory
  | m, _, [] => m
  | m, a, b :: v => Memory.writeBytes (Memory.write m a b) (a + 1) v

/-- `BLK(i)`, the 16 bytes from `16*i` (R14). -/
def Memory.block (m : Memory) (i : Nat) : Block := Vector.ofFn fun n : Fin 16 => Memory.read m (16 * i + n.val)

/-- `BLK(i) <- v` (R14). -/
def Memory.setBlock (m : Memory) (i : Nat) (v : Block) : Memory := Memory.writeBytes m (16 * i) v.toList

/-- `n` bytes of zero from index `a` up (the fill of R111 and R113). -/
def Memory.fillZero : Memory → Nat → Nat → Memory
  | m, _, 0 => m
  | m, a, n + 1 => Memory.fillZero (Memory.write m a 0x00) (a + 1) n

/-- `for a = 0 to n - 1: BUF[a] <- f BUF[a]`. -/
def Memory.mapBytes (f : Byte → Byte) : Nat → Memory → Memory
  | 0, m => m
  | n + 1, m =>
    let done := Memory.mapBytes f n m
    Memory.write done n (f (Memory.read done n))

/-- `for i = 0 to n - 1: BLK(i) <- f BLK(i)`. -/
def Memory.mapBlocks (f : Block → Block) : Nat → Memory → Memory
  | 0, m => m
  | n + 1, m =>
    let done := Memory.mapBlocks f n m
    Memory.setBlock done n (f (Memory.block done n))

/-! ## Accepting and completing a command -/

/-- The acceptance of a command word: `PEND <- value, BUSY <- 1, DONE <- 0` (R28; in the fault state R68, log
entry 9). -/
def State.accept (s : State) (w : Word) : State := { s with pend := w, busy := true, done := false }

/-- The last two lines of the engine's step: `BUSY <- 0, DONE <- 1` (R256). -/
def State.complete (s : State) : State := { s with busy := false, done := true }

/-! ## The answer of the port -/

/-- The answer of a transaction put on the port (R60; log entry 3, which names the 0 given as data of a write). -/
def State.respond (s : State) (resp : Resp) (data : Word) : State := { s with response := some ⟨resp, data⟩ }

/-! ## Fault entry and the ways out -/

/-- The value of ECODE for each kind (R290). -/
def FaultKind.code : FaultKind → BitVec 8
  | .invalidPadding => 0x04
  | .roundCountOutOfRange => 0x06
  | .illegalCommand => 0x10
  | .notReady => 0x11
  | .bufferOverflow => 0x12
  | .blockShape => 0x13
  | .keyIndexRange => 0x14

/-- The data state behind a fault: unspecified (R301, 93_implementation_defined.md U4), so FREE, but that a
RoundCountOutOfRange keeps KV and R as they were: DESIGN CHOICE, log entry 6 (R136 has them left 0, which they are under
`State.Inv`). -/
def State.hiddenData (s : State) (k : FaultKind) : Data where
  key := Config.hiddenKey s.faults
  rk := Config.hiddenRk s.faults
  r := if k = .roundCountOutOfRange then s.data.r else Config.hiddenR s.faults
  rks := Config.hiddenRks s.faults
  sbox := Config.hiddenSbox s.faults
  inv := Config.hiddenInv s.faults
  buf := Memory.ofFn s.params.bufBytes (Config.hiddenByte s.faults)
  len := Config.hiddenLen s.faults
  kv := if k = .roundCountOutOfRange then s.data.kv else Config.hiddenKv s.faults
  qv := Config.hiddenQv s.faults
  sv := Config.hiddenSv s.faults
  nv := Config.hiddenNv s.faults

/-- `FaultEntry(kind)` (R300): ECODE and EOPC recorded, ERR set, BUSY cleared, DONE as it was, the data state
unspecified (R301). -/
def State.faultEntry (s : State) (k : FaultKind) : State :=
  { s with
    data := State.hiddenData s k
    ecode := k.code
    eopc := s.pend.extractLsb' 0 8
    err := true
    busy := false
    faults := s.faults + 1 }

/-- The reset event: every element of R20 takes its reset value (R330); the parameters, the environment's events,
the port's last answer and the counters of the free values are no elements of R20 (log entry 15). -/
def State.applyReset (s : State) : State :=
  { State.reset with
    params := s.params
    events := s.events
    response := s.response
    draws := s.draws
    faults := s.faults }

/-- The body of CLR: as reset, but the interrupt enables keep their values (R266). -/
def State.zeroise (s : State) : State :=
  { State.applyReset s with ieDone := s.ieDone, ieErr := s.ieErr }

/-! ## Performing a command body -/

/-- What a command body does to the data state: its new value, or the fault it raises. -/
abbrev Body := Params → Data → Except FaultKind Data

/-- The outcome of performing `body`: completion with its data, or fault entry (R256, R300). -/
def State.perform (s : State) (body : Body) : Host.Outcome State Fault Refusal :=
  match body s.params s.data with
  | .ok d => .next (State.complete { s with data := d })
  | .error k => .next (State.faultEntry s k)

/-- The call of `ENTROPY()`: the answer, and the state in which it has been given (R133; log entry 5). -/
def State.draw (s : State) : Draw × State := (Config.entropy s.draws, { s with draws := s.draws + 1 })

/-- `for r = 0 to n - 1: step r` over command bodies. -/
def loopUp (step : Nat → Data → Except FaultKind Data) : Nat → Data → Except FaultKind Data
  | 0, d => .ok d
  | n + 1, d => loopUp step n d >>= step n

/-- `for r = n - 1 downto 0: step r` over command bodies. -/
def loopDown (step : Nat → Data → Except FaultKind Data) : Nat → Data → Except FaultKind Data
  | 0, d => .ok d
  | n + 1, d => step n d >>= loopDown step n

end Sys2Proof.Machine
end

