-- ==== Sys2Proof/Machine/Flags.lean ====
section
/-! DEFINITION. The valid flags and the words assembled from flags (spec 10_state.md R22, R25, R29 to R32;
60_exceptions.md R301, R305). -/

namespace Sys2Proof.Machine

/-- The side effect of every host write to KEY: `KV, QV, SV, NV, R <- 0` (R22). -/
def Data.invalidate (d : Data) : Data :=
  { d with kv := false, qv := false, sv := false, nv := false, r := 0 }

/-- STATUS (R29): BUSY, DONE, ERR, BACC in bits 0 to 3; KV, QV, SV, NV in bits 8 to 11, which read 0 while
ERR = 1 (R301); every other bit 0. -/
def State.statusWord (s : State) : Word :=
  let shown := fun b : Bool => BitVec.ofBool (!s.err && b)
  (0 : BitVec 20) ++ shown s.data.nv ++ shown s.data.sv ++ shown s.data.qv ++ shown s.data.kv ++ (0 : BitVec 4)
    ++ BitVec.ofBool s.bacc ++ BitVec.ofBool s.err ++ BitVec.ofBool s.done ++ BitVec.ofBool s.busy

/-- ERRINFO (R31): ECODE in bits 7:0, EOPC in bits 15:8. -/
def State.errinfoWord (s : State) : Word := (0 : BitVec 16) ++ s.eopc ++ s.ecode

/-- INTEN (R32): IE_DONE in bit 0, IE_ERR in bit 1. -/
def State.intenWord (s : State) : Word := (0 : BitVec 30) ++ BitVec.ofBool s.ieErr ++ BitVec.ofBool s.ieDone

/-- ROUNDS (R25): R, widened with zeros. -/
def State.roundsWord (s : State) : Word := BitVec.ofNat 32 s.data.r.val

/-- The host write to STATUS: bit 1 clears DONE, bit 3 clears BACC, every other bit is ignored (R29). -/
def State.writeStatus (s : State) (v : Word) : State :=
  { s with done := s.done && !v.getLsbD 1, bacc := s.bacc && !v.getLsbD 3 }

/-- The host write to INTEN: bits 0 and 1 (R32). -/
def State.writeInten (s : State) (v : Word) : State := { s with ieDone := v.getLsbD 0, ieErr := v.getLsbD 1 }

/-- The interrupt output, a level (R43, R305). -/
def State.irq (s : State) : Bool := s.done && s.ieDone || s.err && s.ieErr

end Sys2Proof.Machine
end

