-- ==== Sys2Proof/Machine/Operands.lean ====
section
/-! DEFINITION. The operand forms of the SCE: the checks the bodies make on their implicit operands (spec
60_exceptions.md R295 to R298, R307), the block layer form, and the byte lanes of the words of KEY, RK, the tables and BUF
(20_memory.md R62). -/

namespace Sys2Proof.Machine

/-! ## Checks -/

/-- A valid flag that must be 1, else NotReady (R295). -/
def needFlag (flag : Bool) (d : Data) : Except FaultKind Data :=
  if flag = true then .ok d else .error .notReady

/-- `LEN > BUF_BYTES` raises BufferOverflow (R296). -/
def needCapacity (p : Params) (d : Data) : Except FaultKind Data :=
  if d.len.toNat > p.bufBytes then .error .bufferOverflow else .ok d

/-- `LEN mod 16 != 0` raises BlockShape (R297). -/
def needShape (d : Data) : Except FaultKind Data :=
  if d.len.toNat % 16 ≠ 0 then .error .blockShape else .ok d

/-- The two checks every block command makes on LEN, in the order of R307. -/
def needBlocks (p : Params) (d : Data) : Except FaultKind Data := needCapacity p d >>= needShape

/-- `NBLK = LEN div 16` (R14). -/
def Data.nblk (d : Data) : Nat := d.len.toNat / 16

/-- A block command that replaces every block of the message by `f` of it (R203, R204, R217, R218, R231). -/
def blockLayer (f : Block → Block) (p : Params) (d : Data) : Except FaultKind Data :=
  needBlocks p d >>= fun d => .ok { d with buf := Memory.mapBlocks f d.nblk d.buf }

/-- A command that replaces every byte of the message by its entry in a table (R187). -/
def byteLayer (t : Table) (p : Params) (d : Data) : Except FaultKind Data :=
  needBlocks p d >>= fun d => .ok { d with buf := Memory.mapBytes (fun b => t[b.toNat]) d.len.toNat d.buf }

/-! ## Byte lanes -/

/-- A word from four bytes, the lowest index in bits 7:0 (R62). -/
def lanes (b0 b1 b2 b3 : Byte) : Word := b3 ++ b2 ++ b1 ++ b0

/-- Byte lane `n` of a word (R62). -/
def lane (w : Word) (n : Nat) : Byte := w.extractLsb' (8 * n) 8

/-- The word of row `w` of a grid (R22). -/
def rowWord (b : Block) (w : Fin 4) : Word :=
  lanes b[4 * w.val] b[4 * w.val + 1] b[4 * w.val + 2] b[4 * w.val + 3]

/-- A grid with row `w` replaced by the lanes of `v` (R22, R23). -/
def setRow (b : Block) (w : Fin 4) (v : Word) : Block :=
  (((b.set (4 * w.val) (lane v 0)).set (4 * w.val + 1) (lane v 1)).set (4 * w.val + 2) (lane v 2)).set
    (4 * w.val + 3) (lane v 3)

/-- Word `n` of a table window (R36, R37). -/
def tableWord (t : Table) (n : Fin 64) : Word :=
  lanes t[4 * n.val] t[4 * n.val + 1] t[4 * n.val + 2] t[4 * n.val + 3]

/-- Word `n` of BUF (R38). -/
def Memory.word (m : Memory) (n : Nat) : Word :=
  lanes (Memory.read m (4 * n)) (Memory.read m (4 * n + 1)) (Memory.read m (4 * n + 2)) (Memory.read m (4 * n + 3))

/-- BUF with word `n` replaced (R38). -/
def Memory.setWord (m : Memory) (n : Nat) (v : Word) : Memory :=
  Memory.writeBytes m (4 * n) [lane v 0, lane v 1, lane v 2, lane v 3]

end Sys2Proof.Machine
end

