-- ==== Sys2Proof/Machine/Control.lean ====
section
/-! DEFINITION. The control commands NOP and CLR (spec 48_orchestrator.md R265, R266). -/

namespace Sys2Proof.Machine

/-- NOP: no state change (R265). -/
def Body.nop : Body := fun _ d => .ok d

/-- NOP (R265): completion only. -/
def execNop (s : State) : Host.Outcome State Fault Refusal := State.perform s Body.nop

/-- CLR (R266, R302): zeroise, keep the interrupt enables, complete. -/
def execClr (s : State) : Host.Outcome State Fault Refusal := .next (State.complete (State.zeroise s))

end Sys2Proof.Machine
end

