-- ==== Sys2Proof/Machine/Mixing.lean ====
section
/-! DEFINITION. The mixing layer: MIX (spec 46_mixing.md R230, R231). -/

namespace Sys2Proof.Machine

/-- `XOR16(B, k)`, byte by byte (R230). -/
def xor16 (b k : Block) : Block := Vector.zipWith (· ^^^ ·) b k

/-- MIX (R231): every block is XORed with the same RK. -/
def Body.mix : Body := fun p d => blockLayer (fun b => xor16 b d.rk) p d

/-- MIX (R231). -/
def execMix (s : State) : Host.Outcome State Fault Refusal := State.perform s Body.mix

end Sys2Proof.Machine
end

