-- ==== Sys2Proof/Machine/Chaining.lean ====
section
/-! DEFINITION. The chaining layer: CHN.F, CHN.R (spec 47_chaining.md R240 to R242). -/

namespace Sys2Proof.Machine

/-- The loop of CHN.F over the blocks `0 .. n - 1` from the initial value `iv`: the buffer, and `prev`, the last
block written (R241). -/
def chainForward (iv : Block) : Nat → Memory → Memory × Block
  | 0, m => (m, iv)
  | n + 1, m =>
    let done := chainForward iv n m
    let prev := xor16 (Memory.block done.1 n) done.2
    (Memory.setBlock done.1 n prev, prev)

/-- The loop of CHN.R: `prev` is the last INPUT block, saved before it was overwritten (R242). -/
def chainReverse (iv : Block) : Nat → Memory → Memory × Block
  | 0, m => (m, iv)
  | n + 1, m =>
    let done := chainReverse iv n m
    let cur := Memory.block done.1 n
    (Memory.setBlock done.1 n (xor16 cur done.2), cur)

/-- CHN.F (R241): the initial value is RK (R240). -/
def Body.chnF : Body := fun p d =>
  needBlocks p d >>= fun d => .ok { d with buf := (chainForward d.rk d.nblk d.buf).1 }

/-- CHN.R (R242). -/
def Body.chnR : Body := fun p d =>
  needBlocks p d >>= fun d => .ok { d with buf := (chainReverse d.rk d.nblk d.buf).1 }

/-- CHN.F (R241). -/
def execChnF (s : State) : Host.Outcome State Fault Refusal := State.perform s Body.chnF

/-- CHN.R (R242). -/
def execChnR (s : State) : Host.Outcome State Fault Refusal := State.perform s Body.chnR

end Sys2Proof.Machine
end

