-- ==== Sys2Proof/Machine/Codec.lean ====
section
/-! DEFINITION. The block codec: PAD, CHUNK, UNPAD (spec 40_block_codec.md R110 to R117). -/

namespace Sys2Proof.Machine

/-- The length PAD gives a message of `n` bytes (R111). -/
def paddedLength (n : Nat) : Nat := 16 * (n / 16 + 1)

/-- The length CHUNK gives a message of `n` bytes (R113). -/
def chunkedLength (n : Nat) : Nat := 16 * ((n + 15) / 16)

/-- The buffer PAD leaves: the sentinel at `n`, zeros up to the padded length (R111). -/
def padBuffer (m : Memory) (n : Nat) : Memory :=
  Memory.fillZero (Memory.write m n 0x80) (n + 1) (paddedLength n - (n + 1))

/-- PAD (R111). -/
def Body.pad : Body := fun p d =>
  if d.len.toNat > p.bufBytes - 1 then .error .bufferOverflow
  else .ok { d with buf := padBuffer d.buf d.len.toNat, len := BitVec.ofNat 32 (paddedLength d.len.toNat) }

/-- CHUNK (R113). -/
def Body.chunk : Body := fun p d =>
  needCapacity p d >>= fun d =>
    .ok { d with
      buf := Memory.fillZero d.buf d.len.toNat (chunkedLength d.len.toNat - d.len.toNat)
      len := BitVec.ofNat 32 (chunkedLength d.len.toNat) }

/-- The scan of UNPAD from `i` down over bytes equal to 0x00: the `i` at which it stops (R115). -/
def scanZeros (m : Memory) : Nat → Nat
  | 0 => 0
  | i + 1 => if Memory.read m i = 0x00 then scanZeros m i else i + 1

/-- UNPAD (R115): LEN only; the sentinel and the zeros stay in BUF. -/
def Body.unpad : Body := fun p d =>
  needBlocks p d >>= fun d =>
    let i := scanZeros d.buf d.len.toNat
    if i = 0 ∨ Memory.read d.buf (i - 1) ≠ 0x80 then .error .invalidPadding
    else .ok { d with len := BitVec.ofNat 32 (i - 1) }

/-- PAD (R111). -/
def execPad (s : State) : Host.Outcome State Fault Refusal := State.perform s Body.pad

/-- CHUNK (R113). -/
def execChunk (s : State) : Host.Outcome State Fault Refusal := State.perform s Body.chunk

/-- UNPAD (R115). -/
def execUnpad (s : State) : Host.Outcome State Fault Refusal := State.perform s Body.unpad

end Sys2Proof.Machine
end

