-- ==== Sys2Proof/Machine/Diffusion.lean ====
section
/-! DEFINITION. The diffusion layer: ROT.F, ROT.R (spec 44_diffusion.md R200 to R204). -/

namespace Sys2Proof.Machine

/-- `rotl8(v, s)` for `s` in 0..7 (R200). -/
def rotl8 (v : Byte) (s : Nat) : Byte := if s = 0 then v else (v <<< s) ||| (v >>> (8 - s))

/-- `rotr8(v, s)` for `s` in 0..7 (R200). -/
def rotr8 (v : Byte) (s : Nat) : Byte := if s = 0 then v else (v >>> s) ||| (v <<< (8 - s))

/-- `SHIFT(k, r)`: the sum of the bytes of row `r`, a natural number, `mod 8` (R201). -/
def rowShift (k : KeyMatrix) (r : Fin 4) : Nat :=
  (k[4 * r.val].toNat + k[4 * r.val + 1].toNat + k[4 * r.val + 2].toNat + k[4 * r.val + 3].toNat) % 8

/-- The row of byte `n` of a grid (R13). -/
def rowOf (n : Fin 16) : Fin 4 := ⟨n.val / 4, by omega⟩

/-- The column of byte `n` of a grid (R13). -/
def colOf (n : Fin 16) : Fin 4 := ⟨n.val % 4, by omega⟩

/-- `ROTATE(B, k, forward)` (R202). -/
def rotateForward (k : KeyMatrix) (b : Block) : Block :=
  Vector.ofFn fun n : Fin 16 => rotl8 b[n] (rowShift k (rowOf n))

/-- `ROTATE(B, k, reverse)` (R202). -/
def rotateReverse (k : KeyMatrix) (b : Block) : Block :=
  Vector.ofFn fun n : Fin 16 => rotr8 b[n] (rowShift k (rowOf n))

/-- ROT.F (R203). -/
def Body.rotF : Body := fun p d => blockLayer (rotateForward d.rk) p d

/-- ROT.R (R204). -/
def Body.rotR : Body := fun p d => blockLayer (rotateReverse d.rk) p d

/-- ROT.F (R203). -/
def execRotF (s : State) : Host.Outcome State Fault Refusal := State.perform s Body.rotF

/-- ROT.R (R204). -/
def execRotR (s : State) : Host.Outcome State Fault Refusal := State.perform s Body.rotR

end Sys2Proof.Machine
end

