-- ==== Sys2Proof/Machine/KeyGeneration.lean ====
section
/-! DEFINITION. Key generation and the round count: KGEN, KSET (spec 41_key_matrix_keygen.md R132 to R137). -/

namespace Sys2Proof.Machine

/-- KGEN with the oracle's answer `(e, d)`: the key is `e` with byte 0 overwritten by `d` (R134). -/
def Body.kgen (x : Draw) : Body := fun _ d =>
  .ok { d with
    key := x.bytes.set 0 (BitVec.ofNat 8 x.rounds.val)
    r := x.rounds
    kv := true
    qv := false
    sv := false
    nv := false }

/-- KSET: `R <- KEY[0]`, which must lie in 1..24 (R136). -/
def Body.kset : Body := fun _ d =>
  if h : 1 ≤ d.key[0].toNat ∧ d.key[0].toNat ≤ 24 then
    .ok { d with r := ⟨d.key[0].toNat, Nat.lt_succ_of_le h.2⟩, kv := true }
  else .error .roundCountOutOfRange

/-- KGEN (R134): one call of the entropy oracle, then its body. -/
def execKgen (s : State) : Host.Outcome State Fault Refusal :=
  State.perform (State.draw s).2 (Body.kgen (State.draw s).1)

/-- KSET (R136). -/
def execKset (s : State) : Host.Outcome State Fault Refusal := State.perform s Body.kset

end Sys2Proof.Machine
end

