-- ==== Sys2Proof/Machine/Hash.lean ====
section
/-! DEFINITION. SHA-256 for messages of at most 55 bytes, and its truncation H16 (spec 42_key_schedule.md R151 to
R158). -/

namespace Sys2Proof.Machine

/-- `ROTR(x, n)` for `0 < n < 32` (R153). -/
def rotr (x : Word) (n : Nat) : Word := (x >>> n) ||| (x <<< (32 - n))

/-- `Ch` (R154). -/
def hashCh (x y z : Word) : Word := (x &&& y) ^^^ (~~~x &&& z)

/-- `Maj` (R154). -/
def hashMaj (x y z : Word) : Word := (x &&& y) ^^^ (x &&& z) ^^^ (y &&& z)

/-- `BSIG0` (R154). -/
def bsig0 (x : Word) : Word := rotr x 2 ^^^ rotr x 13 ^^^ rotr x 22

/-- `BSIG1` (R154). -/
def bsig1 (x : Word) : Word := rotr x 6 ^^^ rotr x 11 ^^^ rotr x 25

/-- `SSIG0` (R154). -/
def ssig0 (x : Word) : Word := rotr x 7 ^^^ rotr x 18 ^^^ (x >>> 3)

/-- `SSIG1` (R154). -/
def ssig1 (x : Word) : Word := rotr x 17 ^^^ rotr x 19 ^^^ (x >>> 10)

/-- The round constants `KC[0..63]` (R155), a row of the spec's table a line. -/
def roundConstants : List Word :=
  [0x428a2f98, 0x71374491, 0xb5c0fbcf, 0xe9b5dba5, 0x3956c25b, 0x59f111f1, 0x923f82a4, 0xab1c5ed5] ++
  [0xd807aa98, 0x12835b01, 0x243185be, 0x550c7dc3, 0x72be5d74, 0x80deb1fe, 0x9bdc06a7, 0xc19bf174] ++
  [0xe49b69c1, 0xefbe4786, 0x0fc19dc6, 0x240ca1cc, 0x2de92c6f, 0x4a7484aa, 0x5cb0a9dc, 0x76f988da] ++
  [0x983e5152, 0xa831c66d, 0xb00327c8, 0xbf597fc7, 0xc6e00bf3, 0xd5a79147, 0x06ca6351, 0x14292967] ++
  [0x27b70a85, 0x2e1b2138, 0x4d2c6dfc, 0x53380d13, 0x650a7354, 0x766a0abb, 0x81c2c92e, 0x92722c85] ++
  [0xa2bfe8a1, 0xa81a664b, 0xc24b8b70, 0xc76c51a3, 0xd192e819, 0xd6990624, 0xf40e3585, 0x106aa070] ++
  [0x19a4c116, 0x1e376c08, 0x2748774c, 0x34b0bcb5, 0x391c0cb3, 0x4ed8aa4a, 0x5b9cca4f, 0x682e6ff3] ++
  [0x748f82ee, 0x78a5636f, 0x84c87814, 0x8cc70208, 0x90befffa, 0xa4506ceb, 0xbef9a3f7, 0xc67178f2]

/-- The eight working words `a` to `h` of the compression (R158). -/
structure HashWords where
  (a b c d e f g h : Word)
deriving DecidableEq, Repr

/-- The initial hash words `HI[0..7]` (R156). -/
def hashInit : HashWords :=
  ⟨0x6a09e667, 0xbb67ae85, 0x3c6ef372, 0xa54ff53a, 0x510e527f, 0x9b05688c, 0x1f83d9ab, 0x5be0cd19⟩

/-- The 64-byte block of a message of at most 55 bytes (R157). -/
def hashPad (m : List Byte) : List Byte :=
  m ++ [(0x80 : Byte)] ++ List.replicate (55 - m.length) (0x00 : Byte)
    ++ (List.range 8).map fun i => (BitVec.ofNat 64 (8 * m.length)).extractLsb' (8 * (7 - i)) 8

/-- The big-endian word of the bytes `4t .. 4t+3` (R153, R158). -/
def bigEndian (p : List Byte) (t : Nat) : Word :=
  p.getD (4 * t) 0 ++ p.getD (4 * t + 1) 0 ++ p.getD (4 * t + 2) 0 ++ p.getD (4 * t + 3) 0

/-- `n` more words of the message schedule. The list is newest first: with `W[t-1]` at its head, `W[t-2]`,
`W[t-7]`, `W[t-15]`, `W[t-16]` stand at 1, 6, 14, 15 (R158). -/
def extendSchedule : Nat → List Word → List Word
  | 0, w => w
  | n + 1, w => extendSchedule n ((ssig1 (w.getD 1 0) + w.getD 6 0 + ssig0 (w.getD 14 0) + w.getD 15 0) :: w)

/-- The message schedule `W[0..63]` of a 64-byte block (R158). -/
def schedule (p : List Byte) : List Word :=
  (extendSchedule 48 ((List.range 16).map (bigEndian p)).reverse).reverse

/-- One round, with the constant and the schedule word of its turn (R158). -/
def hashRound (s : HashWords) (kc w : Word) : HashWords :=
  let t1 := s.h + bsig1 s.e + hashCh s.e s.f s.g + kc + w
  let t2 := bsig0 s.a + hashMaj s.a s.b s.c
  ⟨t1 + t2, s.a, s.b, s.c, s.d + t1, s.e, s.f, s.g⟩

/-- The rounds, one for each pair of a constant and a schedule word (R158). -/
def hashRounds : HashWords → List Word → List Word → HashWords
  | s, kc :: kcs, w :: ws => hashRounds (hashRound s kc w) kcs ws
  | s, _, _ => s

/-- `D[0..7]` (R158). -/
def hashWords (m : List Byte) : List Word :=
  let s := hashRounds hashInit roundConstants (schedule (hashPad m))
  [hashInit.a + s.a, hashInit.b + s.b, hashInit.c + s.c, hashInit.d + s.d,
   hashInit.e + s.e, hashInit.f + s.f, hashInit.g + s.g, hashInit.h + s.h]

/-- `SHA256(m)` for a message of at most 55 bytes; digest bytes most significant first (R152, R158). What it
gives for a longer message is used nowhere (log entry 10). -/
def sha256 (m : List Byte) : Digest :=
  let d := hashWords m
  Vector.ofFn fun n : Fin 32 => (d.getD (n.val / 4) 0).extractLsb' (8 * (3 - n.val % 4)) 8

/-- `H16(k)`: the first 16 bytes of the digest of the 16 bytes of `k` (R151). -/
def h16 (k : KeyMatrix) : KeyMatrix :=
  let d := sha256 k.toList
  Vector.ofFn fun n : Fin 16 => d[n.val]

end Sys2Proof.Machine
end

