-- ==== Sys2Proof/Machine/KeySchedule.lean ====
section
/-! DEFINITION. The key schedule: KDRV, KADV, KSEL, KBASE (spec 42_key_schedule.md R150, R160 to R164). -/

namespace Sys2Proof.Machine

/-- `K_i` of the original key `k`: `K_0 = k`, `K_i = H16(K_(i-1))` (R150). -/
def roundKey (k : KeyMatrix) : Nat → KeyMatrix
  | 0 => k
  | i + 1 => h16 (roundKey k i)

/-- The content of RKS for a key and a round count: `K_0 .. K_R`, and zeros above (R160). -/
def keySequence (k : KeyMatrix) (r : Fin 25) : Vector KeyMatrix 25 :=
  Vector.ofFn fun i => if i ≤ r then roundKey k i.val else Vector.replicate 16 0x00

/-- KDRV (R160). -/
def Body.kdrv : Body := fun _ d =>
  needFlag d.kv d >>= fun d => .ok { d with rks := keySequence d.key d.r, qv := true }

/-- KADV: `RK <- H16(RK)` (R161). -/
def Body.kadv : Body := fun _ d => .ok { d with rk := h16 d.rk }

/-- KSEL idx: `RK <- RKS[idx]` for `idx <= R` (R162). -/
def Body.ksel (idx : Nat) : Body := fun _ d =>
  needFlag d.qv d >>= fun d =>
    if h : idx ≤ d.r.val then .ok { d with rk := d.rks[idx]'(Nat.lt_of_le_of_lt h d.r.isLt) }
    else .error .keyIndexRange

/-- KBASE: `RK <- KEY` (R163). -/
def Body.kbase : Body := fun _ d => .ok { d with rk := d.key }

/-- KDRV (R160). -/
def execKdrv (s : State) : Host.Outcome State Fault Refusal := State.perform s Body.kdrv

/-- KADV (R161). -/
def execKadv (s : State) : Host.Outcome State Fault Refusal := State.perform s Body.kadv

/-- KSEL (R162). -/
def execKsel (idx : Nat) (s : State) : Host.Outcome State Fault Refusal := State.perform s (Body.ksel idx)

/-- KBASE (R163). -/
def execKbase (s : State) : Host.Outcome State Fault Refusal := State.perform s Body.kbase

end Sys2Proof.Machine
end

