-- ==== Sys2Proof/Machine/Substitution.lean ====
section
/-! DEFINITION. The substitution layer: SGEN, SINV, SUB.F, SUB.R (spec 43_substitution.md R182 to R189). -/

namespace Sys2Proof.Machine

/-- The default `SBOX_DRAW`: the first two digest bytes of `SHA256(dg ‖ byte(i))`, big-endian, `mod (i + 1)`
(R183). -/
def digestCounterDraw (dg : Digest) (i : Nat) : Nat :=
  let h := sha256 (dg.toList ++ [BitVec.ofNat 8 i])
  (h[0].toNat * 256 + h[1].toNat) % (i + 1)

/-- `SBOX_DRAW(dg, i)` of the implementation, in `0..i` (R10, R182; log entry 7). -/
def sboxDraw (x : SboxDraw) (dg : Digest) (i : Nat) : Nat :=
  match x with
  | .digestCounter => digestCounterDraw dg i
  | .other n => Config.otherSboxDraw n dg i % (i + 1)

/-- The swaps of the shuffle for the indices `n` downto 1 (R182). -/
def shuffle (draw : Nat → Nat) : Nat → Table → Table
  | 0, t => t
  | n + 1, t => shuffle draw n (t.swapIfInBounds (n + 1) (draw (n + 1)))

/-- The identity array `[0..255]` (R182). -/
def identityTable : Table := Vector.ofFn fun v : Fin 256 => BitVec.ofNat 8 v.val

/-- `GENSBOX(k)` (R182). -/
def genSbox (x : SboxDraw) (k : KeyMatrix) : Table := shuffle (sboxDraw x (sha256 k.toList)) 255 identityTable

/-- The writes `N[t[i]] <- i` for `i = 0 .. n - 1` (R185). -/
def invertUpTo (t : Table) : Nat → Table
  | 0 => Vector.replicate 256 0x00
  | i + 1 => (invertUpTo t i).set (t.getD i 0).toNat (BitVec.ofNat 8 i) (BitVec.isLt _)

/-- `INVERT(t)` (R185). -/
def invertTable (t : Table) : Table := invertUpTo t 256

/-- SGEN (R184): the seed is KEY, never a round key (R181). -/
def Body.sgen : Body := fun p d => .ok { d with sbox := genSbox p.sboxDraw d.key, sv := true, nv := false }

/-- SINV (R186). -/
def Body.sinv : Body := fun _ d =>
  needFlag d.sv d >>= fun d => .ok { d with inv := invertTable d.sbox, nv := true }

/-- SUB.F (R188). -/
def Body.subF : Body := fun p d => needFlag d.sv d >>= fun d => byteLayer d.sbox p d

/-- SUB.R (R189). -/
def Body.subR : Body := fun p d => needFlag d.nv d >>= fun d => byteLayer d.inv p d

/-- SGEN (R184). -/
def execSgen (s : State) : Host.Outcome State Fault Refusal := State.perform s Body.sgen

/-- SINV (R186). -/
def execSinv (s : State) : Host.Outcome State Fault Refusal := State.perform s Body.sinv

/-- SUB.F (R188). -/
def execSubF (s : State) : Host.Outcome State Fault Refusal := State.perform s Body.subF

/-- SUB.R (R189). -/
def execSubR (s : State) : Host.Outcome State Fault Refusal := State.perform s Body.subR

end Sys2Proof.Machine
end

