-- ==== Sys2Proof/Machine/Transposition.lean ====
section
/-! DEFINITION. The transposition layer: TRN.F, TRN.R (spec 45_transposition.md R215 to R218). -/

namespace Sys2Proof.Machine

/-- The order of the sort of R215: by the pair `(k[i], i)`, bytes as unsigned numbers. -/
abbrev rowBefore (k : KeyMatrix) (i j : Fin 4) : Prop :=
  k[i.val].toNat < k[j.val].toNat ∨ k[i.val].toNat = k[j.val].toNat ∧ i ≤ j

/-- Inserts an index into a list sorted by `rowBefore` (R215). -/
def insertIndex (k : KeyMatrix) (i : Fin 4) : List (Fin 4) → List (Fin 4)
  | [] => [i]
  | j :: js =>
    if rowBefore k i j then i :: j :: js
    else j :: insertIndex k i js

/-- The indices 0..3 sorted ascending by the pair `(k[i], i)` (R215). -/
def sortedIndices (k : KeyMatrix) : List (Fin 4) :=
  insertIndex k 0 (insertIndex k 1 (insertIndex k 2 (insertIndex k 3 [])))

/-- `p[n]` for `p = PERM(k)`: entry `n` of the sorted list of indices, an argsort (R215). -/
def perm (k : KeyMatrix) (n : Fin 4) : Fin 4 := (sortedIndices k).getD n.val 0

/-- The grid position of row `r`, column `c` (R13). -/
def gridIndex (r c : Fin 4) : Fin 16 := ⟨4 * r.val + c.val, by omega⟩

/-- The scatter of the cells in the list, into `d` (R216). -/
def scatter (k : KeyMatrix) (b : Block) : List (Fin 16) → Block → Block
  | [], d => d
  | n :: ns, d => scatter k b ns (d.set (gridIndex (perm k (rowOf n)) (perm k (colOf n))) b[n])

/-- `TRANSPOSE(B, k)`: `D[4*p[r] + p[c]] <- B[4r + c]` into a fresh block (R216). -/
def transpose (k : KeyMatrix) (b : Block) : Block := scatter k b (List.finRange 16) (Vector.replicate 16 0)

/-- `REV_TRANSPOSE(B, k)`: `D[4r + c] <- B[4*p[r] + p[c]]` (R216). -/
def reverseTranspose (k : KeyMatrix) (b : Block) : Block :=
  Vector.ofFn fun n : Fin 16 => b[gridIndex (perm k (rowOf n)) (perm k (colOf n))]

/-- TRN.F (R217). -/
def Body.trnF : Body := fun p d => blockLayer (transpose d.rk) p d

/-- TRN.R (R218). -/
def Body.trnR : Body := fun p d => blockLayer (reverseTranspose d.rk) p d

/-- TRN.F (R217). -/
def execTrnF (s : State) : Host.Outcome State Fault Refusal := State.perform s Body.trnF

/-- TRN.R (R218). -/
def execTrnR (s : State) : Host.Outcome State Fault Refusal := State.perform s Body.trnR

end Sys2Proof.Machine
end

