-- ==== Sys2Proof/Machine/Orchestrator.lean ====
section
/-! DEFINITION. The macro commands ENC, ENCG, DEC: the bodies of the layer commands one after the other inside one
engine step, each with its own checks (spec 48_orchestrator.md R257 to R263, R268). -/

namespace Sys2Proof.Machine

/-- One round of ENC, with RK = K_r at its start: MIX, ROT.F, TRN.F, KADV (R258). -/
def encryptRound (p : Params) (d : Data) : Except FaultKind Data :=
  Body.mix p d >>= Body.rotF p >>= Body.trnF p >>= Body.kadv p

/-- The body of ENC from PAD onward; the round loop runs exactly R times (R258, R268). -/
def encryptFromPad (p : Params) (d : Data) : Except FaultKind Data :=
  Body.pad p d >>= Body.sgen p >>= Body.subF p >>= Body.kbase p >>= fun d =>
    loopUp (fun _ => encryptRound p) d.r.val d >>= Body.chnF p

/-- ENC: KSET, then the rest (R258). -/
def Body.enc : Body := fun p d => Body.kset p d >>= encryptFromPad p

/-- ENCG: KGEN, then the body of ENC from PAD onward (R259). -/
def Body.encg (x : Draw) : Body := fun p d => Body.kgen x p d >>= encryptFromPad p

/-- One round of DEC: KSEL r, TRN.R, ROT.R, MIX (R262). -/
def decryptRound (p : Params) (r : Nat) (d : Data) : Except FaultKind Data :=
  Body.ksel r p d >>= Body.trnR p >>= Body.rotR p >>= Body.mix p

/-- DEC (R262). -/
def Body.dec : Body := fun p d =>
  Body.kset p d >>= Body.kdrv p >>= Body.chunk p >>= (fun d => Body.ksel d.r.val p d) >>= Body.chnR p >>=
    (fun d => loopDown (decryptRound p) d.r.val d) >>= Body.sgen p >>= Body.sinv p >>= Body.subR p >>= Body.unpad p

/-- ENC (R258). -/
def execEnc (s : State) : Host.Outcome State Fault Refusal := State.perform s Body.enc

/-- ENCG (R259): one call of the entropy oracle, also when the length check then faults. -/
def execEncg (s : State) : Host.Outcome State Fault Refusal :=
  State.perform (State.draw s).2 (Body.encg (State.draw s).1)

/-- DEC (R262). -/
def execDec (s : State) : Host.Outcome State Fault Refusal := State.perform s Body.dec

end Sys2Proof.Machine
end

