-- ==== Sys2Proof/Machine/Dispatch.lean ====
section
/-! DEFINITION. One arm per command: the meaning the engine performs (spec 48_orchestrator.md R256). -/

namespace Sys2Proof.Machine

def exec (i : Instr) (s : State) : Host.Outcome State Fault Refusal :=
  match i with
  | .nop => Sys2Proof.Machine.execNop s
  | .clr => Sys2Proof.Machine.execClr s
  | .kgen => Sys2Proof.Machine.execKgen s
  | .kset => Sys2Proof.Machine.execKset s
  | .kdrv => Sys2Proof.Machine.execKdrv s
  | .kadv => Sys2Proof.Machine.execKadv s
  | .ksel idx => Sys2Proof.Machine.execKsel idx s
  | .kbase => Sys2Proof.Machine.execKbase s
  | .sgen => Sys2Proof.Machine.execSgen s
  | .sinv => Sys2Proof.Machine.execSinv s
  | .subF => Sys2Proof.Machine.execSubF s
  | .subR => Sys2Proof.Machine.execSubR s
  | .rotF => Sys2Proof.Machine.execRotF s
  | .rotR => Sys2Proof.Machine.execRotR s
  | .trnF => Sys2Proof.Machine.execTrnF s
  | .trnR => Sys2Proof.Machine.execTrnR s
  | .mix => Sys2Proof.Machine.execMix s
  | .chnF => Sys2Proof.Machine.execChnF s
  | .chnR => Sys2Proof.Machine.execChnR s
  | .pad => Sys2Proof.Machine.execPad s
  | .chunk => Sys2Proof.Machine.execChunk s
  | .unpad => Sys2Proof.Machine.execUnpad s
  | .enc => Sys2Proof.Machine.execEnc s
  | .encg => Sys2Proof.Machine.execEncg s
  | .dec => Sys2Proof.Machine.execDec s

end Sys2Proof.Machine
end

