-- ==== Sys2Proof/Machine/Port.lean ====
section
/-! DEFINITION. The host port: the register map and the two transactions (spec 10_state.md R21 to R38;
20_memory.md R60 to R68). -/

namespace Sys2Proof.Machine

/-- The registers of the map (R21). -/
inductive Reg
  | id | cmd | status | errinfo | inten | rounds | len | cap
  | key (w : Fin 4)
  | rk (w : Fin 4)
  | sboxw (n : Fin 64)
  | invw (n : Fin 64)
  | rksw (n : Fin 100)
  | bufw (n : Nat)
deriving DecidableEq, Repr

/-- The register at a byte offset; `none` for an offset that is unmapped or no multiple of 4 (R21, R63, R65). -/
def regAt (bufBytes off : Nat) : Option Reg :=
  if off % 4 ≠ 0 then none
  else if off < 0x020 then
    match off / 4 with
    | 0 => some .id
    | 1 => some .cmd
    | 2 => some .status
    | 3 => some .errinfo
    | 4 => some .inten
    | 5 => some .rounds
    | 6 => some .len
    | _ => some .cap
  else if off < 0x030 then some (.key (Fin.ofNat 4 ((off - 0x020) / 4)))
  else if off < 0x040 then some (.rk (Fin.ofNat 4 ((off - 0x030) / 4)))
  else if off < 0x100 then none
  else if off < 0x200 then some (.sboxw (Fin.ofNat 64 ((off - 0x100) / 4)))
  else if off < 0x300 then some (.invw (Fin.ofNat 64 ((off - 0x200) / 4)))
  else if off < 0x400 then none
  else if off < 0x590 then some (.rksw (Fin.ofNat 100 ((off - 0x400) / 4)))
  else if off < 0x1000 then none
  else if off < 0x1000 + bufBytes then some (.bufw ((off - 0x1000) / 4))
  else none

/-- Registers served in every state of the engine: ID, STATUS, ERRINFO, INTEN, CAP (R67, R68). -/
def Reg.alwaysServed : Reg → Bool
  | .id | .status | .errinfo | .inten | .cap => true
  | .cmd | .rounds | .len | .key _ | .rk _ | .sboxw _ | .invw _ | .rksw _ | .bufw _ => false

/-- A table window shows its words while its valid flag is 1, else 0 (R35 to R37). -/
def gated (flag : Bool) (w : Word) : Word := if flag = true then w else 0

/-- What a register reads as in the idle, fault-free case (R21 to R38). -/
def State.regValue (s : State) : Reg → Word
  | .id => 0x53434501
  | .cmd => 0
  | .status => State.statusWord s
  | .errinfo => State.errinfoWord s
  | .inten => State.intenWord s
  | .rounds => State.roundsWord s
  | .len => s.data.len
  | .cap => BitVec.ofNat 32 s.params.bufBytes
  | .key w => rowWord s.data.key w
  | .rk w => rowWord s.data.rk w
  | .sboxw n => gated s.data.sv (tableWord s.data.sbox n)
  | .invw n => gated s.data.nv (tableWord s.data.inv n)
  | .rksw n => gated s.data.qv (rowWord (s.data.rks[n.val / 4]'(by omega)) ⟨n.val % 4, by omega⟩)
  | .bufw n => Memory.word s.data.buf n

/-- What a write does in the idle, fault-free case; a read-only register ignores it (R21 to R38, R66). -/
def State.writeReg (s : State) (v : Word) : Reg → State
  | .cmd => State.accept s v
  | .status => State.writeStatus s v
  | .inten => State.writeInten s v
  | .len => { s with data := { s.data with len := v } }
  | .key w => { s with data := Data.invalidate { s.data with key := setRow s.data.key w v } }
  | .rk w => { s with data := { s.data with rk := setRow s.data.rk w v } }
  | .bufw n => { s with data := { s.data with buf := Memory.setWord s.data.buf n v } }
  | .id | .errinfo | .rounds | .cap | .sboxw _ | .invw _ | .rksw _ => s

/-- What a write does in the fault state: STATUS and INTEN work, CMD accepts the exact word of CLR, every other
write is dropped (R68). -/
def State.writeFaulted (s : State) (v : Word) : Reg → State
  | .cmd => if v = 0x00000001 then State.accept s v else s
  | .status => State.writeStatus s v
  | .inten => State.writeInten s v
  | .id | .errinfo | .rounds | .len | .cap | .key _ | .rk _ | .sboxw _ | .invw _ | .rksw _ | .bufw _ => s

/-- `HostRead(off)` (R60): ERROR for another width, a misaligned or an unmapped offset, with no state change (R63,
R65); while BUSY a guarded read answers 0 and sets BACC (R67); in the fault state it answers 0 (R68). -/
def State.hostRead (s : State) (width off : Nat) : State :=
  if width ≠ 32 then State.respond s .error 0
  else
    match regAt s.params.bufBytes off with
    | none => State.respond s .error 0
    | some g =>
      if g.alwaysServed = true then State.respond s .ok (State.regValue s g)
      else if s.busy = true then State.respond { s with bacc := true } .ok 0
      else if s.err = true then State.respond s .ok 0
      else State.respond s .ok (State.regValue s g)

/-- `HostWrite(off, value)` (R60): ERROR as for a read (R63, R65); while BUSY the write is dropped and sets BACC
(R67); in the fault state as R68. The spec's answer is the `resp` alone: the 0 beside it is the model's, DESIGN CHOICE,
log entry 3. -/
def State.hostWrite (s : State) (width off : Nat) (v : Word) : State :=
  if width ≠ 32 then State.respond s .error 0
  else
    match regAt s.params.bufBytes off with
    | none => State.respond s .error 0
    | some g =>
      if s.busy = true then State.respond { s with bacc := true } .ok 0
      else if s.err = true then State.respond (State.writeFaulted s v g) .ok 0
      else State.respond (State.writeReg s v g) .ok 0

end Sys2Proof.Machine
end

