-- ==== Sys2Proof/Machine/Engine.lean ====
section
/-! DEFINITION. The engine's step and the interleaving of engine, host and reset (spec 48_orchestrator.md R255, R256;
20_memory.md R69, R70; 70_reset_and_hazards.md R330, R345). -/

namespace Sys2Proof.Machine

/-- The engine's step, for `BUSY = 1`: decode PEND; an ILLEGAL word faults before anything else (R96, R256, R294);
else perform the command. -/
def State.engineStep (s : State) : Host.Outcome State Fault Refusal :=
  match decode s.pend with
  | .ok i => exec i s
  | .error _ => .next (State.faultEntry s .illegalCommand)

/-- The engine's turn: its step is enabled exactly when `BUSY = 1`; else it has nothing to do (R256; log entry 11). -/
def State.engineTurn (s : State) : Host.Outcome State Fault Refusal :=
  if s.busy = true then State.engineStep s else .next s

/-- One event, taken off the list, happens: a transaction, the engine's turn, or reset. -/
def State.happen (s : State) : Event → Host.Outcome State Fault Refusal
  | .read width off => .next (State.hostRead s width off)
  | .write width off v => .next (State.hostWrite s width off v)
  | .engine => State.engineTurn s
  | .reset => .next (State.applyReset s)

/-- The next event of the total order of R69 and R70. When the list is used up the engine has its turn, so a
pending command is always performed after finitely many transactions (R345; log entry 1). -/
def State.advance (s : State) : Host.Outcome State Fault Refusal :=
  match s.events with
  | [] => State.engineTurn s
  | e :: es => State.happen { s with events := es } e

end Sys2Proof.Machine
end

