-- ==== Sys2Proof/Machine/Step.lean ====
section
/-! DEFINITION. One step of the machine, and the placing of a command where the next step performs it. -/

namespace Sys2Proof.Machine

/-- One step: the next event of the total order of transactions, engine steps and resets (R69, R70). -/
def step (s : State) : Host.Outcome State Fault Refusal := State.advance s

/-- The state in which the command word `w` (its `nbits` low bits) has just been accepted from the host by a CMD
write (R28) and the engine has the next turn: the very next step performs it (log entry 2). -/
def State.withFetchWord (s : State) (nbits w : Nat) : State :=
  { State.accept s (BitVec.ofNat 32 (w % 2 ^ nbits)) with events := .engine :: s.events }

end Sys2Proof.Machine
end

