-- ==== Sys2Proof/Safety.lean ====
section
/-! DEFINITION. What the statements speak of: the invariant of the machine (spec 10_state.md R25, R29 to R31;
60_exceptions.md R303), performing a list of commands, and the functional forms of encryption and decryption
(48_orchestrator.md R260, R263). -/

namespace Sys2Proof.Machine

/-! ## The invariant -/

/-- What the valid flags mean (R25, R30): the derived values are those of the present KEY. -/
structure Data.Consistent (p : Params) (d : Data) : Prop where
  /-- `KV = 1` implies `R = KEY[0]` and `1 <= R <= 24`. -/
  count : d.kv = true → d.r.val = d.key[0].toNat ∧ 1 ≤ d.r.val
  /-- `R` is 0 while `KV = 0`. -/
  noCount : d.kv = false → d.r = 0
  /-- `QV = 1` implies `KV = 1` and RKS is the sequence of KEY, zero above R. -/
  sequence : d.qv = true → d.kv = true ∧ d.rks = keySequence d.key d.r
  /-- `SV = 1` implies `SBOX = GENSBOX(KEY)`. -/
  table : d.sv = true → d.sbox = genSbox p.sboxDraw d.key
  /-- `NV = 1` implies `SV = 1` and `INV = INVERT(SBOX)`. -/
  inverse : d.nv = true → d.sv = true ∧ d.inv = invertTable d.sbox

/-- The invariant every step keeps. The flags mean something only while `ERR = 0`: the data state behind a fault is
unspecified (R301). -/
structure State.Inv (s : State) : Prop where
  /-- The capacity is one R10 allows. -/
  legal : s.params.legal
  /-- BUF is in its canonical form. -/
  canonical : Memory.wf s.data.buf
  /-- BUF holds bytes below its capacity only (R38, R61). -/
  capacity : Memory.within s.data.buf s.params.bufBytes
  /-- BUSY and DONE are never both 1 (R29). -/
  busyOrDone : ¬(s.busy = true ∧ s.done = true)
  /-- DONE and ERR are never both 1 (R29). -/
  doneOrErr : ¬(s.done = true ∧ s.err = true)
  /-- BUSY and ERR are both 1 only while a CLR is pending (R29). -/
  onlyClr : s.busy = true → s.err = true → s.pend = 0x00000001
  /-- ERRINFO is 0 while `ERR = 0` (R31). -/
  noError : s.err = false → s.ecode = 0 ∧ s.eopc = 0
  /-- ECODE is the code of a kind the SCE raises while `ERR = 1` (R290, R291). -/
  someError : s.err = true → ∃ k : FaultKind, s.ecode = k.code
  /-- The valid flags mean what R30 says. -/
  consistent : s.err = false → Data.Consistent s.params s.data

/-! ## The window, as R21, R63, R65 and R67 list it -/

/-- The offsets of the register map (R21): multiples of 4 outside the unmapped ranges of R65. -/
def mappedOffset (bufBytes off : Nat) : Prop :=
  off % 4 = 0 ∧ (off ≤ 0x03C ∨ 0x100 ≤ off ∧ off ≤ 0x2FC ∨ 0x400 ≤ off ∧ off ≤ 0x58C ∨
    0x1000 ≤ off ∧ off + 4 ≤ 0x1000 + bufBytes)

/-- The offsets of ID, STATUS, ERRINFO, INTEN and CAP, served in every state (R67, R68). -/
def servedOffset (off : Nat) : Prop := off = 0x000 ∨ off = 0x008 ∨ off = 0x00C ∨ off = 0x010 ∨ off = 0x01C

/-- What a read of an always served offset returns: ID, STATUS, ERRINFO, INTEN, CAP (R27, R29, R31, R32, R34). -/
def servedValue (s : State) (off : Nat) : Word :=
  if off = 0x000 then 0x53434501
  else if off = 0x008 then State.statusWord s
  else if off = 0x00C then State.errinfoWord s
  else if off = 0x010 then State.intenWord s
  else BitVec.ofNat 32 s.params.bufBytes

/-! ## The hash -/

/-- The first 64 primes (R155). -/
def hashPrimes : List Nat :=
  [2, 3, 5, 7, 11, 13, 17, 19, 23, 29, 31, 37, 41, 43, 47, 53] ++
  [59, 61, 67, 71, 73, 79, 83, 89, 97, 101, 103, 107, 109, 113, 127, 131] ++
  [137, 139, 149, 151, 157, 163, 167, 173, 179, 181, 191, 193, 197, 199, 211, 223] ++
  [227, 229, 233, 239, 241, 251, 257, 263, 269, 271, 277, 281, 283, 293, 307, 311]

/-! ## Lists of commands -/

/-- The commands of the list performed one after the other, each as the engine performs it; nothing after one that
stops or faults (the fault state drops every command, R68, R99). -/
def execList : List Instr → State → Host.Outcome State Fault Refusal
  | [], s => .next s
  | i :: is, s =>
    match exec i s with
    | .next t => if t.err = true then .next t else execList is t
    | .fault r => .fault r
    | .refused r => .refused r

/-! ## Functional forms -/

/-- Every byte of a block through a table (R187). -/
def substituteBlock (t : Table) (b : Block) : Block := b.map fun v => t[v.toNat]

/-- Block `i` of the padded message of `n` bytes in `m` (R111, R260). -/
def paddedBlock (m : Memory) (n i : Nat) : Block :=
  Vector.ofFn fun j : Fin 16 =>
    if 16 * i + j.val < n then Memory.read m (16 * i + j.val) else if 16 * i + j.val = n then 0x80 else 0x00

/-- Block `i` of the message of `n` bytes in `m`, a short final block filled with zeros (R113, R263). -/
def chunkedBlock (m : Memory) (n i : Nat) : Block :=
  Vector.ofFn fun j : Fin 16 => if 16 * i + j.val < n then Memory.read m (16 * i + j.val) else 0x00

/-- `x^(r)`: a block through the rounds `0 .. r-1` of encryption (R260). -/
def encryptRounds (k : KeyMatrix) : Nat → Block → Block
  | 0, b => b
  | r + 1, b =>
    transpose (roundKey k r) (rotateForward (roundKey k r) (xor16 (encryptRounds k r b) (roundKey k r)))

/-- `z^(0)` from `z^(r)`: a block through the rounds `r-1` downto 0 of decryption (R263). -/
def decryptRounds (k : KeyMatrix) : Nat → Block → Block
  | 0, b => b
  | r + 1, b =>
    decryptRounds k r (xor16 (rotateReverse (roundKey k r) (reverseTranspose (roundKey k r) b)) (roundKey k r))

/-- The ciphertext block `c_i` of the padded message of `n` bytes in `m`, for the key `k` with `r` rounds (R260). -/
def cipherBlock (x : SboxDraw) (k : KeyMatrix) (r : Nat) (m : Memory) (n : Nat) : Nat → Block
  | 0 => xor16 (encryptRounds k r (substituteBlock (genSbox x k) (paddedBlock m n 0))) (roundKey k r)
  | i + 1 =>
    xor16 (encryptRounds k r (substituteBlock (genSbox x k) (paddedBlock m n (i + 1)))) (cipherBlock x k r m n i)

/-- The block before block `i` in the chain: the initial value, or block `i - 1` of the ciphertext (R242, R263). -/
def chainedBefore (k : KeyMatrix) (r : Nat) (m : Memory) (n : Nat) : Nat → Block
  | 0 => roundKey k r
  | i + 1 => chunkedBlock m n i

/-- The block `q_i` that decryption gives, before the padding is taken off (R263). -/
def plainBlock (x : SboxDraw) (k : KeyMatrix) (r : Nat) (m : Memory) (n i : Nat) : Block :=
  substituteBlock (invertTable (genSbox x k))
    (decryptRounds k r (xor16 (chunkedBlock m n i) (chainedBefore k r m n i)))

/-- Byte `a` of the decrypted, still padded message (R263). -/
def plainByte (x : SboxDraw) (k : KeyMatrix) (r : Nat) (m : Memory) (n a : Nat) : Byte :=
  (plainBlock x k r m n (a / 16))[a % 16]'(Nat.mod_lt _ (by decide))

/-- Byte `j` is the sentinel of a message of `n` bytes given by `f`: 0x80, with only zeros above it (R115). -/
def sentinelAt (f : Nat → Byte) (n j : Nat) : Prop := j < n ∧ f j = 0x80 ∧ ∀ a, j < a → a < n → f a = 0x00

end Sys2Proof.Machine
end

