-- ==== Sys2Proof/Certificates/Slice0/Obligations.lean ====
section
/-! DEFINITION. The statements about the SCE, each over the rules of spec/ its docstring names. In a next state written
as `{ s with … }` every element not named is unchanged: that is the frame of the statement. -/

open Sys2Proof Sys2Proof.Machine

/-! ## Encoding -/

/-- Decoding the word of a well-formed command gives it back (R90, R93, R94). -/
def Obligations.DecodeOfEncode : Prop :=
  ∀ i : Instr, i.wellFormed = true → decode (encode i) = .ok i

/-- A word that decodes is the word of R93 of what it decodes to, so each command has one word (R93, R94, R95). -/
def Obligations.DecodedWordIsItsEncoding : Prop :=
  ∀ (w : Word) (i : Instr), decode w = .ok i → i.wellFormed = true ∧ encode i = w

/-- The words that are ILLEGAL, exactly: the four tests of R94, on the bits of the word. -/
def Obligations.IllegalWordsExactly : Prop :=
  ∀ w : Word, (∃ e, decode w = .error e) ↔
    (w.extractLsb' 10 6 ≠ 0 ∨ w.extractLsb' 21 11 ≠ 0 ∨
      w.extractLsb' 0 8 ∉ ([0x00, 0x01, 0x10, 0x11, 0x12, 0x13, 0x14, 0x15, 0x20, 0x21, 0x22, 0x30, 0x40, 0x50, 0x60,
        0x70, 0x71, 0x72, 0x80, 0x81] : List (BitVec 8)) ∨
      (w.getLsbD 8 = true ∧ w.extractLsb' 0 8 ∉ ([0x22, 0x30, 0x40, 0x60] : List (BitVec 8))) ∨
      (w.getLsbD 9 = true ∧ w.extractLsb' 0 8 ≠ 0x80) ∨
      (w.extractLsb' 16 5 ≠ 0 ∧ w.extractLsb' 0 8 ≠ 0x14))

/-- One word of each family, written out from R93, decodes to its command. -/
def Obligations.SampleWordsDecode : Prop :=
  decode 0x00000001 = .ok .clr ∧ decode 0x00000010 = .ok .kgen ∧ decode 0x00050014 = .ok (.ksel 5) ∧
    decode 0x00000122 = .ok .subR ∧ decode 0x00000130 = .ok .rotR ∧ decode 0x00000040 = .ok .trnF ∧
    decode 0x00000050 = .ok .mix ∧ decode 0x00000160 = .ok .chnR ∧ decode 0x00000072 = .ok .unpad ∧
    decode 0x00000280 = .ok .encg ∧ decode 0x00000081 = .ok .dec

/-! ## The engine's step, fault entry, reset -/

/-- A step takes the next event off the list. The engine's turn with BUSY = 1 and a legal word in PEND is that
command's meaning; with BUSY = 0 nothing happens (R256). A transaction is the port's HostRead or HostWrite (R60, R69).
The list of events and the idle turn are the model's choice (log entries 1 and 11). -/
def Obligations.StepPerformsThePendingCommand : Prop :=
  ∀ s : State,
    ((s.events = [] ∨ ∃ es, s.events = .engine :: es) →
      (∀ i, s.busy = true → decode s.pend = .ok i → step s = exec i { s with events := s.events.tail }) ∧
      (s.busy = false → step s = .next { s with events := s.events.tail })) ∧
    (∀ width off es, s.events = .read width off :: es →
      step s = .next (State.hostRead { s with events := es } width off)) ∧
    (∀ width off v es, s.events = .write width off v :: es →
      step s = .next (State.hostWrite { s with events := es } width off v))

/-- An ILLEGAL word faults when the engine's step performs it (R294, R96), with the entry of R300: code 0x10, the low
byte of PEND, ERR set, BUSY cleared, the rest as it was. The empty list as the engine's turn (log entry 1), the data
state `d` and the count of faults (log entry 6) are the model's choice; what PEND becomes is left free by the bound
`p`. -/
def Obligations.IllegalWordFaults : Prop :=
  ∀ (s : State) (e : Illegal), (s.events = [] ∨ ∃ es, s.events = .engine :: es) → s.busy = true →
    decode s.pend = .error e →
    ∃ (d : Data) (p : Word), step s = .next { s with
      data := d, pend := p, events := s.events.tail, ecode := 0x10, eopc := s.pend.extractLsb' 0 8, err := true
      busy := false, faults := s.faults + 1 }

/-- Fault entry: the code of R290, the opcode byte of the pending word, ERR set, BUSY cleared, DONE and all the rest
but the data state as it was (R300). The data state behind it is the model's free value (log entry 6). -/
def Obligations.FaultEntryRecords : Prop :=
  ∀ (s : State) (k : FaultKind), ∃ d : Data, State.faultEntry s k = { s with
    data := d
    ecode := match k with
      | .invalidPadding => 0x04
      | .roundCountOutOfRange => 0x06
      | .illegalCommand => 0x10
      | .notReady => 0x11
      | .bufferOverflow => 0x12
      | .blockShape => 0x13
      | .keyIndexRange => 0x14
    eopc := s.pend.extractLsb' 0 8, err := true, busy := false, faults := s.faults + 1 }

/-- A command's step ends in completion (BUSY 0, DONE 1, ERR and ERRINFO as they were but for CLR) or in the fault
entry of some kind, in which nothing but the oracle's count can have changed before (R256, R300). The data state
behind a fault is the model's free value (log entry 6). -/
def Obligations.CommandsCompleteOrFault : Prop :=
  ∀ (s t : State) (i : Instr), exec i s = .next t →
    (t.busy = false ∧ t.done = true ∧ (i ≠ .clr → t.err = s.err ∧ t.ecode = s.ecode ∧ t.eopc = s.eopc)) ∨
    ∃ k : FaultKind, t = State.faultEntry { s with draws := t.draws } k

/-- The reset event puts every element of R20 at its reset value, in every state, and makes no draw (R330). That the
model's own fields are kept is its choice (log entry 15). -/
def Obligations.ResetEventZeroesEverything : Prop :=
  ∀ (s : State) (es : List Event), s.events = .reset :: es → ∃ t : State, step s = .next t ∧
    t = { data := { key := Vector.replicate 16 0, rk := Vector.replicate 16 0, r := 0,
                    rks := Vector.replicate 25 (Vector.replicate 16 0), sbox := Vector.replicate 256 0,
                    inv := Vector.replicate 256 0, buf := [], len := 0, kv := false, qv := false, sv := false,
                    nv := false },
          busy := false, done := false, err := false, bacc := false, ecode := 0, eopc := 0, ieDone := false,
          ieErr := false, pend := 0, params := s.params, events := es, response := s.response, draws := s.draws,
          faults := s.faults } ∧
    (∀ a, Memory.read t.data.buf a = 0x00) ∧ State.irq t = false

/-- Every step answers a next state: nothing in the SCE is stuck (93_implementation_defined.md, section 2; R256). That
an idle turn is a next state is the model's choice (log entry 11). -/
def Obligations.EveryStepAnswers : Prop := ∀ s : State, ∃ t, step s = .next t

/-- The invariant of `State.Inv` (R10, R25, R29, R30, R31, R38) is kept by every step. -/
def Obligations.StepKeepsTheInvariant : Prop := ∀ s t : State, s.Inv → step s = .next t → t.Inv

/-- The invariant holds after reset. The capacity in `State.reset` is the default of R10, the model's choice (log
entry 4). -/
def Obligations.ResetHasTheInvariant : Prop := State.reset.Inv

/-- What no command's meaning touches: the parameters, the events, the port's answer; BACC, the enables and PEND (but
for CLR); and the entropy oracle is called once by KGEN and ENCG, by no other command (R133, R255, R256, R266).
Counting the calls is the model's form of the oracle (log entry 5). -/
def Obligations.ControlFrameOfCommands : Prop :=
  ∀ (i : Instr) (s t : State), exec i s = .next t →
    t.params = s.params ∧ t.events = s.events ∧ t.response = s.response ∧ t.ieDone = s.ieDone ∧ t.ieErr = s.ieErr ∧
    t.busy = false ∧ (i ≠ .clr → t.bacc = s.bacc ∧ t.pend = s.pend) ∧
    t.draws = s.draws + (if i = .kgen ∨ i = .encg then 1 else 0)

/-- No command but CLR (which zeroises) and DEC (see `DecComputesThePlaintext`) writes BUF at or above the larger of
its old and new LEN, when it completes (R274). -/
def Obligations.CommandsWriteInsideTheMessage : Prop :=
  ∀ (i : Instr) (s t : State), i ≠ .clr → i ≠ .dec → s.params.legal → Memory.wf s.data.buf → exec i s = .next t →
    t.err = false → ∀ a, s.data.len.toNat ≤ a → t.data.len.toNat ≤ a →
      Memory.read t.data.buf a = Memory.read s.data.buf a

/-! ## Control commands -/

/-- NOP completes and changes nothing else (R265). -/
def Obligations.NopOnlyCompletes : Prop :=
  ∀ s : State, exec .nop s = .next { s with busy := false, done := true }

/-- CLR zeroises the engine in every state, keeps the interrupt enables, and completes (R266). The model's own fields
are kept (log entry 15). -/
def Obligations.ClrZeroises : Prop :=
  ∀ s : State, exec .clr s = .next
    { data := { key := Vector.replicate 16 0, rk := Vector.replicate 16 0, r := 0,
                rks := Vector.replicate 25 (Vector.replicate 16 0), sbox := Vector.replicate 256 0,
                inv := Vector.replicate 256 0, buf := [], len := 0, kv := false, qv := false, sv := false, nv := false },
      busy := false, done := true, err := false, bacc := false, ecode := 0, eopc := 0, ieDone := s.ieDone,
      ieErr := s.ieErr, pend := 0, params := s.params, events := s.events, response := s.response, draws := s.draws,
      faults := s.faults }

/-! ## Key generation and round count -/

/-- KGEN: the oracle's 16 bytes with byte 0 overwritten by its integer, the round count that integer, KV set, the
other valid flags cleared (R134). The oracle's answers are free values (log entry 5). -/
def Obligations.KgenLoadsTheDrawnKey : Prop :=
  ∀ s : State, exec .kgen s = .next { s with
    data := { s.data with
      key := (Config.entropy s.draws).bytes.set 0 (BitVec.ofNat 8 ((Config.entropy s.draws).count.val + 1))
      r := (Config.entropy s.draws).count.succ
      kv := true, qv := false, sv := false, nv := false }
    busy := false, done := true, draws := s.draws + 1 }

/-- After KGEN `1 <= R <= 24` and `R = KEY[0]`, so a later KSET on the unchanged key cannot fault (R135). -/
def Obligations.GeneratedKeyIsAlwaysAccepted : Prop :=
  ∀ s t : State, exec .kgen s = .next t →
    1 ≤ t.data.r.val ∧ t.data.r.val ≤ 24 ∧ t.data.r.val = t.data.key[0].toNat ∧
    ∀ u : State, u.data.key = t.data.key →
      ∃ v : State, exec .kset u = .next v ∧ v.err = u.err ∧ v.done = true ∧
        v.data = { u.data with r := t.data.r, kv := true }

/-- KSET: the round count is KEY[0] when that lies in 1..24; else RoundCountOutOfRange (R136). That the fault leaves
KV and R as they were is the model's choice, log entry 6: R136 has them "left 0", which they are when ERR = 0 and
`State.Inv` holds, and R301 leaves them unspecified. -/
def Obligations.KsetExtractsTheRoundCount : Prop :=
  ∀ s : State,
    (1 ≤ s.data.key[0].toNat → s.data.key[0].toNat ≤ 24 → exec .kset s = .next { s with
      data := { s.data with r := Fin.ofNat 25 s.data.key[0].toNat, kv := true }, busy := false, done := true }) ∧
    (s.data.key[0].toNat < 1 ∨ 24 < s.data.key[0].toNat →
      exec .kset s = .next (State.faultEntry s .roundCountOutOfRange) ∧
      (State.faultEntry s .roundCountOutOfRange).data.kv = s.data.kv ∧
      (State.faultEntry s .roundCountOutOfRange).data.r = s.data.r)

/-! ## Key schedule and its hash -/

/-- KDRV: `RKS[0] = KEY`, each next entry up to R the truncated hash of the one before it, zeros above R, QV set;
NotReady while KV = 0 (R160). -/
def Obligations.KdrvDerivesTheSequence : Prop :=
  ∀ s : State,
    (s.data.kv = true → ∃ v : Vector KeyMatrix 25,
      exec .kdrv s = .next { s with data := { s.data with rks := v, qv := true }, busy := false, done := true } ∧
      v[0] = s.data.key ∧
      (∀ (i : Nat) (h : i < 24), i + 1 ≤ s.data.r.val → v[i + 1] = h16 v[i]) ∧
      (∀ (i : Nat) (h : i < 25), s.data.r.val < i → v[i] = Vector.replicate 16 0x00)) ∧
    (s.data.kv = false → exec .kdrv s = .next (State.faultEntry s .notReady))

/-- KADV, KBASE and KSEL: RK becomes the first 16 bytes of the digest of RK; a copy of KEY; the selected entry of RKS.
KSEL faults NotReady while QV = 0, then KeyIndexRange above R (R151, R161, R162, R163). -/
def Obligations.RoundKeyCommandsSetRk : Prop :=
  ∀ s : State,
    (∃ k : KeyMatrix, exec .kadv s = .next { s with
        data := { s.data with rk := k }, busy := false, done := true } ∧
      ∀ (n : Nat) (h : n < 16), k[n] = (sha256 s.data.rk.toList)[n]) ∧
    exec .kbase s = .next { s with data := { s.data with rk := s.data.key }, busy := false, done := true } ∧
    ∀ idx : Nat,
      (∀ h : idx < 25, s.data.qv = true → idx ≤ s.data.r.val → exec (.ksel idx) s = .next { s with
        data := { s.data with rk := s.data.rks[idx] }, busy := false, done := true }) ∧
      (s.data.qv = false → exec (.ksel idx) s = .next (State.faultEntry s .notReady)) ∧
      (s.data.qv = true → s.data.r.val < idx → exec (.ksel idx) s = .next (State.faultEntry s .keyIndexRange))

/-- KDRV gives the same RKS for the same KEY and R, and KBASE with `i` times KADV gives the key KDRV puts in `RKS[i]`,
which is `K_i` (R164). -/
def Obligations.TwoWaysToTheSameRoundKey : Prop :=
  ∀ s : State, s.err = false → s.data.kv = true →
    ∃ u : State, exec .kdrv s = .next u ∧
      (∀ s' : State, s'.data.kv = true → s'.data.key = s.data.key → s'.data.r = s.data.r →
        ∃ w : State, exec .kdrv s' = .next w ∧ w.data.rks = u.data.rks) ∧
      ∀ (i : Nat) (h : i < 25), i ≤ s.data.r.val →
        ∃ t : State, execList (.kbase :: List.replicate i .kadv) s = .next t ∧
          t.data.rk = roundKey s.data.key i ∧ t.data.rk = u.data.rks[i]

/-- The 64-byte block of a message of at most 55 bytes: the message, 0x80, zeros, the bit length big-endian (R157). -/
def Obligations.HashBlockLayout : Prop :=
  ∀ m : List Byte, m.length ≤ 55 →
    (hashPad m).length = 64 ∧
    (∀ i, i < m.length → (hashPad m)[i]? = m[i]?) ∧
    (hashPad m)[m.length]? = some 0x80 ∧
    (∀ i, m.length < i → i < 56 → (hashPad m)[i]? = some 0x00) ∧
    (∀ j, j < 8 → (hashPad m)[56 + j]? = some (BitVec.ofNat 8 (8 * m.length / 256 ^ (7 - j))))

/-- The message schedule: 64 words, the first 16 the big-endian words of the block, each later one by the recurrence
of R158. -/
def Obligations.MessageScheduleRecurrence : Prop :=
  ∀ p : List Byte, (schedule p).length = 64 ∧
    (∀ t, t < 16 → (schedule p)[t]? = some (bigEndian p t)) ∧
    (∀ t, 16 ≤ t → t < 64 → (schedule p)[t]? = some
      (ssig1 ((schedule p).getD (t - 2) 0) + (schedule p).getD (t - 7) 0 + ssig0 ((schedule p).getD (t - 15) 0)
        + (schedule p).getD (t - 16) 0))

/-- The 64 rounds of the compression and the digest: the working words start as HI (R156), each round uses the
schedule word and the constant of its turn, the latter the first 32 fraction bits of the cube root of a prime (R155),
and the digest is HI plus the last working words, most significant byte first (R152, R154, R158). The two functions
of the schedule, whose recurrence is `MessageScheduleRecurrence`, are written out too (R154). -/
def Obligations.CompressionAndDigest : Prop :=
  (∀ x : Word, ssig0 x = x.rotateRight 7 ^^^ x.rotateRight 18 ^^^ (x >>> 3) ∧
    ssig1 x = x.rotateRight 17 ^^^ x.rotateRight 19 ^^^ (x >>> 10)) ∧
  ∀ m : List Byte, m.length ≤ 55 → ∃ V : Nat → HashWords,
    V 0 = { a := 0x6a09e667, b := 0xbb67ae85, c := 0x3c6ef372, d := 0xa54ff53a,
            e := 0x510e527f, f := 0x9b05688c, g := 0x1f83d9ab, h := 0x5be0cd19 } ∧
    (∀ t, t < 64 → ∃ (p root : Nat) (kc w t1 t2 : Word),
      hashPrimes[t]? = some p ∧ root ^ 3 ≤ p * 2 ^ 96 ∧ p * 2 ^ 96 < (root + 1) ^ 3 ∧ kc = BitVec.ofNat 32 root ∧
      (schedule (hashPad m))[t]? = some w ∧
      t1 = (V t).h + ((V t).e.rotateRight 6 ^^^ (V t).e.rotateRight 11 ^^^ (V t).e.rotateRight 25)
        + (((V t).e &&& (V t).f) ^^^ (~~~(V t).e &&& (V t).g)) + kc + w ∧
      t2 = ((V t).a.rotateRight 2 ^^^ (V t).a.rotateRight 13 ^^^ (V t).a.rotateRight 22)
        + (((V t).a &&& (V t).b) ^^^ ((V t).a &&& (V t).c) ^^^ ((V t).b &&& (V t).c)) ∧
      V (t + 1) = { a := t1 + t2, b := (V t).a, c := (V t).b, d := (V t).c,
                    e := (V t).d + t1, f := (V t).e, g := (V t).f, h := (V t).g }) ∧
    ∀ (j : Fin 8) (n : Fin 4) (x : Word),
      [0x6a09e667 + (V 64).a, 0xbb67ae85 + (V 64).b, 0x3c6ef372 + (V 64).c, 0xa54ff53a + (V 64).d,
        0x510e527f + (V 64).e, 0x9b05688c + (V 64).f, 0x1f83d9ab + (V 64).g, 0x5be0cd19 + (V 64).h][j.val]? = some x →
      (sha256 m)[4 * j.val + n.val] = x.extractLsb' (8 * (3 - n.val)) 8

/-! ## Substitution -/

/-- SGEN: from the identity table, for `i + 1` = 255 downto 1, entry `i + 1` is exchanged with the entry drawn for it
from SHA256(KEY), by the default draw of R183 or by the implementation's; SV set, NV cleared (R182, R183, R184). The
last table `A 0` is the `genSbox` of the other statements. Which SBOX_DRAW is a parameter, and the form of another one
is the model's choice (log entries 4 and 7). -/
def Obligations.SgenBuildsTheTableOfKey : Prop :=
  ∀ s : State, ∃ A : Nat → Table,
    exec .sgen s = .next { s with
      data := { s.data with sbox := A 0, sv := true, nv := false }, busy := false, done := true } ∧
    A 0 = genSbox s.params.sboxDraw s.data.key ∧
    (∀ v : Fin 256, (A 255)[v.val] = BitVec.ofNat 8 v.val) ∧
    ∀ (i : Nat) (hi : i < 255), ∃ (j : Nat) (hj : j ≤ i + 1) (h : Digest),
      h = sha256 ((sha256 s.data.key.toList).toList ++ [BitVec.ofNat 8 (i + 1)]) ∧
      (s.params.sboxDraw = .digestCounter → j = (h[0].toNat * 256 + h[1].toNat) % (i + 2)) ∧
      (∀ n, s.params.sboxDraw = .other n →
        j = Config.otherSboxDraw n (sha256 s.data.key.toList) (i + 1) % (i + 2)) ∧
      (A i)[i + 1] = (A (i + 1))[j] ∧ (A i)[j] = (A (i + 1))[i + 1] ∧
      ∀ (v : Nat) (hv : v < 256), v ≠ i + 1 → v ≠ j → (A i)[v] = (A (i + 1))[v]

/-- The shuffle gives a permutation for every function of draws into `0..i`, GENSBOX for every key and every
`SBOX_DRAW`, and INVERT of it is its inverse on both sides (R190). -/
def Obligations.GeneratedTableIsAPermutation : Prop :=
  (∀ draw : Nat → Nat, (∀ i, 1 ≤ i → i ≤ 255 → draw i ≤ i) →
    ∀ u v : Fin 256, (shuffle draw 255 identityTable)[u.val] = (shuffle draw 255 identityTable)[v.val] → u = v) ∧
  ∀ (x : SboxDraw) (k : KeyMatrix),
    (∀ u v : Fin 256, (genSbox x k)[u.val] = (genSbox x k)[v.val] → u = v) ∧
    ∀ v : Byte, (invertTable (genSbox x k))[(genSbox x k)[v.toNat].toNat] = v ∧
      (genSbox x k)[(invertTable (genSbox x k))[v.toNat].toNat] = v

/-- SINV: `INV[SBOX[i]] = i`, a later `i` overwriting an earlier one, zero where no `i` maps; NV set; NotReady while
SV = 0 (R185, R186). -/
def Obligations.SinvInvertsTheTable : Prop :=
  ∀ s : State,
    (s.data.sv = true → ∃ t : Table,
      exec .sinv s = .next { s with data := { s.data with inv := t, nv := true }, busy := false, done := true } ∧
      (∀ i : Fin 256, (∀ j : Fin 256, i < j → s.data.sbox[j.val] ≠ s.data.sbox[i.val]) →
        t[s.data.sbox[i.val].toNat] = BitVec.ofNat 8 i.val) ∧
      (∀ v : Byte, (∀ i : Fin 256, s.data.sbox[i.val] ≠ v) → t[v.toNat] = 0x00)) ∧
    (s.data.sv = false → exec .sinv s = .next (State.faultEntry s .notReady))

/-- SUB.F and SUB.R complete on a whole number of blocks within the capacity when their table is valid: every message
byte is replaced by its entry in SBOX or INV, no other byte changes (R187, R188, R189). -/
def Obligations.SubstitutionReplacesMessageBytes : Prop :=
  ∀ s : State, Memory.wf s.data.buf → s.data.len.toNat ≤ s.params.bufBytes → s.data.len.toNat % 16 = 0 →
    (s.data.sv = true → ∃ m : Memory, exec .subF s = .next { s with
        data := { s.data with buf := m }, busy := false, done := true } ∧ Memory.wf m ∧
      ∀ a, Memory.read m a =
        if a < s.data.len.toNat then s.data.sbox[(Memory.read s.data.buf a).toNat] else Memory.read s.data.buf a) ∧
    (s.data.nv = true → ∃ m : Memory, exec .subR s = .next { s with
        data := { s.data with buf := m }, busy := false, done := true } ∧ Memory.wf m ∧
      ∀ a, Memory.read m a =
        if a < s.data.len.toNat then s.data.inv[(Memory.read s.data.buf a).toNat] else Memory.read s.data.buf a)

/-- SUB.F and SUB.R fault in the order NotReady, BufferOverflow, BlockShape (R188, R189, R307). -/
def Obligations.SubstitutionFaultsInOrder : Prop :=
  ∀ (s : State) (i : Instr) (flag : Bool), (i = .subF ∧ flag = s.data.sv ∨ i = .subR ∧ flag = s.data.nv) →
    (flag = false → exec i s = .next (State.faultEntry s .notReady)) ∧
    (flag = true → s.params.bufBytes < s.data.len.toNat →
      exec i s = .next (State.faultEntry s .bufferOverflow)) ∧
    (flag = true → s.data.len.toNat ≤ s.params.bufBytes → s.data.len.toNat % 16 ≠ 0 →
      exec i s = .next (State.faultEntry s .blockShape))

/-- With SV = NV = 1, SUB.F followed by SUB.R, or SUB.R followed by SUB.F, restores the data state (R191). -/
def Obligations.SubstitutionRoundTrip : Prop :=
  ∀ s : State, s.Inv → s.err = false → s.data.sv = true → s.data.nv = true →
    s.data.len.toNat ≤ s.params.bufBytes → s.data.len.toNat % 16 = 0 →
    (∃ t u : State, exec .subF s = .next t ∧ exec .subR t = .next u ∧ u.err = false ∧ u.data = s.data) ∧
    (∃ t u : State, exec .subR s = .next t ∧ exec .subF t = .next u ∧ u.err = false ∧ u.data = s.data)

/-! ## Diffusion, transposition, mixing, chaining -/

/-- ROT.F and ROT.R complete on a whole number of blocks within the capacity: each message byte is rotated left or
right by the shift of its row of RK, no other byte changes (R200, R201, R202, R203, R204). -/
def Obligations.DiffusionRotatesMessageBytes : Prop :=
  ∀ s : State, Memory.wf s.data.buf → s.data.len.toNat ≤ s.params.bufBytes → s.data.len.toNat % 16 = 0 →
    (∃ m : Memory, exec .rotF s = .next { s with
        data := { s.data with buf := m }, busy := false, done := true } ∧ Memory.wf m ∧
      (∀ i : Nat, i < s.data.len.toNat / 16 → ∀ r c : Fin 4, ∀ x : Nat,
        x = (s.data.rk[4 * r.val].toNat + s.data.rk[4 * r.val + 1].toNat + s.data.rk[4 * r.val + 2].toNat
          + s.data.rk[4 * r.val + 3].toNat) % 8 →
        Memory.read m (16 * i + 4 * r.val + c.val) =
          (Memory.read s.data.buf (16 * i + 4 * r.val + c.val)).rotateLeft x) ∧
      ∀ a, s.data.len.toNat ≤ a → Memory.read m a = Memory.read s.data.buf a) ∧
    (∃ m : Memory, exec .rotR s = .next { s with
        data := { s.data with buf := m }, busy := false, done := true } ∧ Memory.wf m ∧
      (∀ i : Nat, i < s.data.len.toNat / 16 → ∀ r c : Fin 4, ∀ x : Nat,
        x = (s.data.rk[4 * r.val].toNat + s.data.rk[4 * r.val + 1].toNat + s.data.rk[4 * r.val + 2].toNat
          + s.data.rk[4 * r.val + 3].toNat) % 8 →
        Memory.read m (16 * i + 4 * r.val + c.val) =
          (Memory.read s.data.buf (16 * i + 4 * r.val + c.val)).rotateRight x) ∧
      ∀ a, s.data.len.toNat ≤ a → Memory.read m a = Memory.read s.data.buf a)

/-- Rotating left then right by `s`, or right then left, is the identity for `s` in 0..7; a rotation right is one left
by the complement; ROT.F and ROT.R undo each other in both orders (R205). -/
def Obligations.RotationInvolution : Prop :=
  (∀ (v : Byte) (n : Nat), n ≤ 7 → rotr8 (rotl8 v n) n = v ∧ rotl8 (rotr8 v n) n = v ∧
    rotr8 v n = rotl8 v ((8 - n) % 8)) ∧
  ∀ s : State, Memory.wf s.data.buf → s.data.len.toNat ≤ s.params.bufBytes → s.data.len.toNat % 16 = 0 →
    (∃ t u : State, exec .rotF s = .next t ∧ exec .rotR t = .next u ∧ u.err = s.err ∧ u.data = s.data) ∧
    (∃ t u : State, exec .rotR s = .next t ∧ exec .rotF t = .next u ∧ u.err = s.err ∧ u.data = s.data)

/-- `PERM(k)` is the stable argsort of the first row: the indices in ascending order of the pair (byte, index), each
index at its rank, every index once (R215). -/
def Obligations.PermIsTheStableArgsort : Prop :=
  ∀ k : KeyMatrix,
    (∀ m n : Fin 4, m < n →
      k[(perm k m).val].toNat < k[(perm k n).val].toNat ∨
      k[(perm k m).val].toNat = k[(perm k n).val].toNat ∧ perm k m < perm k n) ∧
    (∀ i n : Fin 4,
      n.val = ((List.finRange 4).filter fun j => k[j.val].toNat < k[i.val].toNat).length
        + ((List.finRange 4).filter fun j => j < i ∧ k[j.val].toNat = k[i.val].toNat).length →
      perm k n = i) ∧
    Function.Bijective (perm k)

/-- TRN.F and TRN.R complete on a whole number of blocks within the capacity: for `p = PERM(RK)`, TRN.F moves the cell
of row `r`, column `c` of each block to row `p[r]`, column `p[c]`, TRN.R moves it back; no other byte changes (R216,
R217, R218). -/
def Obligations.TranspositionMovesMessageBytes : Prop :=
  ∀ s : State, Memory.wf s.data.buf → s.data.len.toNat ≤ s.params.bufBytes → s.data.len.toNat % 16 = 0 →
    (∃ m : Memory, exec .trnF s = .next { s with
        data := { s.data with buf := m }, busy := false, done := true } ∧ Memory.wf m ∧
      (∀ i : Nat, i < s.data.len.toNat / 16 → ∀ r c : Fin 4,
        Memory.read m (16 * i + 4 * (perm s.data.rk r).val + (perm s.data.rk c).val) =
          Memory.read s.data.buf (16 * i + 4 * r.val + c.val)) ∧
      ∀ a, s.data.len.toNat ≤ a → Memory.read m a = Memory.read s.data.buf a) ∧
    (∃ m : Memory, exec .trnR s = .next { s with
        data := { s.data with buf := m }, busy := false, done := true } ∧ Memory.wf m ∧
      (∀ i : Nat, i < s.data.len.toNat / 16 → ∀ r c : Fin 4,
        Memory.read m (16 * i + 4 * r.val + c.val) =
          Memory.read s.data.buf (16 * i + 4 * (perm s.data.rk r).val + (perm s.data.rk c).val)) ∧
      ∀ a, s.data.len.toNat ≤ a → Memory.read m a = Memory.read s.data.buf a)

/-- Scatter and gather undo each other in both orders, as functions and as commands; in general TRN.F is not its own
inverse, as for `p = [1,2,3,0]` (R219). -/
def Obligations.TransposeInvolution : Prop :=
  (∀ k b : Block, reverseTranspose k (transpose k b) = b ∧ transpose k (reverseTranspose k b) = b) ∧
  (∀ s : State, Memory.wf s.data.buf → s.data.len.toNat ≤ s.params.bufBytes → s.data.len.toNat % 16 = 0 →
    (∃ t u : State, exec .trnF s = .next t ∧ exec .trnR t = .next u ∧ u.err = s.err ∧ u.data = s.data) ∧
    (∃ t u : State, exec .trnR s = .next t ∧ exec .trnF t = .next u ∧ u.err = s.err ∧ u.data = s.data)) ∧
  ∀ k : KeyMatrix, [perm k 0, perm k 1, perm k 2, perm k 3] = [1, 2, 3, 0] →
    (∀ b, transpose k (transpose k (transpose k (transpose k b))) = b) ∧ ∃ b, transpose k (transpose k b) ≠ b

/-- MIX completes on a whole number of blocks within the capacity: byte `n` of every block is XORed with byte `n` of
RK, no other byte changes (R230, R231). -/
def Obligations.MixXorsTheRoundKey : Prop :=
  ∀ s : State, Memory.wf s.data.buf → s.data.len.toNat ≤ s.params.bufBytes → s.data.len.toNat % 16 = 0 →
    ∃ m : Memory, exec .mix s = .next { s with data := { s.data with buf := m }, busy := false, done := true } ∧
      Memory.wf m ∧
      (∀ i n : Nat, i < s.data.len.toNat / 16 → ∀ h : n < 16,
        Memory.read m (16 * i + n) = Memory.read s.data.buf (16 * i + n) ^^^ s.data.rk[n]) ∧
      ∀ a, s.data.len.toNat ≤ a → Memory.read m a = Memory.read s.data.buf a

/-- XOR with a key twice is the identity; MIX twice restores every block (R232). -/
def Obligations.MixTwiceRestores : Prop :=
  (∀ b k : Block, xor16 (xor16 b k) k = b) ∧
  ∀ s : State, Memory.wf s.data.buf → s.data.len.toNat ≤ s.params.bufBytes → s.data.len.toNat % 16 = 0 →
    ∃ t u : State, exec .mix s = .next t ∧ exec .mix t = .next u ∧ u.err = s.err ∧ u.data = s.data

/-- CHN.F and CHN.R complete on a whole number of blocks within the capacity: the first block is XORed with RK, each
later block with the OUTPUT block before it (CHN.F) or the INPUT block before it (CHN.R); no other byte changes (R240,
R241, R242). -/
def Obligations.ChainingXorsThePreviousBlock : Prop :=
  ∀ s : State, Memory.wf s.data.buf → s.data.len.toNat ≤ s.params.bufBytes → s.data.len.toNat % 16 = 0 →
    (∃ m : Memory, exec .chnF s = .next { s with
        data := { s.data with buf := m }, busy := false, done := true } ∧ Memory.wf m ∧
      (∀ n : Nat, ∀ h : n < 16, n < s.data.len.toNat →
        Memory.read m n = Memory.read s.data.buf n ^^^ s.data.rk[n]) ∧
      (∀ a : Nat, 16 ≤ a → a < s.data.len.toNat →
        Memory.read m a = Memory.read s.data.buf a ^^^ Memory.read m (a - 16)) ∧
      ∀ a, s.data.len.toNat ≤ a → Memory.read m a = Memory.read s.data.buf a) ∧
    (∃ m : Memory, exec .chnR s = .next { s with
        data := { s.data with buf := m }, busy := false, done := true } ∧ Memory.wf m ∧
      (∀ n : Nat, ∀ h : n < 16, n < s.data.len.toNat →
        Memory.read m n = Memory.read s.data.buf n ^^^ s.data.rk[n]) ∧
      (∀ a : Nat, 16 ≤ a → a < s.data.len.toNat →
        Memory.read m a = Memory.read s.data.buf a ^^^ Memory.read s.data.buf (a - 16)) ∧
      ∀ a, s.data.len.toNat ≤ a → Memory.read m a = Memory.read s.data.buf a)

/-- With RK unchanged CHN.F followed by CHN.R, or CHN.R followed by CHN.F, restores every block, also of the empty
message (R243). -/
def Obligations.ChainingInvolution : Prop :=
  ∀ s : State, Memory.wf s.data.buf → s.data.len.toNat ≤ s.params.bufBytes → s.data.len.toNat % 16 = 0 →
    (∃ t u : State, exec .chnF s = .next t ∧ exec .chnR t = .next u ∧ u.err = s.err ∧ u.data = s.data) ∧
    (∃ t u : State, exec .chnR s = .next t ∧ exec .chnF t = .next u ∧ u.err = s.err ∧ u.data = s.data)

/-- The block commands that need no flag fault BufferOverflow, then BlockShape (R296, R297, R307). -/
def Obligations.BlockCommandsFaultInOrder : Prop :=
  ∀ (s : State) (i : Instr), i ∈ ([.rotF, .rotR, .trnF, .trnR, .mix, .chnF, .chnR, .unpad] : List Instr) →
    (s.params.bufBytes < s.data.len.toNat → exec i s = .next (State.faultEntry s .bufferOverflow)) ∧
    (s.data.len.toNat ≤ s.params.bufBytes → s.data.len.toNat % 16 ≠ 0 →
      exec i s = .next (State.faultEntry s .blockShape))

/-! ## Block codec -/

/-- PAD: the sentinel at LEN, zeros up to the next multiple of 16, LEN that multiple, no other byte changed;
BufferOverflow when LEN exceeds BUF_BYTES - 1 (R111). -/
def Obligations.PadAppendsTheSentinel : Prop :=
  ∀ s : State, s.params.legal → Memory.wf s.data.buf →
    (s.data.len.toNat ≤ s.params.bufBytes - 1 → ∃ (m : Memory) (l : Word), exec .pad s = .next { s with
        data := { s.data with buf := m, len := l }, busy := false, done := true } ∧ Memory.wf m ∧
      l.toNat = 16 * (s.data.len.toNat / 16 + 1) ∧ l.toNat ≤ s.params.bufBytes ∧
      ∀ a, Memory.read m a =
        if a = s.data.len.toNat then 0x80
        else if s.data.len.toNat < a ∧ a < l.toNat then 0x00 else Memory.read s.data.buf a) ∧
    (s.params.bufBytes - 1 < s.data.len.toNat → exec .pad s = .next (State.faultEntry s .bufferOverflow))

/-- CHUNK: zeros from LEN up to the next multiple of 16, LEN that multiple, no other byte changed, nothing at all for
an aligned LEN; BufferOverflow when LEN exceeds BUF_BYTES (R113). -/
def Obligations.ChunkFillsTheLastBlock : Prop :=
  ∀ s : State, s.params.legal → Memory.wf s.data.buf →
    (s.data.len.toNat ≤ s.params.bufBytes → ∃ (m : Memory) (l : Word), exec .chunk s = .next { s with
        data := { s.data with buf := m, len := l }, busy := false, done := true } ∧ Memory.wf m ∧
      l.toNat = 16 * ((s.data.len.toNat + 15) / 16) ∧ l.toNat ≤ s.params.bufBytes ∧
      (∀ a, Memory.read m a = if s.data.len.toNat ≤ a ∧ a < l.toNat then 0x00 else Memory.read s.data.buf a) ∧
      (s.data.len.toNat % 16 = 0 → m = s.data.buf ∧ l = s.data.len)) ∧
    (s.params.bufBytes < s.data.len.toNat → exec .chunk s = .next (State.faultEntry s .bufferOverflow))

/-- UNPAD on a whole number of blocks within the capacity: LEN becomes the place of the last 0x80 when only zeros
stand above it, BUF keeps every byte; without such a byte InvalidPadding (R115). -/
def Obligations.UnpadFindsTheSentinel : Prop :=
  ∀ s : State, s.data.len.toNat ≤ s.params.bufBytes → s.data.len.toNat % 16 = 0 →
    (∀ j, sentinelAt (Memory.read s.data.buf) s.data.len.toNat j → exec .unpad s = .next { s with
      data := { s.data with len := BitVec.ofNat 32 j }, busy := false, done := true }) ∧
    ((∀ j, ¬ sentinelAt (Memory.read s.data.buf) s.data.len.toNat j) →
      exec .unpad s = .next (State.faultEntry s .invalidPadding))

/-- PAD followed by UNPAD completes without a fault, restores LEN and leaves the message unchanged (R116). -/
def Obligations.PaddingRoundTrip : Prop :=
  ∀ s : State, s.params.legal → Memory.wf s.data.buf → s.err = false →
    s.data.len.toNat ≤ s.params.bufBytes - 1 →
    ∃ t u : State, exec .pad s = .next t ∧ t.err = false ∧ exec .unpad t = .next u ∧ u.err = false ∧
      u.data.len = s.data.len ∧ ∀ a, a < s.data.len.toNat → Memory.read u.data.buf a = Memory.read s.data.buf a

/-! ## The macro commands -/

/-- ENC, for a key with a legal round count and a message that leaves room for its padding, completes with the
ciphertext of R260 in BUF and the end state of R258. -/
def Obligations.EncComputesTheCiphertext : Prop :=
  ∀ s : State, s.params.legal → Memory.wf s.data.buf → 1 ≤ s.data.key[0].toNat → s.data.key[0].toNat ≤ 24 →
    s.data.len.toNat ≤ s.params.bufBytes - 1 →
    ∃ (m : Memory) (l : Word), exec .enc s = .next { s with
        data := { s.data with
          r := Fin.ofNat 25 s.data.key[0].toNat, kv := true
          rk := roundKey s.data.key s.data.key[0].toNat
          sbox := genSbox s.params.sboxDraw s.data.key, sv := true, nv := false
          buf := m, len := l }
        busy := false, done := true } ∧ Memory.wf m ∧
      l.toNat = 16 * (s.data.len.toNat / 16 + 1) ∧
      (∀ i, i < s.data.len.toNat / 16 + 1 → Memory.block m i =
        cipherBlock s.params.sboxDraw s.data.key s.data.key[0].toNat s.data.buf s.data.len.toNat i) ∧
      ∀ a, l.toNat ≤ a → Memory.read m a = Memory.read s.data.buf a

/-- ENCG, for every old key and every message that leaves room for its padding, completes: the key and round count
KGEN would load from the oracle, the ciphertext of R260 under them, QV cleared, the rest as ENC ends (R259). The
oracle's answers are free values (log entry 5). -/
def Obligations.EncgEncryptsUnderTheDrawnKey : Prop :=
  ∀ (s : State) (k : KeyMatrix) (r : Fin 25), s.params.legal → Memory.wf s.data.buf →
    k = (Config.entropy s.draws).bytes.set 0 (BitVec.ofNat 8 ((Config.entropy s.draws).count.val + 1)) →
    r.val = (Config.entropy s.draws).count.val + 1 →
    s.data.len.toNat ≤ s.params.bufBytes - 1 →
    ∃ (m : Memory) (l : Word), exec .encg s = .next { s with
        data := { s.data with
          key := k, r := r, kv := true, qv := false
          rk := roundKey k r.val
          sbox := genSbox s.params.sboxDraw k, sv := true, nv := false
          buf := m, len := l }
        busy := false, done := true, draws := s.draws + 1 } ∧ Memory.wf m ∧
      l.toNat = 16 * (s.data.len.toNat / 16 + 1) ∧
      (∀ i, i < s.data.len.toNat / 16 + 1 → Memory.block m i =
        cipherBlock s.params.sboxDraw k r.val s.data.buf s.data.len.toNat i) ∧
      ∀ a, l.toNat ≤ a → Memory.read m a = Memory.read s.data.buf a

/-- DEC, for a key with a legal round count and a ciphertext that fits: when the plaintext of R263 holds a sentinel,
it completes with that plaintext in BUF, its length in LEN and the end state of R262; else InvalidPadding. That a
short final block is filled in BUF above the old LEN, against the words of R274, is the model's reading, log
entry 13. -/
def Obligations.DecComputesThePlaintext : Prop :=
  ∀ s : State, s.params.legal → Memory.wf s.data.buf → 1 ≤ s.data.key[0].toNat → s.data.key[0].toNat ≤ 24 →
    s.data.len.toNat ≤ s.params.bufBytes →
    (∀ j, sentinelAt (plainByte s.params.sboxDraw s.data.key s.data.key[0].toNat s.data.buf s.data.len.toNat)
        (16 * ((s.data.len.toNat + 15) / 16)) j →
      ∃ m : Memory, exec .dec s = .next { s with
          data := { key := s.data.key, rk := s.data.key, r := Fin.ofNat 25 s.data.key[0].toNat
                    rks := keySequence s.data.key (Fin.ofNat 25 s.data.key[0].toNat)
                    sbox := genSbox s.params.sboxDraw s.data.key
                    inv := invertTable (genSbox s.params.sboxDraw s.data.key)
                    buf := m, len := BitVec.ofNat 32 j, kv := true, qv := true, sv := true, nv := true }
          busy := false, done := true } ∧ Memory.wf m ∧
        ∀ a, Memory.read m a = if a < 16 * ((s.data.len.toNat + 15) / 16)
          then plainByte s.params.sboxDraw s.data.key s.data.key[0].toNat s.data.buf s.data.len.toNat a
          else Memory.read s.data.buf a) ∧
    ((∀ j, ¬ sentinelAt (plainByte s.params.sboxDraw s.data.key s.data.key[0].toNat s.data.buf s.data.len.toNat)
        (16 * ((s.data.len.toNat + 15) / 16)) j) →
      exec .dec s = .next (State.faultEntry s .invalidPadding))

/-- ENC and DEC fault RoundCountOutOfRange first, then BufferOverflow. ENCG checks no round count: it faults
BufferOverflow alone, after its key has been drawn (R258, R259, R262, R307). -/
def Obligations.MacroCommandsFaultInOrder : Prop :=
  ∀ s : State,
    (s.data.key[0].toNat < 1 ∨ 24 < s.data.key[0].toNat →
      exec .enc s = .next (State.faultEntry s .roundCountOutOfRange) ∧
      exec .dec s = .next (State.faultEntry s .roundCountOutOfRange)) ∧
    (1 ≤ s.data.key[0].toNat → s.data.key[0].toNat ≤ 24 →
      (s.params.bufBytes - 1 < s.data.len.toNat → exec .enc s = .next (State.faultEntry s .bufferOverflow)) ∧
      (s.params.bufBytes < s.data.len.toNat → exec .dec s = .next (State.faultEntry s .bufferOverflow))) ∧
    (s.params.bufBytes - 1 < s.data.len.toNat →
      exec .encg s = .next (State.faultEntry { s with draws := s.draws + 1 } .bufferOverflow))

/-- ENC or ENCG followed by DEC, with the key and the ciphertext unchanged in between or reloaded, completes without a
fault and restores LEN and the message bytes (R264). -/
def Obligations.EncryptDecryptRoundTrip : Prop :=
  ∀ (s : State) (c : Instr),
    (c = .enc ∧ 1 ≤ s.data.key[0].toNat ∧ s.data.key[0].toNat ≤ 24 ∨ c = .encg) →
    s.params.legal → Memory.wf s.data.buf → s.err = false → s.data.len.toNat ≤ s.params.bufBytes - 1 →
    ∃ t : State, exec c s = .next t ∧ t.err = false ∧ Memory.wf t.data.buf ∧
      ∀ t' : State, t'.params = t.params → t'.data.key = t.data.key → t'.data.len = t.data.len →
        Memory.wf t'.data.buf → t'.err = false →
        (∀ a, a < t.data.len.toNat → Memory.read t'.data.buf a = Memory.read t.data.buf a) →
        ∃ u : State, exec .dec t' = .next u ∧ u.err = false ∧ u.data.len = s.data.len ∧
          ∀ a, a < s.data.len.toNat → Memory.read u.data.buf a = Memory.read s.data.buf a

/-! ## The host port -/

/-- An access of another width, or to an offset that is misaligned or unmapped, answers ERROR and changes nothing
else, in every state of the engine (R63, R65). The data of a read's ERROR is 0 (R60); the data 0 beside the ERROR of a
write is the model's choice, log entry 3. -/
def Obligations.BadAccessesChangeNothing : Prop :=
  ∀ (s : State) (width off : Nat) (v : Word), s.params.legal → (width ≠ 32 ∨ ¬ mappedOffset s.params.bufBytes off) →
    State.hostRead s width off = { s with response := some ⟨.error, 0⟩ } ∧
    State.hostWrite s width off v = { s with response := some ⟨.error, 0⟩ }

/-- The port while BUSY = 1: the five served registers read normally, every other read answers OK with data 0 and sets
BACC, every write answers OK, is dropped and sets BACC (R67). The data 0 beside the OK of a write is the model's choice, log
entry 3. -/
def Obligations.BusyPortShieldsTheEngine : Prop :=
  ∀ (s : State) (off : Nat) (v : Word), s.params.legal → s.busy = true → mappedOffset s.params.bufBytes off →
    (servedOffset off →
      State.hostRead s 32 off = { s with response := some ⟨.ok, servedValue s off⟩ }) ∧
    (¬ servedOffset off → State.hostRead s 32 off = { s with bacc := true, response := some ⟨.ok, 0⟩ }) ∧
    State.hostWrite s 32 off v = { s with bacc := true, response := some ⟨.ok, 0⟩ }

/-- The port in the fault state: the five served registers read normally, every other read answers OK with data 0;
STATUS and INTEN are written normally, CMD accepts exactly the word of CLR (DONE is 0 in every fault state a run
reaches, `State.Inv`), every other write is dropped (R68). The data 0 beside the OK of a write is the model's choice,
log entry 3. -/
def Obligations.FaultStatePortGates : Prop :=
  ∀ (s : State) (off : Nat) (v : Word), s.params.legal → s.err = true → s.busy = false →
    mappedOffset s.params.bufBytes off →
    (servedOffset off → State.hostRead s 32 off = { s with response := some ⟨.ok, servedValue s off⟩ }) ∧
    (¬ servedOffset off → State.hostRead s 32 off = { s with response := some ⟨.ok, 0⟩ }) ∧
    (off = 0x008 → State.hostWrite s 32 off v = { s with
      done := s.done && !v.getLsbD 1, bacc := s.bacc && !v.getLsbD 3, response := some ⟨.ok, 0⟩ }) ∧
    (off = 0x010 → State.hostWrite s 32 off v = { s with
      ieDone := v.getLsbD 0, ieErr := v.getLsbD 1, response := some ⟨.ok, 0⟩ }) ∧
    (off = 0x004 → v = 0x00000001 → s.done = false → State.hostWrite s 32 off v = { s with
      pend := 0x00000001, busy := true, response := some ⟨.ok, 0⟩ }) ∧
    (off = 0x004 → v ≠ 0x00000001 → State.hostWrite s 32 off v = { s with response := some ⟨.ok, 0⟩ }) ∧
    (off ≠ 0x004 → off ≠ 0x008 → off ≠ 0x010 →
      State.hostWrite s 32 off v = { s with response := some ⟨.ok, 0⟩ })

/-- Writes in the idle, fault-free state: CMD accepts any word (R28); STATUS clears DONE by bit 1 and BACC by bit 3
(R29); INTEN stores bits 0 and 1 (R32); KEY words land in their lanes and clear R and the valid flags (R22); RK words
land in their lanes (R23); LEN (R33) and BUF (R38) store; the read-only registers ignore (R66). Lane `n` of the word
is the byte at the lower index plus `n` (R62). The data 0 beside the OK is the model's choice, log entry 3. -/
def Obligations.IdleWritesLandInTheirLanes : Prop :=
  ∀ (s : State) (v : Word), s.params.legal → s.busy = false → s.err = false →
    State.hostWrite s 32 0x004 v = { s with pend := v, busy := true, done := false, response := some ⟨.ok, 0⟩ } ∧
    State.hostWrite s 32 0x008 v = { s with
      done := s.done && !v.getLsbD 1, bacc := s.bacc && !v.getLsbD 3, response := some ⟨.ok, 0⟩ } ∧
    State.hostWrite s 32 0x010 v = { s with
      ieDone := v.getLsbD 0, ieErr := v.getLsbD 1, response := some ⟨.ok, 0⟩ } ∧
    State.hostWrite s 32 0x018 v = { s with data := { s.data with len := v }, response := some ⟨.ok, 0⟩ } ∧
    (∀ w : Fin 4, ∃ k : KeyMatrix, State.hostWrite s 32 (0x020 + 4 * w.val) v = { s with
        data := { s.data with key := k, kv := false, qv := false, sv := false, nv := false, r := 0 }
        response := some ⟨.ok, 0⟩ } ∧
      ∀ (n : Nat) (h : n < 16), k[n] = if n / 4 = w.val then v.extractLsb' (8 * (n % 4)) 8 else s.data.key[n]) ∧
    (∀ w : Fin 4, ∃ k : KeyMatrix, State.hostWrite s 32 (0x030 + 4 * w.val) v = { s with
        data := { s.data with rk := k }, response := some ⟨.ok, 0⟩ } ∧
      ∀ (n : Nat) (h : n < 16), k[n] = if n / 4 = w.val then v.extractLsb' (8 * (n % 4)) 8 else s.data.rk[n]) ∧
    (∀ n : Nat, 4 * n + 4 ≤ s.params.bufBytes → Memory.wf s.data.buf → ∃ m : Memory,
      State.hostWrite s 32 (0x1000 + 4 * n) v = { s with
        data := { s.data with buf := m }, response := some ⟨.ok, 0⟩ } ∧ Memory.wf m ∧
      ∀ a, Memory.read m a = if a / 4 = n then v.extractLsb' (8 * (a % 4)) 8 else Memory.read s.data.buf a) ∧
    (∀ off, mappedOffset s.params.bufBytes off →
      (off = 0x000 ∨ off = 0x00C ∨ off = 0x014 ∨ off = 0x01C ∨ 0x100 ≤ off ∧ off < 0x1000) →
      State.hostWrite s 32 off v = { s with response := some ⟨.ok, 0⟩ })

/-- Reads in the idle, fault-free state show the state: ID, STATUS, ERRINFO, INTEN and CAP (R27, R29, R31, R32, R34),
ROUNDS, LEN, KEY, RK, BUF, and the three table windows, which read 0 while their valid flag is 0; CMD reads 0 (R22,
R23, R25, R28, R33, R35, R36, R37, R38, R62). -/
def Obligations.IdleReadsShowTheState : Prop :=
  ∀ s : State, s.params.legal → s.busy = false → s.err = false →
    (∀ off, servedOffset off → State.hostRead s 32 off = { s with response := some ⟨.ok, servedValue s off⟩ }) ∧
    State.hostRead s 32 0x004 = { s with response := some ⟨.ok, 0⟩ } ∧
    State.hostRead s 32 0x014 = { s with response := some ⟨.ok, BitVec.ofNat 32 s.data.r.val⟩ } ∧
    State.hostRead s 32 0x018 = { s with response := some ⟨.ok, s.data.len⟩ } ∧
    (∀ w : Fin 4,
      State.hostRead s 32 (0x020 + 4 * w.val) = { s with response := some ⟨.ok,
        s.data.key[4 * w.val + 3] ++ s.data.key[4 * w.val + 2] ++ s.data.key[4 * w.val + 1]
          ++ s.data.key[4 * w.val]⟩ } ∧
      State.hostRead s 32 (0x030 + 4 * w.val) = { s with response := some ⟨.ok,
        s.data.rk[4 * w.val + 3] ++ s.data.rk[4 * w.val + 2] ++ s.data.rk[4 * w.val + 1]
          ++ s.data.rk[4 * w.val]⟩ }) ∧
    (∀ n : Fin 64,
      State.hostRead s 32 (0x100 + 4 * n.val) = { s with response := some ⟨.ok, if s.data.sv = true then
        s.data.sbox[4 * n.val + 3] ++ s.data.sbox[4 * n.val + 2] ++ s.data.sbox[4 * n.val + 1]
          ++ s.data.sbox[4 * n.val] else 0⟩ } ∧
      State.hostRead s 32 (0x200 + 4 * n.val) = { s with response := some ⟨.ok, if s.data.nv = true then
        s.data.inv[4 * n.val + 3] ++ s.data.inv[4 * n.val + 2] ++ s.data.inv[4 * n.val + 1]
          ++ s.data.inv[4 * n.val] else 0⟩ }) ∧
    (∀ (i : Fin 25) (w : Fin 4),
      State.hostRead s 32 (0x400 + 16 * i.val + 4 * w.val) = { s with response := some ⟨.ok,
        if s.data.qv = true then s.data.rks[i.val][4 * w.val + 3] ++ s.data.rks[i.val][4 * w.val + 2]
          ++ s.data.rks[i.val][4 * w.val + 1] ++ s.data.rks[i.val][4 * w.val] else 0⟩ }) ∧
    (∀ n : Nat, 4 * n + 4 ≤ s.params.bufBytes →
      State.hostRead s 32 (0x1000 + 4 * n) = { s with response := some ⟨.ok,
        Memory.read s.data.buf (4 * n + 3) ++ Memory.read s.data.buf (4 * n + 2)
          ++ Memory.read s.data.buf (4 * n + 1) ++ Memory.read s.data.buf (4 * n)⟩ })

/-- The bits of STATUS, ERRINFO and INTEN, the flags hidden while ERR = 1, and the interrupt level (R29, R31, R32,
R301, R305). -/
def Obligations.StatusBitsAndInterrupt : Prop :=
  ∀ (s : State) (i : Nat), i < 32 →
    (State.statusWord s).getLsbD i =
      (if i = 0 then s.busy else if i = 1 then s.done else if i = 2 then s.err else if i = 3 then s.bacc
        else if i = 8 then s.data.kv && !s.err else if i = 9 then s.data.qv && !s.err
        else if i = 10 then s.data.sv && !s.err else if i = 11 then s.data.nv && !s.err else false) ∧
    (State.errinfoWord s).getLsbD i =
      (if i < 8 then s.ecode.getLsbD i else if i < 16 then s.eopc.getLsbD (i - 8) else false) ∧
    (State.intenWord s).getLsbD i = (if i = 0 then s.ieDone else if i = 1 then s.ieErr else false) ∧
    State.irq s = ((s.done && s.ieDone) || (s.err && s.ieErr))

/-- What the host reads after reset, for every legal capacity: ID and CAP their constants, every other mapped offset
0, every other offset ERROR (R332). -/
def Obligations.ReadsAfterReset : Prop :=
  ∀ (p : Params) (off : Nat), p.legal →
    (mappedOffset p.bufBytes off → (State.hostRead { State.reset with params := p } 32 off).response =
      some ⟨.ok, if off = 0x000 then 0x53434501 else if off = 0x01C then BitVec.ofNat 32 p.bufBytes else 0⟩) ∧
    (¬ mappedOffset p.bufBytes off →
      (State.hostRead { State.reset with params := p } 32 off).response = some ⟨.error, 0⟩)

/-! ## The fault state and progress -/

/-- In the fault state a step keeps ERR and ERRINFO, or is the reset event, which leaves everything zero, or is the
engine performing CLR, which leaves everything zero but DONE and the interrupt enables (R302, R303). -/
def Obligations.FaultStateIsLeftByClrOrReset : Prop :=
  ∀ s t : State, s.Inv → s.err = true → step s = .next t →
    (t.err = true ∧ t.ecode = s.ecode ∧ t.eopc = s.eopc) ∨
    (s.events.head? = some .reset ∧ t.data = Data.zero ∧ t.err = false ∧ t.done = false ∧ t.busy = false ∧
      t.bacc = false ∧ t.ecode = 0 ∧ t.eopc = 0 ∧ t.pend = 0 ∧ t.ieDone = false ∧ t.ieErr = false) ∨
    (s.busy = true ∧ s.pend = 0x00000001 ∧ t.data = Data.zero ∧ t.err = false ∧ t.done = true ∧ t.busy = false ∧
      t.bacc = false ∧ t.ecode = 0 ∧ t.eopc = 0 ∧ t.pend = 0 ∧ t.ieDone = s.ieDone ∧ t.ieErr = s.ieErr)

/-- The data state behind a fault cannot be observed: two fault states that differ in it alone give the same answers,
status, error information and interrupt at every step, still differ in it alone while ERR stays 1, and are equal once
ERR is 0 (R301). -/
def Obligations.HiddenStateIsUnobservable : Prop :=
  ∀ (s t t' : State) (d : Data), s.Inv → s.err = true → step s = .next t → step { s with data := d } = .next t' →
    t'.response = t.response ∧ State.statusWord t' = State.statusWord t ∧
    State.errinfoWord t' = State.errinfoWord t ∧ State.irq t' = State.irq t ∧
    (t.err = true → t' = { t with data := d }) ∧ (t.err = false → t' = t)

/-- A pending command is reached: whatever host transactions come first, after them nothing but BACC and the port's
answer has changed (R67, R70); and when the engine's turn comes next, that step performs the word in PEND (R256,
R345). The schedule as a list of events, whose end gives the engine its turn, is the model's form (log entry 1). -/
def Obligations.PendingCommandIsReached : Prop :=
  ∀ (s : State) (hs rest : List Event), s.busy = true → s.events = hs ++ rest →
    (∀ e ∈ hs, (∃ w o, e = .read w o) ∨ ∃ w o v, e = .write w o v) →
    ∃ u : State, Sys2Proof.core.run hs.length s = .next u ∧
      (∃ (b : Bool) (x : Option Response), u = { s with events := rest, bacc := b, response := x }) ∧
      ((rest = [] ∨ ∃ es, rest = .engine :: es) →
        (∀ i, decode s.pend = .ok i → step u = exec i { u with events := rest.tail }) ∧
        ∀ e, decode s.pend = .error e →
          step u = .next (State.faultEntry { u with events := rest.tail } .illegalCommand))
end

