-- ==== Sys2Proof/Laws/Memory.lean ====
section
/-! SUPPORT. What the operations of BUF do: what a read gives after each of them, and that each keeps the canonical
form (`Memory.wf`) and the capacity (`Memory.within`). -/

namespace Sys2Proof.Machine

@[simp] theorem Memory.read_nil (a : Nat) : Memory.read [] a = 0 := rfl

theorem Memory.read_cons (c : Host.Cell) (m : Memory) (a : Nat) :
    Memory.read (c :: m) a = if c.1 = a then c.2 else Memory.read m a := rfl

theorem Memory.mem_entry {a : Nat} {b : Byte} {c : Host.Cell} (h : c ∈ Memory.entry a b) :
    c = (a, b) ∧ b ≠ Memory.unlisted := by
  unfold Memory.entry at h
  split at h
  · cases h
  · exact ⟨List.mem_singleton.mp h, ‹_›⟩

theorem Memory.read_entry (a : Nat) (b : Byte) (a' : Nat) :
    Memory.read (Memory.entry a b) a' = if a = a' then b else 0 := by
  unfold Memory.entry
  split
  · next h => subst h; simp [Memory.unlisted]
  · simp [Memory.read_cons]

theorem Memory.read_entry_append (a : Nat) (b : Byte) (m : Memory) (a' : Nat) (h : a = a' → Memory.read m a' = 0) :
    Memory.read (Memory.entry a b ++ m) a' = if a = a' then b else Memory.read m a' := by
  unfold Memory.entry
  split
  · next hb =>
    subst hb
    by_cases ha : a = a'
    · simp [ha, h ha, Memory.unlisted]
    · simp [ha]
  · simp [Memory.read_cons]

/-- A byte below every listed index is unlisted. -/
theorem Memory.read_eq_zero_of_lt {m : Memory} {a : Nat} (h : ∀ c ∈ m, a < c.1) : Memory.read m a = 0 := by
  induction m with
  | nil => rfl
  | cons c m ih =>
    have hc := h c (List.mem_cons_self ..)
    rw [Memory.read_cons, if_neg (by omega)]
    exact ih fun d hd => h d (List.mem_cons_of_mem _ hd)

theorem Memory.wf_tail {c : Host.Cell} {m : Memory} (h : Memory.wf (c :: m)) : Memory.wf m :=
  ⟨(List.pairwise_cons.mp h.1).2, fun d hd => h.2 d (List.mem_cons_of_mem _ hd)⟩

theorem Memory.wf_head_lt {c : Host.Cell} {m : Memory} (h : Memory.wf (c :: m)) : ∀ d ∈ m, c.1 < d.1 :=
  (List.pairwise_cons.mp h.1).1

/-- Reading after a write: the written byte, and every other byte as before. -/
theorem Memory.read_write {m : Memory} (h : Memory.wf m) (a : Nat) (b : Byte) (a' : Nat) :
    Memory.read (Memory.write m a b) a' = if a = a' then b else Memory.read m a' := by
  induction m with
  | nil => simpa [Memory.write] using Memory.read_entry a b a'
  | cons c m ih =>
    have hlt := Memory.wf_head_lt h
    unfold Memory.write
    split
    · next hac =>
      refine Memory.read_entry_append a b _ a' fun haa => ?_
      subst haa
      exact Memory.read_eq_zero_of_lt fun d hd => by
        rcases List.mem_cons.mp hd with rfl | hd
        · exact hac
        · exact hac.trans (hlt d hd)
    · split
      · next hac =>
        rw [Memory.read_entry_append a b m a' fun haa => ?_, Memory.read_cons]
        · subst hac
          by_cases haa : c.1 = a' <;> simp [haa]
        · subst haa hac
          exact Memory.read_eq_zero_of_lt hlt
      · next hge hne =>
        rw [Memory.read_cons, ih (Memory.wf_tail h), Memory.read_cons]
        by_cases haa : a = a'
        · subst haa
          rw [if_neg fun hc => hne hc.symm, if_pos rfl, if_pos rfl]
        · simp [haa]

theorem Memory.mem_write {m : Memory} {a : Nat} {b : Byte} {c : Host.Cell} (h : c ∈ Memory.write m a b) :
    c ∈ m ∨ c = (a, b) ∧ b ≠ Memory.unlisted := by
  induction m with
  | nil => exact .inr (Memory.mem_entry h)
  | cons d m ih =>
    unfold Memory.write at h
    split at h
    · rcases List.mem_append.mp h with h | h
      · exact .inr (Memory.mem_entry h)
      · exact .inl h
    · split at h
      · rcases List.mem_append.mp h with h | h
        · exact .inr (Memory.mem_entry h)
        · exact .inl (List.mem_cons_of_mem _ h)
      · rcases List.mem_cons.mp h with rfl | h
        · exact .inl (List.mem_cons_self ..)
        · rcases ih h with h | h
          · exact .inl (List.mem_cons_of_mem _ h)
          · exact .inr h

theorem Memory.wf_entry_append {m : Memory} (h : Memory.wf m) {a : Nat} (b : Byte) (hlt : ∀ c ∈ m, a < c.1) :
    Memory.wf (Memory.entry a b ++ m) := by
  unfold Memory.entry
  split
  · exact h
  · next hb =>
    refine ⟨List.pairwise_cons.mpr ⟨hlt, h.1⟩, fun c hc => ?_⟩
    rcases List.mem_cons.mp hc with rfl | hc
    · exact hb
    · exact h.2 c hc

/-- A write keeps the canonical form. -/
theorem Memory.wf_write {m : Memory} (h : Memory.wf m) (a : Nat) (b : Byte) : Memory.wf (Memory.write m a b) := by
  induction m with
  | nil => simpa [Memory.write] using Memory.wf_entry_append (m := []) ⟨List.Pairwise.nil, by simp⟩ b (by simp)
  | cons c m ih =>
    have hlt := Memory.wf_head_lt h
    unfold Memory.write
    split
    · next hac =>
      refine Memory.wf_entry_append h b fun d hd => ?_
      rcases List.mem_cons.mp hd with rfl | hd
      · exact hac
      · exact hac.trans (hlt d hd)
    · split
      · next hac => exact Memory.wf_entry_append (Memory.wf_tail h) b (hac ▸ hlt)
      · next hge hne =>
        have ht := ih (Memory.wf_tail h)
        refine ⟨List.pairwise_cons.mpr ⟨fun d hd => ?_, ht.1⟩, fun d hd => ?_⟩
        · rcases Memory.mem_write hd with hd | ⟨rfl, -⟩
          · exact hlt d hd
          · exact Nat.lt_of_le_of_ne (Nat.le_of_not_lt hge) (Ne.symm hne)
        · rcases List.mem_cons.mp hd with rfl | hd
          · exact h.2 _ (List.mem_cons_self ..)
          · exact ht.2 d hd

/-- A write below the capacity keeps the memory within it. -/
theorem Memory.within_write {m : Memory} {n a : Nat} (h : Memory.within m n) (ha : a < n) (b : Byte) :
    Memory.within (Memory.write m a b) n := fun c hc => by
  rcases Memory.mem_write hc with hc | ⟨rfl, -⟩
  · exact h c hc
  · exact ha

theorem Memory.wf_nil : Memory.wf [] := ⟨List.Pairwise.nil, by simp⟩

/-- A listed byte reads as itself, which is not what an unlisted byte reads as. -/
theorem Memory.read_of_mem {m : Memory} (h : Memory.wf m) {c : Host.Cell} (hc : c ∈ m) :
    Memory.read m c.1 = c.2 := by
  induction m with
  | nil => cases hc
  | cons d m ih =>
    rw [Memory.read_cons]
    rcases List.mem_cons.mp hc with rfl | hc
    · rw [if_pos rfl]
    · rw [if_neg (by have := Memory.wf_head_lt h c hc; omega)]
      exact ih (Memory.wf_tail h) hc

/-- Two canonical memories that read alike are equal. -/
theorem Memory.ext_of_read {m m' : Memory} (h : Memory.wf m) (h' : Memory.wf m')
    (heq : ∀ a, Memory.read m a = Memory.read m' a) : m = m' := by
  induction m generalizing m' with
  | nil =>
    cases m' with
    | nil => rfl
    | cons d m' =>
      have := heq d.1
      rw [Memory.read_of_mem h' (List.mem_cons_self ..), Memory.read_nil] at this
      exact absurd this.symm (h'.2 d (List.mem_cons_self ..))
  | cons c m ih =>
    cases m' with
    | nil =>
      have := heq c.1
      rw [Memory.read_of_mem h (List.mem_cons_self ..), Memory.read_nil] at this
      exact absurd this (h.2 c (List.mem_cons_self ..))
    | cons d m' =>
      have hc := Memory.read_of_mem h (List.mem_cons_self ..)
      have hd := Memory.read_of_mem h' (List.mem_cons_self ..)
      have hcn := h.2 c (List.mem_cons_self ..)
      have hdn := h'.2 d (List.mem_cons_self ..)
      have hcd : c.1 = d.1 := by
        rcases Nat.lt_trichotomy c.1 d.1 with hlt | he | hlt
        · have := heq c.1
          rw [hc, Memory.read_eq_zero_of_lt fun e he => ?_] at this
          · exact absurd this hcn
          · rcases List.mem_cons.mp he with rfl | he
            · exact hlt
            · exact hlt.trans (Memory.wf_head_lt h' e he)
        · exact he
        · have := heq d.1
          rw [hd, Memory.read_eq_zero_of_lt fun e he => ?_] at this
          · exact absurd this.symm hdn
          · rcases List.mem_cons.mp he with rfl | he
            · exact hlt
            · exact hlt.trans (Memory.wf_head_lt h e he)
      have hval : c.2 = d.2 := by rw [← hc, ← hd, heq c.1, hcd]
      have hcell : c = d := Prod.ext hcd hval
      subst hcell
      congr 1
      refine ih (Memory.wf_tail h) (Memory.wf_tail h') fun a => ?_
      by_cases ha : c.1 = a
      · subst ha
        rw [Memory.read_eq_zero_of_lt (Memory.wf_head_lt h), Memory.read_eq_zero_of_lt (Memory.wf_head_lt h')]
      · simpa [Memory.read_cons, ha] using heq a

/-! ## Runs of bytes -/

theorem Memory.wf_writeBytes {m : Memory} (h : Memory.wf m) (a : Nat) (v : List Byte) :
    Memory.wf (Memory.writeBytes m a v) := by
  induction v generalizing m a with
  | nil => exact h
  | cons b v ih => exact ih (Memory.wf_write h a b) (a + 1)

theorem Memory.within_writeBytes {m : Memory} {n a : Nat} (h : Memory.within m n) (v : List Byte)
    (ha : a + v.length ≤ n) : Memory.within (Memory.writeBytes m a v) n := by
  induction v generalizing m a with
  | nil => exact h
  | cons b v ih =>
    rw [List.length_cons] at ha
    exact ih (Memory.within_write h (by omega) b) (by omega)

/-- Reading after `MemWrite(a, length v, v)`. -/
theorem Memory.read_writeBytes {m : Memory} (h : Memory.wf m) (a : Nat) (v : List Byte) (a' : Nat) :
    Memory.read (Memory.writeBytes m a v) a' =
      if a ≤ a' ∧ a' < a + v.length then v.getD (a' - a) 0 else Memory.read m a' := by
  induction v generalizing m a with
  | nil =>
    rw [if_neg (by simp)]
    rfl
  | cons b v ih =>
    show Memory.read (Memory.writeBytes (Memory.write m a b) (a + 1) v) a' = _
    rw [ih (Memory.wf_write h a b), Memory.read_write h, List.length_cons]
    by_cases h1 : a = a'
    · subst h1
      rw [if_neg (by omega), if_pos rfl, if_pos (by omega)]
      simp
    · by_cases h2 : a + 1 ≤ a' ∧ a' < a + 1 + v.length
      · rw [if_pos h2, if_pos (by omega)]
        obtain ⟨k, rfl⟩ := Nat.exists_eq_add_of_le h2.1
        rw [show a + 1 + k - (a + 1) = k by omega, show a + 1 + k - a = k + 1 by omega, List.getD_cons_succ]
      · rw [if_neg h2, if_neg h1, if_neg (by omega)]

theorem Memory.wf_fillZero {m : Memory} (h : Memory.wf m) (a n : Nat) : Memory.wf (Memory.fillZero m a n) := by
  induction n generalizing m a with
  | zero => exact h
  | succ n ih => exact ih (Memory.wf_write h a 0) (a + 1)

theorem Memory.within_fillZero {m : Memory} {k a n : Nat} (h : Memory.within m k) (ha : a + n ≤ k) :
    Memory.within (Memory.fillZero m a n) k := by
  induction n generalizing m a with
  | zero => exact h
  | succ n ih => exact ih (Memory.within_write h (by omega) 0) (by omega)

/-- Reading after `n` zero bytes from `a` up. -/
theorem Memory.read_fillZero {m : Memory} (h : Memory.wf m) (a n a' : Nat) :
    Memory.read (Memory.fillZero m a n) a' = if a ≤ a' ∧ a' < a + n then 0 else Memory.read m a' := by
  induction n generalizing m a with
  | zero => rw [if_neg (by omega)]; rfl
  | succ n ih =>
    show Memory.read (Memory.fillZero (Memory.write m a 0) (a + 1) n) a' = _
    rw [ih (Memory.wf_write h a 0), Memory.read_write h]
    by_cases h1 : a = a'
    · rw [if_neg (by omega), if_pos h1, if_pos (by omega)]
    · by_cases h2 : a + 1 ≤ a' ∧ a' < a + 1 + n
      · rw [if_pos h2, if_pos (by omega)]
      · rw [if_neg h2, if_neg h1, if_neg (by omega)]

/-! ## Bytes and blocks of the message -/

/-- `for a = 0 to n - 1: BUF[a] <- f BUF[a]`: the form is kept, the bytes below `n` are mapped, the others kept. -/
theorem Memory.mapBytes_spec {m : Memory} (h : Memory.wf m) (f : Byte → Byte) (n : Nat) :
    Memory.wf (Memory.mapBytes f n m) ∧ ∀ a, Memory.read (Memory.mapBytes f n m) a =
      if a < n then f (Memory.read m a) else Memory.read m a := by
  induction n with
  | zero => exact ⟨h, fun a => by rw [if_neg (by omega)]; rfl⟩
  | succ n ih =>
    refine ⟨Memory.wf_write ih.1 n _, fun a => ?_⟩
    show Memory.read (Memory.write (Memory.mapBytes f n m) n (f (Memory.read (Memory.mapBytes f n m) n))) a = _
    rw [Memory.read_write ih.1, ih.2 n, ih.2 a, if_neg (Nat.lt_irrefl n)]
    by_cases h1 : n = a
    · subst h1; rw [if_pos rfl, if_pos (by omega)]
    · by_cases h2 : a < n
      · rw [if_neg h1, if_pos h2, if_pos (by omega)]
      · rw [if_neg h1, if_neg h2, if_neg (by omega)]

theorem Memory.within_mapBytes {m : Memory} {k n : Nat} (h : Memory.within m k) (f : Byte → Byte) (hn : n ≤ k) :
    Memory.within (Memory.mapBytes f n m) k := by
  induction n with
  | zero => exact h
  | succ n ih => exact Memory.within_write (ih (by omega)) (by omega) _

@[simp] theorem Memory.block_getElem (m : Memory) (i j : Nat) (hj : j < 16) :
    (Memory.block m i)[j] = Memory.read m (16 * i + j) := by simp [Memory.block]

theorem Memory.wf_setBlock {m : Memory} (h : Memory.wf m) (i : Nat) (v : Block) :
    Memory.wf (Memory.setBlock m i v) := Memory.wf_writeBytes h _ _

theorem Memory.within_setBlock {m : Memory} {k i : Nat} (h : Memory.within m k) (v : Block)
    (hi : 16 * (i + 1) ≤ k) : Memory.within (Memory.setBlock m i v) k :=
  Memory.within_writeBytes h _ (by rw [Vector.length_toList]; omega)

/-- Reading after `BLK(i) <- v`, byte by byte. -/
theorem Memory.read_setBlock {m : Memory} (h : Memory.wf m) (i : Nat) (v : Block) (a : Nat) :
    Memory.read (Memory.setBlock m i v) a = if a / 16 = i then v[a % 16] else Memory.read m a := by
  unfold Memory.setBlock
  rw [Memory.read_writeBytes h, Vector.length_toList]
  by_cases ha : a / 16 = i
  · subst ha
    rw [if_pos (by omega), if_pos rfl, show a - 16 * (a / 16) = a % 16 by omega,
      List.getD_eq_getElem _ _ (by rw [Vector.length_toList]; omega), Vector.getElem_toList]
  · rw [if_neg (by omega), if_neg ha]

/-- A block after `BLK(i) <- v`. -/
theorem Memory.block_setBlock {m : Memory} (h : Memory.wf m) (i : Nat) (v : Block) (j : Nat) :
    Memory.block (Memory.setBlock m i v) j = if j = i then v else Memory.block m j := by
  refine Vector.ext fun n hn => ?_
  rw [Memory.block_getElem, Memory.read_setBlock h]
  by_cases hj : j = i
  · subst hj
    rw [if_pos (by omega), if_pos rfl]
    congr 1
    omega
  · rw [if_neg (by omega), if_neg hj, Memory.block_getElem]

/-- `for i = 0 to n - 1: BLK(i) <- f BLK(i)`: the form is kept, the blocks below `n` are mapped, the others kept. -/
theorem Memory.mapBlocks_spec {m : Memory} (h : Memory.wf m) (f : Block → Block) (n : Nat) :
    Memory.wf (Memory.mapBlocks f n m) ∧ ∀ i, Memory.block (Memory.mapBlocks f n m) i =
      if i < n then f (Memory.block m i) else Memory.block m i := by
  induction n with
  | zero => exact ⟨h, fun a => by rw [if_neg (by omega)]; rfl⟩
  | succ n ih =>
    refine ⟨Memory.wf_setBlock ih.1 n _, fun i => ?_⟩
    show Memory.block (Memory.setBlock (Memory.mapBlocks f n m) n (f (Memory.block (Memory.mapBlocks f n m) n))) i = _
    rw [Memory.block_setBlock ih.1, ih.2 n, ih.2 i, if_neg (Nat.lt_irrefl n)]
    by_cases h1 : i = n
    · subst h1; rw [if_pos rfl, if_pos (by omega)]
    · by_cases h2 : i < n
      · rw [if_neg h1, if_pos h2, if_pos (by omega)]
      · rw [if_neg h1, if_neg h2, if_neg (by omega)]

theorem Memory.within_mapBlocks {m : Memory} {k n : Nat} (h : Memory.within m k) (f : Block → Block)
    (hn : 16 * n ≤ k) : Memory.within (Memory.mapBlocks f n m) k := by
  induction n with
  | zero => exact h
  | succ n ih => exact Memory.within_setBlock (ih (by omega)) _ hn

/-- A byte is an entry of its block. -/
theorem Memory.read_eq_block (m : Memory) (a : Nat) :
    Memory.read m a = (Memory.block m (a / 16))[a % 16]'(Nat.mod_lt _ (by decide)) := by
  rw [Memory.block_getElem]
  congr 1
  omega

/-- `mapBlocks` byte by byte. -/
theorem Memory.read_mapBlocks {m : Memory} (h : Memory.wf m) (f : Block → Block) (n a : Nat) :
    Memory.read (Memory.mapBlocks f n m) a =
      if a / 16 < n then (f (Memory.block m (a / 16)))[a % 16]'(Nat.mod_lt _ (by decide)) else Memory.read m a := by
  rw [Memory.read_eq_block, Memory.read_eq_block m a]
  split
  · next ha => simp only [(Memory.mapBlocks_spec h f n).2, if_pos ha]
  · next ha => simp only [(Memory.mapBlocks_spec h f n).2, if_neg ha]

/-! ## The buffer given by a function -/

theorem Memory.mem_ofFn {n : Nat} {f : Nat → Byte} {c : Host.Cell} (h : c ∈ Memory.ofFn n f) :
    c.1 < n ∧ c.2 ≠ Memory.unlisted := by
  obtain ⟨a, ha, hc⟩ := List.mem_flatMap.mp h
  obtain ⟨rfl, hb⟩ := Memory.mem_entry hc
  exact ⟨List.mem_range.mp ha, hb⟩

theorem Memory.within_ofFn (n : Nat) (f : Nat → Byte) : Memory.within (Memory.ofFn n f) n :=
  fun _ hc => (Memory.mem_ofFn hc).1

theorem Memory.wf_ofFn (n : Nat) (f : Nat → Byte) : Memory.wf (Memory.ofFn n f) := by
  refine ⟨?_, fun c hc => (Memory.mem_ofFn hc).2⟩
  induction n with
  | zero => exact List.Pairwise.nil
  | succ n ih =>
    rw [Memory.ofFn, List.range_succ, List.flatMap_append]
    refine List.pairwise_append.mpr ⟨ih, ?_, fun c hc d hd => ?_⟩
    · simp only [List.flatMap_cons, List.flatMap_nil, List.append_nil, Memory.entry]
      split
      · exact List.Pairwise.nil
      · exact List.pairwise_singleton _ _
    · simp only [List.flatMap_cons, List.flatMap_nil, List.append_nil] at hd
      obtain ⟨rfl, -⟩ := Memory.mem_entry hd
      exact (Memory.mem_ofFn (n := n) (f := f) hc).1

end Sys2Proof.Machine
end

