-- ==== Sys2Proof/Laws/Chaining.lean ====
section
/-! SUPPORT. What the block functions and the chaining loops do, byte by byte and block by block. -/

namespace Sys2Proof.Machine

@[simp] theorem xor16_getElem (b k : Block) (n : Nat) (h : n < 16) : (xor16 b k)[n] = b[n] ^^^ k[n] := by
  simp [xor16]

@[simp] theorem rotateForward_getElem (k : KeyMatrix) (b : Block) (n : Nat) (h : n < 16) :
    (rotateForward k b)[n] = rotl8 b[n] (rowShift k (rowOf ⟨n, h⟩)) := by
  simp [rotateForward]

@[simp] theorem rotateReverse_getElem (k : KeyMatrix) (b : Block) (n : Nat) (h : n < 16) :
    (rotateReverse k b)[n] = rotr8 b[n] (rowShift k (rowOf ⟨n, h⟩)) := by
  simp [rotateReverse]

theorem rowShift_lt (k : KeyMatrix) (r : Fin 4) : rowShift k r < 8 := Nat.mod_lt _ (by decide)

/-- The loop of CHN.F: the form is kept, block `i < n` is XORed with the NEW block before it (or the initial
value), the others are kept, and `prev` is the last new block. -/
theorem chainForward_spec (iv : Block) {m : Memory} (h : Memory.wf m) (n : Nat) :
    Memory.wf (chainForward iv n m).1 ∧
    (∀ i, n ≤ i → Memory.block (chainForward iv n m).1 i = Memory.block m i) ∧
    (∀ i, i < n → Memory.block (chainForward iv n m).1 i =
      xor16 (Memory.block m i) (if i = 0 then iv else Memory.block (chainForward iv n m).1 (i - 1))) ∧
    (chainForward iv n m).2 = if n = 0 then iv else Memory.block (chainForward iv n m).1 (n - 1) := by
  induction n with
  | zero => exact ⟨h, fun _ _ => rfl, fun i hi => absurd hi (Nat.not_lt_zero i), rfl⟩
  | succ n ih =>
    obtain ⟨hwf, habove, hbelow, hprev⟩ := ih
    have hmem : (chainForward iv (n + 1) m).1 = Memory.setBlock (chainForward iv n m).1 n
        (xor16 (Memory.block (chainForward iv n m).1 n) (chainForward iv n m).2) := rfl
    have hblk : ∀ i, Memory.block (chainForward iv (n + 1) m).1 i =
        if i = n then xor16 (Memory.block m n) (chainForward iv n m).2
        else Memory.block (chainForward iv n m).1 i := fun i => by
      rw [hmem, Memory.block_setBlock hwf, habove n (Nat.le_refl n)]
    refine ⟨hmem ▸ Memory.wf_setBlock hwf _ _, fun i hi => ?_, fun i hi => ?_, ?_⟩
    · rw [hblk, if_neg (by omega), habove i (by omega)]
    · by_cases hin : i = n
      · subst hin
        rw [hblk, if_pos rfl, hprev]
        by_cases h0 : i = 0
        · simp [h0]
        · rw [if_neg h0, if_neg h0, hblk, if_neg (by omega)]
      · rw [hblk, if_neg hin, hbelow i (by omega)]
        by_cases h0 : i = 0
        · simp [h0]
        · rw [if_neg h0, if_neg h0, hblk, if_neg (by omega)]
    · rw [if_neg (by omega), Nat.add_sub_cancel, hblk, if_pos rfl]
      show xor16 (Memory.block (chainForward iv n m).1 n) (chainForward iv n m).2 = _
      rw [habove n (Nat.le_refl n)]

/-- The loop of CHN.R: the form is kept, block `i < n` is XORed with the OLD block before it (or the initial
value), the others are kept. -/
theorem chainReverse_spec (iv : Block) {m : Memory} (h : Memory.wf m) (n : Nat) :
    Memory.wf (chainReverse iv n m).1 ∧
    (∀ i, n ≤ i → Memory.block (chainReverse iv n m).1 i = Memory.block m i) ∧
    (∀ i, i < n → Memory.block (chainReverse iv n m).1 i =
      xor16 (Memory.block m i) (if i = 0 then iv else Memory.block m (i - 1))) ∧
    (chainReverse iv n m).2 = if n = 0 then iv else Memory.block m (n - 1) := by
  induction n with
  | zero => exact ⟨h, fun _ _ => rfl, fun i hi => absurd hi (Nat.not_lt_zero i), rfl⟩
  | succ n ih =>
    obtain ⟨hwf, habove, hbelow, hprev⟩ := ih
    have hmem : (chainReverse iv (n + 1) m).1 = Memory.setBlock (chainReverse iv n m).1 n
        (xor16 (Memory.block (chainReverse iv n m).1 n) (chainReverse iv n m).2) := rfl
    have hblk : ∀ i, Memory.block (chainReverse iv (n + 1) m).1 i =
        if i = n then xor16 (Memory.block m n) (chainReverse iv n m).2
        else Memory.block (chainReverse iv n m).1 i := fun i => by
      rw [hmem, Memory.block_setBlock hwf, habove n (Nat.le_refl n)]
    refine ⟨hmem ▸ Memory.wf_setBlock hwf _ _, fun i hi => ?_, fun i hi => ?_, ?_⟩
    · rw [hblk, if_neg (by omega), habove i (by omega)]
    · by_cases hin : i = n
      · subst hin
        rw [hblk, if_pos rfl, hprev]
      · rw [hblk, if_neg hin, hbelow i (by omega)]
    · rw [if_neg (by omega), Nat.add_sub_cancel]
      exact habove n (Nat.le_refl n)

theorem within_chainForward (iv : Block) {m : Memory} {k : Nat} (h : Memory.within m k) (n : Nat)
    (hn : 16 * n ≤ k) : Memory.within (chainForward iv n m).1 k := by
  induction n with
  | zero => exact h
  | succ n ih => exact Memory.within_setBlock (ih (by omega)) _ hn

theorem within_chainReverse (iv : Block) {m : Memory} {k : Nat} (h : Memory.within m k) (n : Nat)
    (hn : 16 * n ≤ k) : Memory.within (chainReverse iv n m).1 k := by
  induction n with
  | zero => exact h
  | succ n ih => exact Memory.within_setBlock (ih (by omega)) _ hn

end Sys2Proof.Machine
end

