-- ==== Sys2Proof/Laws/Codec.lean ====
section
/-! SUPPORT. What PAD leaves in BUF, and where the scan of UNPAD stops (spec 40_block_codec.md R111, R115). -/

namespace Sys2Proof.Machine

theorem wf_padBuffer {m : Memory} (h : Memory.wf m) (n : Nat) : Memory.wf (padBuffer m n) :=
  Memory.wf_fillZero (Memory.wf_write h _ _) _ _

/-- The sentinel at `n`, zeros from there to the padded length, every other byte as before. -/
theorem read_padBuffer {m : Memory} (h : Memory.wf m) (n a : Nat) : Memory.read (padBuffer m n) a =
    if a = n then 0x80 else if n < a ∧ a < paddedLength n then 0x00 else Memory.read m a := by
  unfold padBuffer paddedLength
  rw [Memory.read_fillZero (Memory.wf_write h _ _), Memory.read_write h]
  by_cases e : a = n
  · rw [if_neg (by omega), if_pos e.symm, if_pos e]
  · rw [if_neg e, if_neg (Ne.symm e)]
    by_cases e2 : n < a ∧ a < 16 * (n / 16 + 1)
    · rw [if_pos (by omega), if_pos e2]
    · rw [if_neg (by omega), if_neg e2]

/-- The scan stops at or below `n`, above it stand only zeros, and right below it no zero. -/
theorem scanZeros_spec (m : Memory) (n : Nat) : scanZeros m n ≤ n ∧
    (∀ a, scanZeros m n ≤ a → a < n → Memory.read m a = 0) ∧
    (scanZeros m n = 0 ∨ Memory.read m (scanZeros m n - 1) ≠ 0) := by
  induction n with
  | zero => exact ⟨Nat.le_refl _, fun a _ h => absurd h (Nat.not_lt_zero a), .inl rfl⟩
  | succ n ih =>
    unfold scanZeros
    split
    · next h =>
      refine ⟨by omega, fun a h1 h2 => ?_, ih.2.2⟩
      by_cases e : a = n
      · exact e ▸ h
      · exact ih.2.1 a h1 (by omega)
    · next h => exact ⟨Nat.le_refl _, fun a h1 h2 => by omega, .inr (by simpa using h)⟩

end Sys2Proof.Machine
end

