-- ==== Sys2Proof/Laws/State.lean ====
section
/-! SUPPORT. One lemma per field per update of the state, so that no proof unfolds a record update. -/

namespace Sys2Proof.Machine

/-! ## complete -/

@[simp] theorem State.complete_data (s : State) : (State.complete s).data = s.data := rfl
@[simp] theorem State.complete_busy (s : State) : (State.complete s).busy = false := rfl
@[simp] theorem State.complete_done (s : State) : (State.complete s).done = true := rfl
@[simp] theorem State.complete_err (s : State) : (State.complete s).err = s.err := rfl
@[simp] theorem State.complete_bacc (s : State) : (State.complete s).bacc = s.bacc := rfl
@[simp] theorem State.complete_ecode (s : State) : (State.complete s).ecode = s.ecode := rfl
@[simp] theorem State.complete_eopc (s : State) : (State.complete s).eopc = s.eopc := rfl
@[simp] theorem State.complete_ieDone (s : State) : (State.complete s).ieDone = s.ieDone := rfl
@[simp] theorem State.complete_ieErr (s : State) : (State.complete s).ieErr = s.ieErr := rfl
@[simp] theorem State.complete_pend (s : State) : (State.complete s).pend = s.pend := rfl
@[simp] theorem State.complete_params (s : State) : (State.complete s).params = s.params := rfl
@[simp] theorem State.complete_events (s : State) : (State.complete s).events = s.events := rfl
@[simp] theorem State.complete_response (s : State) : (State.complete s).response = s.response := rfl
@[simp] theorem State.complete_draws (s : State) : (State.complete s).draws = s.draws := rfl
@[simp] theorem State.complete_faults (s : State) : (State.complete s).faults = s.faults := rfl

/-! ## accept -/

@[simp] theorem State.accept_data (s : State) (w : Word) : (State.accept s w).data = s.data := rfl
@[simp] theorem State.accept_busy (s : State) (w : Word) : (State.accept s w).busy = true := rfl
@[simp] theorem State.accept_done (s : State) (w : Word) : (State.accept s w).done = false := rfl
@[simp] theorem State.accept_err (s : State) (w : Word) : (State.accept s w).err = s.err := rfl
@[simp] theorem State.accept_bacc (s : State) (w : Word) : (State.accept s w).bacc = s.bacc := rfl
@[simp] theorem State.accept_ecode (s : State) (w : Word) : (State.accept s w).ecode = s.ecode := rfl
@[simp] theorem State.accept_eopc (s : State) (w : Word) : (State.accept s w).eopc = s.eopc := rfl
@[simp] theorem State.accept_ieDone (s : State) (w : Word) : (State.accept s w).ieDone = s.ieDone := rfl
@[simp] theorem State.accept_ieErr (s : State) (w : Word) : (State.accept s w).ieErr = s.ieErr := rfl
@[simp] theorem State.accept_pend (s : State) (w : Word) : (State.accept s w).pend = w := rfl
@[simp] theorem State.accept_params (s : State) (w : Word) : (State.accept s w).params = s.params := rfl
@[simp] theorem State.accept_events (s : State) (w : Word) : (State.accept s w).events = s.events := rfl
@[simp] theorem State.accept_response (s : State) (w : Word) : (State.accept s w).response = s.response := rfl
@[simp] theorem State.accept_draws (s : State) (w : Word) : (State.accept s w).draws = s.draws := rfl
@[simp] theorem State.accept_faults (s : State) (w : Word) : (State.accept s w).faults = s.faults := rfl

/-! ## respond -/

@[simp] theorem State.respond_data (s : State) (x : Resp) (w : Word) : (State.respond s x w).data = s.data := rfl
@[simp] theorem State.respond_busy (s : State) (x : Resp) (w : Word) : (State.respond s x w).busy = s.busy := rfl
@[simp] theorem State.respond_done (s : State) (x : Resp) (w : Word) : (State.respond s x w).done = s.done := rfl
@[simp] theorem State.respond_err (s : State) (x : Resp) (w : Word) : (State.respond s x w).err = s.err := rfl
@[simp] theorem State.respond_bacc (s : State) (x : Resp) (w : Word) : (State.respond s x w).bacc = s.bacc := rfl
@[simp] theorem State.respond_ecode (s : State) (x : Resp) (w : Word) : (State.respond s x w).ecode = s.ecode := rfl
@[simp] theorem State.respond_eopc (s : State) (x : Resp) (w : Word) : (State.respond s x w).eopc = s.eopc := rfl
@[simp] theorem State.respond_ieDone (s : State) (x : Resp) (w : Word) : (State.respond s x w).ieDone = s.ieDone := rfl
@[simp] theorem State.respond_ieErr (s : State) (x : Resp) (w : Word) : (State.respond s x w).ieErr = s.ieErr := rfl
@[simp] theorem State.respond_pend (s : State) (x : Resp) (w : Word) : (State.respond s x w).pend = s.pend := rfl
@[simp] theorem State.respond_params (s : State) (x : Resp) (w : Word) : (State.respond s x w).params = s.params := rfl
@[simp] theorem State.respond_events (s : State) (x : Resp) (w : Word) : (State.respond s x w).events = s.events := rfl
@[simp] theorem State.respond_response (s : State) (x : Resp) (w : Word) : (State.respond s x w).response = some ⟨x, w⟩ := rfl
@[simp] theorem State.respond_draws (s : State) (x : Resp) (w : Word) : (State.respond s x w).draws = s.draws := rfl
@[simp] theorem State.respond_faults (s : State) (x : Resp) (w : Word) : (State.respond s x w).faults = s.faults := rfl

/-! ## faultEntry -/

@[simp] theorem State.faultEntry_data (s : State) (k : FaultKind) : (State.faultEntry s k).data = State.hiddenData s k := rfl
@[simp] theorem State.faultEntry_busy (s : State) (k : FaultKind) : (State.faultEntry s k).busy = false := rfl
@[simp] theorem State.faultEntry_done (s : State) (k : FaultKind) : (State.faultEntry s k).done = s.done := rfl
@[simp] theorem State.faultEntry_err (s : State) (k : FaultKind) : (State.faultEntry s k).err = true := rfl
@[simp] theorem State.faultEntry_bacc (s : State) (k : FaultKind) : (State.faultEntry s k).bacc = s.bacc := rfl
@[simp] theorem State.faultEntry_ecode (s : State) (k : FaultKind) : (State.faultEntry s k).ecode = k.code := rfl
@[simp] theorem State.faultEntry_eopc (s : State) (k : FaultKind) : (State.faultEntry s k).eopc = s.pend.extractLsb' 0 8 := rfl
@[simp] theorem State.faultEntry_ieDone (s : State) (k : FaultKind) : (State.faultEntry s k).ieDone = s.ieDone := rfl
@[simp] theorem State.faultEntry_ieErr (s : State) (k : FaultKind) : (State.faultEntry s k).ieErr = s.ieErr := rfl
@[simp] theorem State.faultEntry_pend (s : State) (k : FaultKind) : (State.faultEntry s k).pend = s.pend := rfl
@[simp] theorem State.faultEntry_params (s : State) (k : FaultKind) : (State.faultEntry s k).params = s.params := rfl
@[simp] theorem State.faultEntry_events (s : State) (k : FaultKind) : (State.faultEntry s k).events = s.events := rfl
@[simp] theorem State.faultEntry_response (s : State) (k : FaultKind) : (State.faultEntry s k).response = s.response := rfl
@[simp] theorem State.faultEntry_draws (s : State) (k : FaultKind) : (State.faultEntry s k).draws = s.draws := rfl
@[simp] theorem State.faultEntry_faults (s : State) (k : FaultKind) : (State.faultEntry s k).faults = s.faults + 1 := rfl

/-! ## applyReset -/

@[simp] theorem State.applyReset_data (s : State) : (State.applyReset s).data = Data.zero := rfl
@[simp] theorem State.applyReset_busy (s : State) : (State.applyReset s).busy = false := rfl
@[simp] theorem State.applyReset_done (s : State) : (State.applyReset s).done = false := rfl
@[simp] theorem State.applyReset_err (s : State) : (State.applyReset s).err = false := rfl
@[simp] theorem State.applyReset_bacc (s : State) : (State.applyReset s).bacc = false := rfl
@[simp] theorem State.applyReset_ecode (s : State) : (State.applyReset s).ecode = 0 := rfl
@[simp] theorem State.applyReset_eopc (s : State) : (State.applyReset s).eopc = 0 := rfl
@[simp] theorem State.applyReset_ieDone (s : State) : (State.applyReset s).ieDone = false := rfl
@[simp] theorem State.applyReset_ieErr (s : State) : (State.applyReset s).ieErr = false := rfl
@[simp] theorem State.applyReset_pend (s : State) : (State.applyReset s).pend = 0 := rfl
@[simp] theorem State.applyReset_params (s : State) : (State.applyReset s).params = s.params := rfl
@[simp] theorem State.applyReset_events (s : State) : (State.applyReset s).events = s.events := rfl
@[simp] theorem State.applyReset_response (s : State) : (State.applyReset s).response = s.response := rfl
@[simp] theorem State.applyReset_draws (s : State) : (State.applyReset s).draws = s.draws := rfl
@[simp] theorem State.applyReset_faults (s : State) : (State.applyReset s).faults = s.faults := rfl

/-! ## zeroise -/

@[simp] theorem State.zeroise_data (s : State) : (State.zeroise s).data = Data.zero := rfl
@[simp] theorem State.zeroise_busy (s : State) : (State.zeroise s).busy = false := rfl
@[simp] theorem State.zeroise_done (s : State) : (State.zeroise s).done = false := rfl
@[simp] theorem State.zeroise_err (s : State) : (State.zeroise s).err = false := rfl
@[simp] theorem State.zeroise_bacc (s : State) : (State.zeroise s).bacc = false := rfl
@[simp] theorem State.zeroise_ecode (s : State) : (State.zeroise s).ecode = 0 := rfl
@[simp] theorem State.zeroise_eopc (s : State) : (State.zeroise s).eopc = 0 := rfl
@[simp] theorem State.zeroise_ieDone (s : State) : (State.zeroise s).ieDone = s.ieDone := rfl
@[simp] theorem State.zeroise_ieErr (s : State) : (State.zeroise s).ieErr = s.ieErr := rfl
@[simp] theorem State.zeroise_pend (s : State) : (State.zeroise s).pend = 0 := rfl
@[simp] theorem State.zeroise_params (s : State) : (State.zeroise s).params = s.params := rfl
@[simp] theorem State.zeroise_events (s : State) : (State.zeroise s).events = s.events := rfl
@[simp] theorem State.zeroise_response (s : State) : (State.zeroise s).response = s.response := rfl
@[simp] theorem State.zeroise_draws (s : State) : (State.zeroise s).draws = s.draws := rfl
@[simp] theorem State.zeroise_faults (s : State) : (State.zeroise s).faults = s.faults := rfl

/-! ## draw -/

@[simp] theorem State.draw_data (s : State) : (State.draw s).2.data = s.data := rfl
@[simp] theorem State.draw_busy (s : State) : (State.draw s).2.busy = s.busy := rfl
@[simp] theorem State.draw_done (s : State) : (State.draw s).2.done = s.done := rfl
@[simp] theorem State.draw_err (s : State) : (State.draw s).2.err = s.err := rfl
@[simp] theorem State.draw_bacc (s : State) : (State.draw s).2.bacc = s.bacc := rfl
@[simp] theorem State.draw_ecode (s : State) : (State.draw s).2.ecode = s.ecode := rfl
@[simp] theorem State.draw_eopc (s : State) : (State.draw s).2.eopc = s.eopc := rfl
@[simp] theorem State.draw_ieDone (s : State) : (State.draw s).2.ieDone = s.ieDone := rfl
@[simp] theorem State.draw_ieErr (s : State) : (State.draw s).2.ieErr = s.ieErr := rfl
@[simp] theorem State.draw_pend (s : State) : (State.draw s).2.pend = s.pend := rfl
@[simp] theorem State.draw_params (s : State) : (State.draw s).2.params = s.params := rfl
@[simp] theorem State.draw_events (s : State) : (State.draw s).2.events = s.events := rfl
@[simp] theorem State.draw_response (s : State) : (State.draw s).2.response = s.response := rfl
@[simp] theorem State.draw_draws (s : State) : (State.draw s).2.draws = s.draws + 1 := rfl
@[simp] theorem State.draw_faults (s : State) : (State.draw s).2.faults = s.faults := rfl

/-! ## writeStatus -/

@[simp] theorem State.writeStatus_data (s : State) (v : Word) : (State.writeStatus s v).data = s.data := rfl
@[simp] theorem State.writeStatus_busy (s : State) (v : Word) : (State.writeStatus s v).busy = s.busy := rfl
@[simp] theorem State.writeStatus_done (s : State) (v : Word) : (State.writeStatus s v).done = (s.done && !v.getLsbD 1) := rfl
@[simp] theorem State.writeStatus_err (s : State) (v : Word) : (State.writeStatus s v).err = s.err := rfl
@[simp] theorem State.writeStatus_bacc (s : State) (v : Word) : (State.writeStatus s v).bacc = (s.bacc && !v.getLsbD 3) := rfl
@[simp] theorem State.writeStatus_ecode (s : State) (v : Word) : (State.writeStatus s v).ecode = s.ecode := rfl
@[simp] theorem State.writeStatus_eopc (s : State) (v : Word) : (State.writeStatus s v).eopc = s.eopc := rfl
@[simp] theorem State.writeStatus_ieDone (s : State) (v : Word) : (State.writeStatus s v).ieDone = s.ieDone := rfl
@[simp] theorem State.writeStatus_ieErr (s : State) (v : Word) : (State.writeStatus s v).ieErr = s.ieErr := rfl
@[simp] theorem State.writeStatus_pend (s : State) (v : Word) : (State.writeStatus s v).pend = s.pend := rfl
@[simp] theorem State.writeStatus_params (s : State) (v : Word) : (State.writeStatus s v).params = s.params := rfl
@[simp] theorem State.writeStatus_events (s : State) (v : Word) : (State.writeStatus s v).events = s.events := rfl
@[simp] theorem State.writeStatus_response (s : State) (v : Word) : (State.writeStatus s v).response = s.response := rfl
@[simp] theorem State.writeStatus_draws (s : State) (v : Word) : (State.writeStatus s v).draws = s.draws := rfl
@[simp] theorem State.writeStatus_faults (s : State) (v : Word) : (State.writeStatus s v).faults = s.faults := rfl

/-! ## writeInten -/

@[simp] theorem State.writeInten_data (s : State) (v : Word) : (State.writeInten s v).data = s.data := rfl
@[simp] theorem State.writeInten_busy (s : State) (v : Word) : (State.writeInten s v).busy = s.busy := rfl
@[simp] theorem State.writeInten_done (s : State) (v : Word) : (State.writeInten s v).done = s.done := rfl
@[simp] theorem State.writeInten_err (s : State) (v : Word) : (State.writeInten s v).err = s.err := rfl
@[simp] theorem State.writeInten_bacc (s : State) (v : Word) : (State.writeInten s v).bacc = s.bacc := rfl
@[simp] theorem State.writeInten_ecode (s : State) (v : Word) : (State.writeInten s v).ecode = s.ecode := rfl
@[simp] theorem State.writeInten_eopc (s : State) (v : Word) : (State.writeInten s v).eopc = s.eopc := rfl
@[simp] theorem State.writeInten_ieDone (s : State) (v : Word) : (State.writeInten s v).ieDone = v.getLsbD 0 := rfl
@[simp] theorem State.writeInten_ieErr (s : State) (v : Word) : (State.writeInten s v).ieErr = v.getLsbD 1 := rfl
@[simp] theorem State.writeInten_pend (s : State) (v : Word) : (State.writeInten s v).pend = s.pend := rfl
@[simp] theorem State.writeInten_params (s : State) (v : Word) : (State.writeInten s v).params = s.params := rfl
@[simp] theorem State.writeInten_events (s : State) (v : Word) : (State.writeInten s v).events = s.events := rfl
@[simp] theorem State.writeInten_response (s : State) (v : Word) : (State.writeInten s v).response = s.response := rfl
@[simp] theorem State.writeInten_draws (s : State) (v : Word) : (State.writeInten s v).draws = s.draws := rfl
@[simp] theorem State.writeInten_faults (s : State) (v : Word) : (State.writeInten s v).faults = s.faults := rfl

@[simp] theorem State.draw_answer (s : State) : (State.draw s).1 = Config.entropy s.draws := rfl

/-! ## invalidate -/

@[simp] theorem Data.invalidate_key (d : Data) : (Data.invalidate d).key = d.key := rfl
@[simp] theorem Data.invalidate_rk (d : Data) : (Data.invalidate d).rk = d.rk := rfl
@[simp] theorem Data.invalidate_r (d : Data) : (Data.invalidate d).r = 0 := rfl
@[simp] theorem Data.invalidate_rks (d : Data) : (Data.invalidate d).rks = d.rks := rfl
@[simp] theorem Data.invalidate_sbox (d : Data) : (Data.invalidate d).sbox = d.sbox := rfl
@[simp] theorem Data.invalidate_inv (d : Data) : (Data.invalidate d).inv = d.inv := rfl
@[simp] theorem Data.invalidate_buf (d : Data) : (Data.invalidate d).buf = d.buf := rfl
@[simp] theorem Data.invalidate_len (d : Data) : (Data.invalidate d).len = d.len := rfl
@[simp] theorem Data.invalidate_kv (d : Data) : (Data.invalidate d).kv = false := rfl
@[simp] theorem Data.invalidate_qv (d : Data) : (Data.invalidate d).qv = false := rfl
@[simp] theorem Data.invalidate_sv (d : Data) : (Data.invalidate d).sv = false := rfl
@[simp] theorem Data.invalidate_nv (d : Data) : (Data.invalidate d).nv = false := rfl

end Sys2Proof.Machine
end

