-- ==== Sys2Proof/Laws/Operands.lean ====
section
/-! SUPPORT. What the checks and the layer forms can do, said once: if they answer, under which condition and with
which data; if they raise, which kind. -/

namespace Sys2Proof.Machine

/-! ## Performing a body -/

theorem State.perform_ok {s : State} {body : Body} {d : Data} (h : body s.params s.data = .ok d) :
    State.perform s body = .next (State.complete { s with data := d }) := by
  simp [State.perform, h]

theorem State.perform_error {s : State} {body : Body} {k : FaultKind} (h : body s.params s.data = .error k) :
    State.perform s body = .next (State.faultEntry s k) := by
  simp [State.perform, h]

/-- Performing a body ends in completion with its data or in the fault entry of the kind it raises. -/
theorem State.perform_cases (s : State) (body : Body) :
    (∃ d, body s.params s.data = .ok d ∧ State.perform s body = .next (State.complete { s with data := d })) ∨
    (∃ k, body s.params s.data = .error k ∧ State.perform s body = .next (State.faultEntry s k)) := by
  cases h : body s.params s.data with
  | ok d => exact .inl ⟨d, rfl, State.perform_ok h⟩
  | error k => exact .inr ⟨k, rfl, State.perform_error h⟩

/-! ## Sequences of bodies -/

theorem bind_ok {x : Except FaultKind Data} {f : Data → Except FaultKind Data} {d' : Data} :
    (x >>= f) = .ok d' ↔ ∃ d, x = .ok d ∧ f d = .ok d' := by
  cases x with
  | error k => simp [bind, Except.bind]
  | ok d => simp [bind, Except.bind]

theorem bind_error {x : Except FaultKind Data} {f : Data → Except FaultKind Data} {k : FaultKind} :
    (x >>= f) = .error k ↔ x = .error k ∨ ∃ d, x = .ok d ∧ f d = .error k := by
  cases x with
  | error k => simp [bind, Except.bind]
  | ok d => simp [bind, Except.bind]

@[simp] theorem ok_bind (d : Data) (f : Data → Except FaultKind Data) : (Except.ok d >>= f) = f d := rfl

@[simp] theorem error_bind (k : FaultKind) (f : Data → Except FaultKind Data) :
    ((Except.error k : Except FaultKind Data) >>= f) = .error k := rfl

/-- A property every pass of the loop keeps holds after the loop. -/
theorem loopUp_keeps {step : Nat → Data → Except FaultKind Data} {P : Nat → Data → Prop} {n : Nat} {d d' : Data}
    (h : loopUp step n d = .ok d') (h0 : P 0 d)
    (hs : ∀ i e e', i < n → P i e → step i e = .ok e' → P (i + 1) e') : P n d' := by
  induction n generalizing d' with
  | zero => cases h; exact h0
  | succ n ih =>
    obtain ⟨e, he, hstep⟩ := bind_ok.mp h
    exact hs n e d' (Nat.lt_succ_self n) (ih he fun i e e' hi => hs i e e' (by omega)) hstep

/-- A loop whose every pass answers, under a property the passes keep, answers. -/
theorem loopUp_answers {step : Nat → Data → Except FaultKind Data} {P : Nat → Data → Prop} {n : Nat} {d : Data}
    (h0 : P 0 d) (hs : ∀ i e, i < n → P i e → ∃ e', step i e = .ok e' ∧ P (i + 1) e') :
    ∃ d', loopUp step n d = .ok d' ∧ P n d' := by
  induction n with
  | zero => exact ⟨d, rfl, h0⟩
  | succ n ih =>
    obtain ⟨e, he, hp⟩ := ih fun i e hi => hs i e (by omega)
    obtain ⟨e', he', hp'⟩ := hs n e (Nat.lt_succ_self n) hp
    exact ⟨e', bind_ok.mpr ⟨e, he, he'⟩, hp'⟩

theorem loopDown_keeps {step : Nat → Data → Except FaultKind Data} {P : Nat → Data → Prop} {n : Nat} {d d' : Data}
    (h : loopDown step n d = .ok d') (h0 : P n d)
    (hs : ∀ i e e', i < n → P (i + 1) e → step i e = .ok e' → P i e') : P 0 d' := by
  induction n generalizing d with
  | zero => cases h; exact h0
  | succ n ih =>
    obtain ⟨e, he, hrest⟩ := bind_ok.mp h
    exact ih hrest (hs n d e (Nat.lt_succ_self n) h0 he) fun i e e' hi => hs i e e' (by omega)

theorem loopDown_answers {step : Nat → Data → Except FaultKind Data} {P : Nat → Data → Prop} {n : Nat} {d : Data}
    (h0 : P n d) (hs : ∀ i e, i < n → P (i + 1) e → ∃ e', step i e = .ok e' ∧ P i e') :
    ∃ d', loopDown step n d = .ok d' ∧ P 0 d' := by
  induction n generalizing d with
  | zero => exact ⟨d, rfl, h0⟩
  | succ n ih =>
    obtain ⟨e, he, hp⟩ := hs n d (Nat.lt_succ_self n) h0
    obtain ⟨d', hd', hp'⟩ := ih hp fun i e hi => hs i e (by omega)
    exact ⟨d', bind_ok.mpr ⟨e, he, hd'⟩, hp'⟩

/-! ## Checks -/

@[simp] theorem needFlag_true (d : Data) : needFlag true d = .ok d := rfl

@[simp] theorem needFlag_false (d : Data) : needFlag false d = .error .notReady := rfl

theorem needFlag_ok {b : Bool} {d d' : Data} : needFlag b d = .ok d' ↔ b = true ∧ d' = d := by
  cases b <;> simp [eq_comm]

theorem needBlocks_ok {p : Params} {d d' : Data} :
    needBlocks p d = .ok d' ↔ d.len.toNat ≤ p.bufBytes ∧ d.len.toNat % 16 = 0 ∧ d' = d := by
  unfold needBlocks needCapacity needShape
  by_cases h1 : d.len.toNat > p.bufBytes
  · simp [if_pos h1]; omega
  · by_cases h2 : d.len.toNat % 16 = 0
    · simp [if_neg h1, h2, eq_comm]; omega
    · simp [if_neg h1, h2]

theorem needBlocks_of {p : Params} {d : Data} (h1 : d.len.toNat ≤ p.bufBytes) (h2 : d.len.toNat % 16 = 0) :
    needBlocks p d = .ok d := needBlocks_ok.mpr ⟨h1, h2, rfl⟩

theorem needBlocks_overflow {p : Params} {d : Data} (h : p.bufBytes < d.len.toNat) :
    needBlocks p d = .error .bufferOverflow := by
  simp [needBlocks, needCapacity, h]

theorem needBlocks_shape {p : Params} {d : Data} (h1 : d.len.toNat ≤ p.bufBytes) (h2 : d.len.toNat % 16 ≠ 0) :
    needBlocks p d = .error .blockShape := by
  have : ¬ d.len.toNat > p.bufBytes := by omega
  simp [needBlocks, needCapacity, needShape, this, h2]

/-! ## Layers -/

/-- A block layer answers exactly when the message is a whole number of blocks within the capacity, and changes BUF
only. -/
theorem blockLayer_ok {f : Block → Block} {p : Params} {d d' : Data} :
    blockLayer f p d = .ok d' ↔ d.len.toNat ≤ p.bufBytes ∧ d.len.toNat % 16 = 0 ∧
      d' = { d with buf := Memory.mapBlocks f d.nblk d.buf } := by
  unfold blockLayer
  rw [bind_ok]
  constructor
  · rintro ⟨e, he, h⟩
    obtain ⟨h1, h2, rfl⟩ := needBlocks_ok.mp he
    exact ⟨h1, h2, (Except.ok.inj h).symm⟩
  · rintro ⟨h1, h2, rfl⟩
    exact ⟨d, needBlocks_of h1 h2, rfl⟩

/-- A byte layer answers under the same condition and changes BUF only. -/
theorem byteLayer_ok {t : Table} {p : Params} {d d' : Data} :
    byteLayer t p d = .ok d' ↔ d.len.toNat ≤ p.bufBytes ∧ d.len.toNat % 16 = 0 ∧
      d' = { d with buf := Memory.mapBytes (fun b => t[b.toNat]) d.len.toNat d.buf } := by
  unfold byteLayer
  rw [bind_ok]
  constructor
  · rintro ⟨e, he, h⟩
    obtain ⟨h1, h2, rfl⟩ := needBlocks_ok.mp he
    exact ⟨h1, h2, (Except.ok.inj h).symm⟩
  · rintro ⟨h1, h2, rfl⟩
    exact ⟨d, needBlocks_of h1 h2, rfl⟩

/-! ## Byte lanes -/

/-- Bit `i` of a word made of four bytes. -/
theorem lanes_getLsbD (b0 b1 b2 b3 : Byte) (i : Nat) : (lanes b0 b1 b2 b3).getLsbD i =
    if i < 8 then b0.getLsbD i else if i < 16 then b1.getLsbD (i - 8) else if i < 24 then b2.getLsbD (i - 16)
      else b3.getLsbD (i - 24) := by
  unfold lanes
  rw [BitVec.getLsbD_append, BitVec.getLsbD_append, BitVec.getLsbD_append]
  rcases Nat.lt_or_ge i 8 with h | h
  · simp [h]
  rcases Nat.lt_or_ge i 16 with h1 | h1
  · simp [Nat.not_lt.mpr h, h1, show i - 8 < 8 by omega]
  rcases Nat.lt_or_ge i 24 with h2 | h2
  · simp [Nat.not_lt.mpr h, Nat.not_lt.mpr h1, h2, show ¬ i - 8 < 8 by omega, show i - 8 - 8 = i - 16 by omega,
      show ¬ 8 ≤ i - 16 by omega]
  · simp [Nat.not_lt.mpr h, Nat.not_lt.mpr h1, Nat.not_lt.mpr h2, show ¬ i - 8 < 8 by omega, show ¬ i - 8 - 8 < 8 by omega, show i - 8 - 8 - 8 = i - 24 by omega]

/-- Bit `i` of a byte lane. -/
theorem lane_getLsbD (w : Word) (n i : Nat) : (lane w n).getLsbD i = (decide (i < 8) && w.getLsbD (8 * n + i)) := by
  simp [lane, BitVec.getLsbD_extractLsb']

/-- The lanes of a word made of four bytes are the bytes. -/
theorem lane_lanes (b0 b1 b2 b3 : Byte) : lane (lanes b0 b1 b2 b3) 0 = b0 ∧
    lane (lanes b0 b1 b2 b3) 1 = b1 ∧ lane (lanes b0 b1 b2 b3) 2 = b2 ∧ lane (lanes b0 b1 b2 b3) 3 = b3 := by
  refine ⟨?_, ?_, ?_, ?_⟩ <;> refine BitVec.eq_of_getLsbD_eq fun i hi => ?_ <;> rw [lane_getLsbD, lanes_getLsbD] <;> simp only [hi, decide_true, Bool.true_and]
  · rw [if_pos (by omega)]; congr 1; omega
  · rw [if_neg (by omega), if_pos (by omega)]; congr 1; omega
  · rw [if_neg (by omega), if_neg (by omega), if_pos (by omega)]; congr 1; omega
  · rw [if_neg (by omega), if_neg (by omega), if_neg (by omega)]; congr 1; omega

/-- The four lanes of a word make up the word. -/
theorem lanes_lane (w : Word) : lanes (lane w 0) (lane w 1) (lane w 2) (lane w 3) = w := by
  refine BitVec.eq_of_getLsbD_eq fun i hi => ?_
  simp only [lanes_getLsbD, lane_getLsbD]
  split
  · simp_all
  split
  · rw [show 8 * 1 + (i - 8) = i by omega]; simp; omega
  split
  · rw [show 8 * 2 + (i - 16) = i by omega]; simp; omega
  · rw [show 8 * 3 + (i - 24) = i by omega]; simp; omega

end Sys2Proof.Machine
end

