-- ==== Sys2Proof/Laws/Port.lean ====
section
/-! SUPPORT. What the two transactions of the host port can do, said once for each state of the engine. -/

namespace Sys2Proof.Machine

/-- An access of another width changes nothing but the answer. -/
theorem State.hostRead_width {s : State} {width off : Nat} (h : width ≠ 32) :
    State.hostRead s width off = State.respond s .error 0 := by simp [State.hostRead, h]

theorem State.hostWrite_width {s : State} {width off : Nat} {v : Word} (h : width ≠ 32) :
    State.hostWrite s width off v = State.respond s .error 0 := by simp [State.hostWrite, h]

/-- An access to a misaligned or unmapped offset changes nothing but the answer. -/
theorem State.hostRead_unmapped {s : State} {off : Nat} (h : regAt s.params.bufBytes off = none) :
    State.hostRead s 32 off = State.respond s .error 0 := by simp [State.hostRead, h]

theorem State.hostWrite_unmapped {s : State} {off : Nat} {v : Word} (h : regAt s.params.bufBytes off = none) :
    State.hostWrite s 32 off v = State.respond s .error 0 := by simp [State.hostWrite, h]

/-- A read of a register that is served in every state. -/
theorem State.hostRead_served {s : State} {off : Nat} {g : Reg} (h : regAt s.params.bufBytes off = some g)
    (hg : g.alwaysServed = true) : State.hostRead s 32 off = State.respond s .ok (State.regValue s g) := by
  simp [State.hostRead, h, hg]

/-- A read of a guarded register while the engine is busy. -/
theorem State.hostRead_busy {s : State} {off : Nat} {g : Reg} (h : regAt s.params.bufBytes off = some g)
    (hg : g.alwaysServed = false) (hb : s.busy = true) :
    State.hostRead s 32 off = State.respond { s with bacc := true } .ok 0 := by
  simp [State.hostRead, h, hg, hb]

/-- A read of a guarded register in the fault state. -/
theorem State.hostRead_faulted {s : State} {off : Nat} {g : Reg} (h : regAt s.params.bufBytes off = some g)
    (hg : g.alwaysServed = false) (hb : s.busy = false) (he : s.err = true) :
    State.hostRead s 32 off = State.respond s .ok 0 := by
  simp [State.hostRead, h, hg, hb, he]

/-- A read in the idle, fault-free state. -/
theorem State.hostRead_idle {s : State} {off : Nat} {g : Reg} (h : regAt s.params.bufBytes off = some g)
    (hb : s.busy = false) (he : s.err = false) :
    State.hostRead s 32 off = State.respond s .ok (State.regValue s g) := by
  simp [State.hostRead, h, hb, he]

/-- A write while the engine is busy. -/
theorem State.hostWrite_busy {s : State} {off : Nat} {v : Word} {g : Reg}
    (h : regAt s.params.bufBytes off = some g) (hb : s.busy = true) :
    State.hostWrite s 32 off v = State.respond { s with bacc := true } .ok 0 := by
  simp [State.hostWrite, h, hb]

/-- A write in the fault state. -/
theorem State.hostWrite_faulted {s : State} {off : Nat} {v : Word} {g : Reg}
    (h : regAt s.params.bufBytes off = some g) (hb : s.busy = false) (he : s.err = true) :
    State.hostWrite s 32 off v = State.respond (State.writeFaulted s v g) .ok 0 := by
  simp [State.hostWrite, h, hb, he]

/-- A write in the idle, fault-free state. -/
theorem State.hostWrite_idle {s : State} {off : Nat} {v : Word} {g : Reg}
    (h : regAt s.params.bufBytes off = some g) (hb : s.busy = false) (he : s.err = false) :
    State.hostWrite s 32 off v = State.respond (State.writeReg s v g) .ok 0 := by
  simp [State.hostWrite, h, hb, he]

/-- Everything a read can do to the state: the answer, and perhaps BACC while busy. -/
theorem State.hostRead_cases (s : State) (width off : Nat) :
    (∃ x w, State.hostRead s width off = State.respond s x w) ∨
    (s.busy = true ∧ ∃ x w, State.hostRead s width off = State.respond { s with bacc := true } x w) := by
  by_cases hw : width = 32
  · subst hw
    cases h : regAt s.params.bufBytes off with
    | none => exact .inl ⟨_, _, State.hostRead_unmapped h⟩
    | some g =>
      cases hg : g.alwaysServed with
      | true => exact .inl ⟨_, _, State.hostRead_served h hg⟩
      | false =>
        rcases Bool.eq_false_or_eq_true s.busy with hb | hb
        · exact .inr ⟨hb, _, _, State.hostRead_busy h hg hb⟩
        · rcases Bool.eq_false_or_eq_true s.err with he | he
          · exact .inl ⟨_, _, State.hostRead_faulted h hg hb he⟩
          · exact .inl ⟨_, _, State.hostRead_idle h hb he⟩
  · exact .inl ⟨_, _, State.hostRead_width hw⟩

/-- Everything a write can do to the state. -/
theorem State.hostWrite_cases (s : State) (width off : Nat) (v : Word) :
    (∃ x w, State.hostWrite s width off v = State.respond s x w) ∨
    (s.busy = true ∧ ∃ x w, State.hostWrite s width off v = State.respond { s with bacc := true } x w) ∨
    (s.busy = false ∧ s.err = true ∧ ∃ g, regAt s.params.bufBytes off = some g ∧
      State.hostWrite s width off v = State.respond (State.writeFaulted s v g) .ok 0) ∨
    (s.busy = false ∧ s.err = false ∧ ∃ g, regAt s.params.bufBytes off = some g ∧
      State.hostWrite s width off v = State.respond (State.writeReg s v g) .ok 0) := by
  by_cases hw : width = 32
  · subst hw
    cases h : regAt s.params.bufBytes off with
    | none => exact .inl ⟨_, _, State.hostWrite_unmapped h⟩
    | some g =>
      rcases Bool.eq_false_or_eq_true s.busy with hb | hb
      · exact .inr (.inl ⟨hb, _, _, State.hostWrite_busy h hb⟩)
      · rcases Bool.eq_false_or_eq_true s.err with he | he
        · exact .inr (.inr (.inl ⟨hb, he, g, rfl, State.hostWrite_faulted h hb he⟩))
        · exact .inr (.inr (.inr ⟨hb, he, g, rfl, State.hostWrite_idle h hb he⟩))
  · exact .inl ⟨_, _, State.hostWrite_width hw⟩

/-- A word of BUF in the map lies wholly within the capacity. -/
theorem regAt_bufw {n off k : Nat} (h : regAt n off = some (.bufw k)) (hn : n % 16 = 0) :
    off = 0x1000 + 4 * k ∧ 4 * k + 4 ≤ n := by
  unfold regAt at h
  split at h
  · cases h
  split at h
  · split at h <;> cases h
  repeat' split at h
  all_goals first
    | (cases h; done)
    | (cases h; omega)

/-! ## The map: every register at its offset, and only there -/

/-- The offset of a register (R21). -/
def Reg.offset : Reg → Nat
  | .id => 0x000
  | .cmd => 0x004
  | .status => 0x008
  | .errinfo => 0x00C
  | .inten => 0x010
  | .rounds => 0x014
  | .len => 0x018
  | .cap => 0x01C
  | .key w => 0x020 + 4 * w.val
  | .rk w => 0x030 + 4 * w.val
  | .sboxw w => 0x100 + 4 * w.val
  | .invw w => 0x200 + 4 * w.val
  | .rksw w => 0x400 + 4 * w.val
  | .bufw k => 0x1000 + 4 * k

/-- The window of a capacity of `n` bytes has the register: every one, but of BUF only the words below `n`. -/
def Reg.InWindow (n : Nat) : Reg → Prop
  | .bufw k => 4 * k + 4 ≤ n
  | _ => True

/-- A register of the window is found at its offset (R21). -/
theorem regAt_at {n : Nat} {g : Reg} (h : g.InWindow n) : regAt n g.offset = some g := by
  cases g with
  | key w => match w with | 0 | 1 | 2 | 3 => rfl
  | rk w => match w with | 0 | 1 | 2 | 3 => rfl
  | sboxw w =>
    have hw : 4 * w.val < 256 := by omega
    simp (disch := (first | omega | simp)) only [regAt, Reg.offset, if_pos, if_neg, Nat.add_sub_cancel_left,
      Nat.mul_div_cancel_left, Fin.ofNat_val_eq_self]
  | invw w =>
    have hw : 4 * w.val < 256 := by omega
    simp (disch := (first | omega | simp)) only [regAt, Reg.offset, if_pos, if_neg, Nat.add_sub_cancel_left,
      Nat.mul_div_cancel_left, Fin.ofNat_val_eq_self]
  | rksw w =>
    have hw : 4 * w.val < 400 := by omega
    simp (disch := (first | omega | simp)) only [regAt, Reg.offset, if_pos, if_neg, Nat.add_sub_cancel_left,
      Nat.mul_div_cancel_left, Fin.ofNat_val_eq_self]
  | bufw k =>
    have hk : 4 * k + 4 ≤ n := h
    simp (disch := (first | omega | simp)) only [regAt, Reg.offset, if_pos, if_neg, Nat.add_sub_cancel_left,
      Nat.mul_div_cancel_left]
  | id | cmd | status | errinfo | inten | rounds | len | cap => rfl

/-- A register is found at its offset only. -/
theorem regAt_offset {n off : Nat} {g : Reg} (h : regAt n off = some g) : off = g.offset := by
  by_cases h4 : off % 4 = 0
  · obtain ⟨k, rfl⟩ : ∃ k, off = 4 * k := ⟨off / 4, by omega⟩
    by_cases h1 : 4 * k < 0x20
    · have hk : k < 8 := by omega
      interval_cases k <;> (cases h; rfl)
    unfold regAt at h
    rw [if_neg (by omega), if_neg h1] at h
    split at h
    · cases h; simp only [Reg.offset, Fin.ofNat]; omega
    split at h
    · cases h; simp only [Reg.offset, Fin.ofNat]; omega
    split at h
    · cases h
    split at h
    · cases h; simp only [Reg.offset, Fin.ofNat]; omega
    split at h
    · cases h; simp only [Reg.offset, Fin.ofNat]; omega
    split at h
    · cases h
    split at h
    · cases h; simp only [Reg.offset, Fin.ofNat]; omega
    split at h
    · cases h
    split at h
    · cases h; simp only [Reg.offset]; omega
    · cases h
  · unfold regAt at h
    rw [if_pos h4] at h
    cases h

end Sys2Proof.Machine
end

