-- ==== Sys2Proof/Laws/Engine.lean ====
section
/-! SUPPORT. What a step can do, said once: it performs the command, faults on an illegal word, performs one
transaction, resets, or leaves the idle engine as it is. -/

namespace Sys2Proof.Machine

theorem State.engineTurn_idle {s : State} (h : s.busy = false) : State.engineTurn s = .next s := by
  simp [State.engineTurn, h]

theorem State.engineTurn_exec {s : State} {i : Instr} (h : s.busy = true) (hd : decode s.pend = .ok i) :
    State.engineTurn s = exec i s := by
  simp [State.engineTurn, State.engineStep, h, hd]

theorem State.engineTurn_illegal {s : State} {e : Illegal} (h : s.busy = true) (hd : decode s.pend = .error e) :
    State.engineTurn s = .next (State.faultEntry s .illegalCommand) := by
  simp [State.engineTurn, State.engineStep, h, hd]

/-- The engine's turn, every case. -/
theorem State.engineTurn_cases (s : State) :
    (s.busy = false ∧ State.engineTurn s = .next s) ∨
    (s.busy = true ∧ ∃ i, decode s.pend = .ok i ∧ State.engineTurn s = exec i s) ∨
    (s.busy = true ∧ ∃ e, decode s.pend = .error e ∧
      State.engineTurn s = .next (State.faultEntry s .illegalCommand)) := by
  cases hb : s.busy with
  | false => exact .inl ⟨rfl, State.engineTurn_idle hb⟩
  | true =>
    cases hd : decode s.pend with
    | ok i => exact .inr (.inl ⟨rfl, i, rfl, State.engineTurn_exec hb hd⟩)
    | error e => exact .inr (.inr ⟨rfl, e, rfl, State.engineTurn_illegal hb hd⟩)

theorem step_nil {s : State} (h : s.events = []) : step s = State.engineTurn s := by
  simp [step, State.advance, h]

theorem step_cons {s : State} {e : Event} {es : List Event} (h : s.events = e :: es) :
    step s = State.happen { s with events := es } e := by
  simp [step, State.advance, h]

/-- A step is the engine's turn, a transaction, or reset, at the state whose list of events is one shorter (or
empty). -/
theorem step_cases (s : State) :
    (step s = State.engineTurn { s with events := s.events.tail }) ∨
    (∃ width off, step s = .next (State.hostRead { s with events := s.events.tail } width off)) ∨
    (∃ width off v, step s = .next (State.hostWrite { s with events := s.events.tail } width off v)) ∨
    (step s = .next (State.applyReset { s with events := s.events.tail })) := by
  cases h : s.events with
  | nil =>
    left
    rw [step_nil h]
    congr 1
    cases s
    cases h
    rfl
  | cons e es =>
    rw [step_cons h]
    cases e with
    | read width off => exact .inr (.inl ⟨width, off, rfl⟩)
    | write width off v => exact .inr (.inr (.inl ⟨width, off, v, rfl⟩))
    | engine => exact .inl rfl
    | reset => exact .inr (.inr (.inr rfl))

/-! ## The meanings as performed bodies -/

/-- Every meaning but that of CLR performs a body; KGEN and ENCG after one call of the entropy oracle. -/
theorem exec_performs (i : Instr) (s : State) (h : i ≠ .clr) :
    ∃ (s' : State) (body : Body), exec i s = State.perform s' body ∧
      (s' = s ∨ s' = (State.draw s).2) := by
  cases i with
  | clr => exact absurd rfl h
  | kgen => exact ⟨_, Body.kgen (State.draw s).1, rfl, .inr rfl⟩
  | encg => exact ⟨_, Body.encg (State.draw s).1, rfl, .inr rfl⟩
  | ksel idx => exact ⟨s, Body.ksel idx, rfl, .inl rfl⟩
  | nop => exact ⟨s, Body.nop, rfl, .inl rfl⟩
  | kset => exact ⟨s, Body.kset, rfl, .inl rfl⟩
  | kdrv => exact ⟨s, Body.kdrv, rfl, .inl rfl⟩
  | kadv => exact ⟨s, Body.kadv, rfl, .inl rfl⟩
  | kbase => exact ⟨s, Body.kbase, rfl, .inl rfl⟩
  | sgen => exact ⟨s, Body.sgen, rfl, .inl rfl⟩
  | sinv => exact ⟨s, Body.sinv, rfl, .inl rfl⟩
  | subF => exact ⟨s, Body.subF, rfl, .inl rfl⟩
  | subR => exact ⟨s, Body.subR, rfl, .inl rfl⟩
  | rotF => exact ⟨s, Body.rotF, rfl, .inl rfl⟩
  | rotR => exact ⟨s, Body.rotR, rfl, .inl rfl⟩
  | trnF => exact ⟨s, Body.trnF, rfl, .inl rfl⟩
  | trnR => exact ⟨s, Body.trnR, rfl, .inl rfl⟩
  | mix => exact ⟨s, Body.mix, rfl, .inl rfl⟩
  | chnF => exact ⟨s, Body.chnF, rfl, .inl rfl⟩
  | chnR => exact ⟨s, Body.chnR, rfl, .inl rfl⟩
  | pad => exact ⟨s, Body.pad, rfl, .inl rfl⟩
  | chunk => exact ⟨s, Body.chunk, rfl, .inl rfl⟩
  | unpad => exact ⟨s, Body.unpad, rfl, .inl rfl⟩
  | enc => exact ⟨s, Body.enc, rfl, .inl rfl⟩
  | dec => exact ⟨s, Body.dec, rfl, .inl rfl⟩

theorem core_run_zero (s : State) : Sys2Proof.core.run 0 s = .next s := rfl

theorem run_succ_of_next (M : Host.Core) (n : Nat) (s t : M.State) (h : M.step s = .next t) :
    M.run (n + 1) s = M.run n t := by
  rw [Host.Core.run, h]

/-- One more step of a run whose first step goes on. -/
theorem core_run_succ {n : Nat} {s t : State} (h : step s = .next t) :
    Sys2Proof.core.run (n + 1) s = Sys2Proof.core.run n t :=
  run_succ_of_next Sys2Proof.core n s t h

end Sys2Proof.Machine
end

