-- ==== Sys2Proof/Laws/Layers.lean ====
section
/-! SUPPORT. The block functions and their inverses: XOR, rotation, transposition, and the substitution table. -/

namespace Sys2Proof.Machine

/-! ## XOR and rotation -/

theorem xor16_xor16 (b k : Block) : xor16 (xor16 b k) k = b := by
  refine Vector.ext fun n hn => ?_
  rw [xor16_getElem, xor16_getElem, BitVec.xor_assoc, BitVec.xor_self, BitVec.xor_zero]

theorem rotr8_rotl8 : ∀ (v : Byte) (n : Fin 8), rotr8 (rotl8 v n.val) n.val = v := by decide +kernel

theorem rotl8_rotr8 : ∀ (v : Byte) (n : Fin 8), rotl8 (rotr8 v n.val) n.val = v := by decide +kernel

theorem rotateReverse_rotateForward (k : KeyMatrix) (b : Block) : rotateReverse k (rotateForward k b) = b := by
  refine Vector.ext fun n hn => ?_
  rw [rotateReverse_getElem, rotateForward_getElem]
  exact rotr8_rotl8 _ ⟨_, rowShift_lt k _⟩

theorem rotateForward_rotateReverse (k : KeyMatrix) (b : Block) : rotateForward k (rotateReverse k b) = b := by
  refine Vector.ext fun n hn => ?_
  rw [rotateForward_getElem, rotateReverse_getElem]
  exact rotl8_rotr8 _ ⟨_, rowShift_lt k _⟩

/-! ## The sort of the first row -/

theorem insertIndex_perm (k : KeyMatrix) (i : Fin 4) (l : List (Fin 4)) : (insertIndex k i l).Perm (i :: l) := by
  induction l with
  | nil => exact List.Perm.refl _
  | cons j l ih =>
    unfold insertIndex
    split
    · exact List.Perm.refl _
    · exact (ih.cons j).trans (List.Perm.swap i j l)

theorem rowBefore_total (k : KeyMatrix) (i j : Fin 4) : rowBefore k i j ∨ rowBefore k j i := by
  unfold rowBefore
  omega

theorem rowBefore_trans {k : KeyMatrix} {i j l : Fin 4} (h : rowBefore k i j) (h' : rowBefore k j l) :
    rowBefore k i l := by
  unfold rowBefore at *
  omega

theorem insertIndex_sorted (k : KeyMatrix) (i : Fin 4) {l : List (Fin 4)} (h : l.Pairwise (rowBefore k)) :
    (insertIndex k i l).Pairwise (rowBefore k) := by
  induction l with
  | nil => exact List.pairwise_singleton _ _
  | cons j l ih =>
    obtain ⟨hj, hl⟩ := List.pairwise_cons.mp h
    unfold insertIndex
    split
    · next hij =>
      exact List.pairwise_cons.mpr ⟨fun x hx => (List.mem_cons.mp hx).elim (fun e => e ▸ hij)
        fun hx => rowBefore_trans hij (hj x hx), h⟩
    · next hij =>
      refine List.pairwise_cons.mpr ⟨fun x hx => ?_, ih hl⟩
      rcases List.mem_cons.mp ((insertIndex_perm k i l).mem_iff.mp hx) with rfl | hx
      · exact (rowBefore_total k x j).resolve_left hij
      · exact hj x hx

/-- The list of indices holds each index once. -/
theorem sortedIndices_perm (k : KeyMatrix) : (sortedIndices k).Perm [0, 1, 2, 3] :=
  (insertIndex_perm k 0 _).trans (((insertIndex_perm k 1 _).trans
    (((insertIndex_perm k 2 _).trans ((insertIndex_perm k 3 _).cons 2)).cons 1)).cons 0)

/-- The list of indices ascends by the pair (byte, index). -/
theorem sortedIndices_sorted (k : KeyMatrix) : (sortedIndices k).Pairwise (rowBefore k) :=
  insertIndex_sorted k 0 (insertIndex_sorted k 1 (insertIndex_sorted k 2 (insertIndex_sorted k 3 List.Pairwise.nil)))

theorem sortedIndices_length (k : KeyMatrix) : (sortedIndices k).length = 4 := (sortedIndices_perm k).length_eq

theorem perm_eq_getElem (k : KeyMatrix) (n : Fin 4) :
    perm k n = (sortedIndices k)[n.val]'(by rw [sortedIndices_length]; exact n.isLt) := by
  rw [perm, List.getD_eq_getElem?_getD, List.getElem?_eq_getElem, Option.getD_some]

/-- `PERM(k)` takes no value twice. -/
theorem perm_injective (k : KeyMatrix) : Function.Injective (perm k) := fun m n h => by
  have hn : (sortedIndices k).Nodup := (sortedIndices_perm k).nodup_iff.mpr (by decide)
  rw [perm_eq_getElem, perm_eq_getElem] at h
  exact Fin.ext ((List.Nodup.getElem_inj_iff hn).mp h)

/-! ## Transposition -/

/-- The scatter of a list of distinct cells: the cells of the list stand at their places, every place that no cell of
the list goes to is as before. -/
theorem scatter_spec (k : KeyMatrix) (b : Block) (l : List (Fin 16)) (d : Block) (hl : l.Nodup) :
    (∀ n ∈ l, (scatter k b l d)[gridIndex (perm k (rowOf n)) (perm k (colOf n))] = b[n]) ∧
    (∀ x : Fin 16, (∀ n ∈ l, gridIndex (perm k (rowOf n)) (perm k (colOf n)) ≠ x) → (scatter k b l d)[x] = d[x]) := by
  induction l generalizing d with
  | nil => exact ⟨fun _ h => absurd h (List.not_mem_nil), fun _ _ => rfl⟩
  | cons n l ih =>
    obtain ⟨hn, hl⟩ := List.nodup_cons.mp hl
    have hinj : ∀ m m' : Fin 16, gridIndex (perm k (rowOf m)) (perm k (colOf m)) =
        gridIndex (perm k (rowOf m')) (perm k (colOf m')) → m = m' := fun m m' h => by
      have hv := congrArg Fin.val h
      simp only [gridIndex] at hv
      have h1 := perm_injective k (Fin.ext (by omega : (perm k (rowOf m)).val = (perm k (rowOf m')).val))
      have h2 := perm_injective k (Fin.ext (by omega : (perm k (colOf m)).val = (perm k (colOf m')).val))
      have e1 := congrArg Fin.val h1
      have e2 := congrArg Fin.val h2
      simp only [rowOf, colOf] at e1 e2
      omega
    obtain ⟨h1, h2⟩ := ih (d.set (gridIndex (perm k (rowOf n)) (perm k (colOf n))) b[n]) hl
    refine ⟨fun m hm => ?_, fun x hx => ?_⟩
    · rcases List.mem_cons.mp hm with rfl | hm
      · exact (h2 _ fun m' hm' e => hn (hinj m' m e ▸ hm')).trans (by simp)
      · exact h1 m hm
    · refine (h2 x fun m hm => hx m (List.mem_cons_of_mem _ hm)).trans ?_
      have hne := hx n (List.mem_cons_self ..)
      exact Vector.getElem_set_ne _ _ fun e => hne (Fin.ext e)

/-- `TRANSPOSE` moves the cell at row `r`, column `c` to row `p[r]`, column `p[c]`. -/
theorem transpose_getElem (k : KeyMatrix) (b : Block) (n : Fin 16) :
    (transpose k b)[gridIndex (perm k (rowOf n)) (perm k (colOf n))] = b[n] :=
  (scatter_spec k b (List.finRange 16) _ (List.nodup_finRange 16)).1 n (List.mem_finRange n)

theorem reverseTranspose_getElem (k : KeyMatrix) (b : Block) (n : Fin 16) :
    (reverseTranspose k b)[n] = b[gridIndex (perm k (rowOf n)) (perm k (colOf n))] := by
  simp [reverseTranspose]

theorem reverseTranspose_transpose (k : KeyMatrix) (b : Block) : reverseTranspose k (transpose k b) = b :=
  Vector.ext fun n hn => (reverseTranspose_getElem k _ ⟨n, hn⟩).trans (transpose_getElem k b ⟨n, hn⟩)

theorem perm_surjective (k : KeyMatrix) : Function.Surjective (perm k) :=
  Finite.injective_iff_surjective.mp (perm_injective k)

theorem transpose_reverseTranspose (k : KeyMatrix) (b : Block) : transpose k (reverseTranspose k b) = b := by
  refine Vector.ext fun n hn => ?_
  obtain ⟨r, hr⟩ := perm_surjective k (rowOf ⟨n, hn⟩)
  obtain ⟨c, hc⟩ := perm_surjective k (colOf ⟨n, hn⟩)
  have h := transpose_getElem k (reverseTranspose k b) (gridIndex r c)
  rw [reverseTranspose_getElem] at h
  have e1 : rowOf (gridIndex r c) = r := Fin.ext (by simp only [rowOf, gridIndex]; omega)
  have e2 : colOf (gridIndex r c) = c := Fin.ext (by simp only [colOf, gridIndex]; omega)
  have e3 : gridIndex (rowOf ⟨n, hn⟩) (colOf ⟨n, hn⟩) = ⟨n, hn⟩ :=
    Fin.ext (by simp only [rowOf, colOf, gridIndex]; omega)
  simp only [e1, e2, hr, hc, e3] at h
  exact h

/-! ## The substitution table -/

/-- No value stands twice in the table. -/
def Table.distinct (t : Table) : Prop := ∀ u v : Fin 256, t[u.val] = t[v.val] → u = v

theorem identityTable_distinct : Table.distinct identityTable := fun u v h => by
  simp only [identityTable, Vector.getElem_ofFn] at h
  have := congrArg BitVec.toNat h
  rw [BitVec.toNat_ofNat, BitVec.toNat_ofNat, Nat.mod_eq_of_lt u.isLt, Nat.mod_eq_of_lt v.isLt] at this
  exact Fin.ext this

theorem Table.swapIfInBounds_eq (t : Table) (i j : Nat) :
    t.swapIfInBounds i j = if h : i < 256 ∧ j < 256 then t.swap i j h.1 h.2 else t := by
  unfold Vector.swapIfInBounds
  apply Vector.toArray_inj.mp
  unfold Array.swapIfInBounds
  have hs : t.toArray.size = 256 := t.size_toArray
  by_cases hi : i < 256 <;> by_cases hj : j < 256 <;> simp [hi, hj, Vector.swap]

/-- Exchanging two entries repeats no value. -/
theorem Table.distinct_swap {t : Table} (h : Table.distinct t) (i j : Nat) :
    Table.distinct (t.swapIfInBounds i j) := fun u v e => by
  rw [Table.swapIfInBounds_eq] at e
  split at e
  · next hb =>
    have key : ∀ w : Fin 256, ∃ x : Fin 256, (t.swap i j hb.1 hb.2)[w.val] = t[x.val] ∧
        x.val = if w.val = i then j else if w.val = j then i else w.val := fun w => by
      rw [Vector.getElem_swap]
      split
      · exact ⟨⟨j, hb.2⟩, rfl, rfl⟩
      · split
        · exact ⟨⟨i, hb.1⟩, rfl, rfl⟩
        · exact ⟨w, rfl, rfl⟩
    obtain ⟨x, hx, hxv⟩ := key u
    obtain ⟨y, hy, hyv⟩ := key v
    have hxy := congrArg Fin.val (h x y (hx.symm.trans (e.trans hy)))
    apply Fin.ext
    split at hxv <;> split at hyv <;> (try split at hxv) <;> (try split at hyv) <;> omega
  · exact h u v e

/-- The shuffle repeats no value, whatever the draws. -/
theorem shuffle_distinct (draw : Nat → Nat) (n : Nat) {t : Table} (h : Table.distinct t) :
    Table.distinct (shuffle draw n t) := by
  induction n generalizing t with
  | zero => exact h
  | succ n ih => exact ih (Table.distinct_swap h _ _)

theorem genSbox_distinct (x : SboxDraw) (k : KeyMatrix) : Table.distinct (genSbox x k) :=
  shuffle_distinct _ _ identityTable_distinct

/-- The writes of INVERT up to `n`: the entry at `v` is the last index below `n` that the table maps to `v`, and 0x00
where there is none. -/
theorem invertUpTo_spec (t : Table) (n : Nat) (hn : n ≤ 256) (v : Byte) :
    (∀ i : Fin 256, i.val < n → t[i.val] = v → (∀ j : Fin 256, i < j → j.val < n → t[j.val] ≠ v) →
      (invertUpTo t n)[v.toNat] = BitVec.ofNat 8 i.val) ∧
    ((∀ i : Fin 256, i.val < n → t[i.val] ≠ v) → (invertUpTo t n)[v.toNat] = 0x00) := by
  induction n with
  | zero => exact ⟨fun i hi => absurd hi (Nat.not_lt_zero _), fun _ => by simp [invertUpTo]⟩
  | succ n ih =>
    obtain ⟨h1, h2⟩ := ih (by omega)
    have hg : t.getD n 0 = t[n] := by simp [Vector.getD, show n < 256 by omega]
    have hset : (invertUpTo t (n + 1))[v.toNat] =
        if t[n] = v then BitVec.ofNat 8 n else (invertUpTo t n)[v.toNat] := by
      refine (Vector.getElem_set ..).trans ?_
      simp only [hg, BitVec.toNat_inj]
    rw [hset]
    refine ⟨fun i hi hv hlast => ?_, fun hnone => ?_⟩
    · by_cases hin : i.val = n
      · rw [if_pos (by simpa [hin] using hv), hin]
      · rw [if_neg (hlast ⟨n, by omega⟩ (by simp [Fin.lt_def]; omega) (by simp))]
        exact h1 i (by omega) hv fun j hj hjn => hlast j hj (by omega)
    · rw [if_neg (hnone ⟨n, by omega⟩ (by simp))]
      exact h2 fun i hi => hnone i (by omega)

/-- INVERT of a table that repeats no value gives back every index. -/
theorem invertTable_getElem {t : Table} (h : Table.distinct t) (v : Byte) :
    (invertTable t)[t[v.toNat].toNat] = v := by
  have := (invertUpTo_spec t 256 (Nat.le_refl _) t[v.toNat]).1 ⟨v.toNat, v.isLt⟩ v.isLt rfl
    fun j hj _ e => absurd (h j ⟨v.toNat, v.isLt⟩ e) (Fin.ne_of_gt hj)
  rw [invertTable, this]
  simp

/-- A table that repeats no value takes every value, and INVERT finds where. -/
theorem getElem_invertTable {t : Table} (h : Table.distinct t) (v : Byte) :
    t[(invertTable t)[v.toNat].toNat] = v := by
  have hinj : Function.Injective fun u : Byte => t[u.toNat] := fun u w e =>
    BitVec.eq_of_toNat_eq (congrArg Fin.val (h ⟨u.toNat, u.isLt⟩ ⟨w.toNat, w.isLt⟩ e))
  obtain ⟨u, hu⟩ := (Finite.injective_iff_surjective.mp hinj) v
  subst hu
  show t[(invertTable t)[t[u.toNat].toNat].toNat] = t[u.toNat]
  simp only [invertTable_getElem h]

end Sys2Proof.Machine
end

