-- ==== Sys2Proof/Laws/PerInstr.lean ====
section
/-! SUPPORT. Facts about every command as syntax, one lemma per constructor: the fields of the word a command is
encoded as (spec 30_encoding.md R90, R94, R95). -/

namespace Sys2Proof.Laws

/-- The field IDX of an assembled word. -/
theorem assemble_idx (opc : BitVec 8) (dir gen : Bool) (idx : BitVec 5) : (assemble opc dir gen idx).idx = idx := by
  refine BitVec.eq_of_getLsbD_eq fun b hb => ?_
  simp only [Word.idx, assemble, BitVec.getLsbD_extractLsb', BitVec.getLsbD_append, hb, decide_true, Bool.true_and]
  simp [show ¬ 16 + b < 8 by omega, show ¬ 16 + b - 8 < 1 by omega, show ¬ 16 + b - 8 - 1 < 1 by omega,
    show ¬ 16 + b - 8 - 1 - 1 < 6 by omega, show 16 + b - 8 - 1 - 1 - 6 = b by omega, hb]

/-- Bits 31:21 of an assembled word. -/
theorem assemble_reservedHigh (opc : BitVec 8) (dir gen : Bool) (idx : BitVec 5) :
    (assemble opc dir gen idx).reservedHigh = 0 := by
  refine BitVec.eq_of_getLsbD_eq fun b hb => ?_
  simp only [Word.reservedHigh, assemble, BitVec.getLsbD_extractLsb', BitVec.getLsbD_append, hb, decide_true,
    Bool.true_and]
  simp [show ¬ 21 + b < 8 by omega, show ¬ 21 + b - 8 < 1 by omega, show ¬ 21 + b - 8 - 1 < 1 by omega,
    show ¬ 21 + b - 8 - 1 - 1 < 6 by omega, show ¬ 21 + b - 8 - 1 - 1 - 6 < 5 by omega]

/-- Bits 15:10 of an assembled word. -/
theorem assemble_reservedLow (opc : BitVec 8) (dir gen : Bool) (idx : BitVec 5) :
    (assemble opc dir gen idx).reservedLow = 0 := by
  refine BitVec.eq_of_getLsbD_eq fun b hb => ?_
  simp only [Word.reservedLow, assemble, BitVec.getLsbD_extractLsb', BitVec.getLsbD_append, hb, decide_true,
    Bool.true_and]
  simp [show ¬ 10 + b < 8 by omega, show ¬ 10 + b - 8 < 1 by omega, show ¬ 10 + b - 8 - 1 < 1 by omega,
    show 10 + b - 8 - 1 - 1 < 6 by omega]

end Sys2Proof.Laws

namespace Sys2Proof.Laws.ReservedClear

/-- The word of a command has its reserved bits 0, and IDX holds the index of KSEL and 0 in every other command. -/
def Statement (i : Instr) : Prop :=
  (encode i).reservedLow = 0 ∧ (encode i).reservedHigh = 0 ∧
    (encode i).idx = match i with
      | .ksel idx => BitVec.ofNat 5 idx
      | _ => 0

theorem nop : Statement (.nop) :=
  ⟨assemble_reservedLow .., assemble_reservedHigh .., assemble_idx ..⟩

theorem clr : Statement (.clr) :=
  ⟨assemble_reservedLow .., assemble_reservedHigh .., assemble_idx ..⟩

theorem kgen : Statement (.kgen) :=
  ⟨assemble_reservedLow .., assemble_reservedHigh .., assemble_idx ..⟩

theorem kset : Statement (.kset) :=
  ⟨assemble_reservedLow .., assemble_reservedHigh .., assemble_idx ..⟩

theorem kdrv : Statement (.kdrv) :=
  ⟨assemble_reservedLow .., assemble_reservedHigh .., assemble_idx ..⟩

theorem kadv : Statement (.kadv) :=
  ⟨assemble_reservedLow .., assemble_reservedHigh .., assemble_idx ..⟩

theorem ksel (idx : Nat) : Statement (.ksel idx) :=
  ⟨assemble_reservedLow .., assemble_reservedHigh .., assemble_idx ..⟩

theorem kbase : Statement (.kbase) :=
  ⟨assemble_reservedLow .., assemble_reservedHigh .., assemble_idx ..⟩

theorem sgen : Statement (.sgen) :=
  ⟨assemble_reservedLow .., assemble_reservedHigh .., assemble_idx ..⟩

theorem sinv : Statement (.sinv) :=
  ⟨assemble_reservedLow .., assemble_reservedHigh .., assemble_idx ..⟩

theorem subF : Statement (.subF) :=
  ⟨assemble_reservedLow .., assemble_reservedHigh .., assemble_idx ..⟩

theorem subR : Statement (.subR) :=
  ⟨assemble_reservedLow .., assemble_reservedHigh .., assemble_idx ..⟩

theorem rotF : Statement (.rotF) :=
  ⟨assemble_reservedLow .., assemble_reservedHigh .., assemble_idx ..⟩

theorem rotR : Statement (.rotR) :=
  ⟨assemble_reservedLow .., assemble_reservedHigh .., assemble_idx ..⟩

theorem trnF : Statement (.trnF) :=
  ⟨assemble_reservedLow .., assemble_reservedHigh .., assemble_idx ..⟩

theorem trnR : Statement (.trnR) :=
  ⟨assemble_reservedLow .., assemble_reservedHigh .., assemble_idx ..⟩

theorem mix : Statement (.mix) :=
  ⟨assemble_reservedLow .., assemble_reservedHigh .., assemble_idx ..⟩

theorem chnF : Statement (.chnF) :=
  ⟨assemble_reservedLow .., assemble_reservedHigh .., assemble_idx ..⟩

theorem chnR : Statement (.chnR) :=
  ⟨assemble_reservedLow .., assemble_reservedHigh .., assemble_idx ..⟩

theorem pad : Statement (.pad) :=
  ⟨assemble_reservedLow .., assemble_reservedHigh .., assemble_idx ..⟩

theorem chunk : Statement (.chunk) :=
  ⟨assemble_reservedLow .., assemble_reservedHigh .., assemble_idx ..⟩

theorem unpad : Statement (.unpad) :=
  ⟨assemble_reservedLow .., assemble_reservedHigh .., assemble_idx ..⟩

theorem enc : Statement (.enc) :=
  ⟨assemble_reservedLow .., assemble_reservedHigh .., assemble_idx ..⟩

theorem encg : Statement (.encg) :=
  ⟨assemble_reservedLow .., assemble_reservedHigh .., assemble_idx ..⟩

theorem dec : Statement (.dec) :=
  ⟨assemble_reservedLow .., assemble_reservedHigh .., assemble_idx ..⟩

end Sys2Proof.Laws.ReservedClear
end

