-- ==== Sys2Proof/Laws/Rounds.lean ====
section
/-! SUPPORT. The functional forms of encryption and decryption undo each other (spec 48_orchestrator.md R260, R263). -/

namespace Sys2Proof.Machine

theorem substituteBlock_invertTable {t : Table} (h : Table.distinct t) (b : Block) :
    substituteBlock (invertTable t) (substituteBlock t b) = b := by
  refine Vector.ext fun n hn => ?_
  simp only [substituteBlock, Vector.getElem_map]
  exact invertTable_getElem h b[n]

theorem decryptRounds_encryptRounds (k : KeyMatrix) (r : Nat) (b : Block) :
    decryptRounds k r (encryptRounds k r b) = b := by
  induction r with
  | zero => rfl
  | succ r ih =>
    rw [encryptRounds, decryptRounds, reverseTranspose_transpose, rotateReverse_rotateForward, xor16_xor16, ih]

/-- A whole block of the message is its own chunked block. -/
theorem chunkedBlock_of_le (m : Memory) {n i : Nat} (h : 16 * (i + 1) ≤ n) : chunkedBlock m n i = Memory.block m i := by
  refine Vector.ext fun j hj => ?_
  simp only [chunkedBlock, Vector.getElem_ofFn, Memory.block_getElem]
  rw [if_pos (by omega)]

/-- Decryption of a buffer that holds the ciphertext gives the padded message back, block by block. -/
theorem plainBlock_of_cipherBlock {x : SboxDraw} {k : KeyMatrix} {r n n' i : Nat} {m m' : Memory}
    (hn : 16 * (i + 1) ≤ n') (h : ∀ j, j ≤ i → Memory.block m' j = cipherBlock x k r m n j) :
    plainBlock x k r m' n' i = paddedBlock m n i := by
  rw [plainBlock, chunkedBlock_of_le m' hn, h i (Nat.le_refl i)]
  cases i with
  | zero =>
    rw [cipherBlock, chainedBefore, xor16_xor16, decryptRounds_encryptRounds,
      substituteBlock_invertTable (genSbox_distinct x k)]
  | succ i =>
    rw [cipherBlock, chainedBefore, chunkedBlock_of_le m' (by omega), h i (Nat.le_succ i), xor16_xor16,
      decryptRounds_encryptRounds, substituteBlock_invertTable (genSbox_distinct x k)]

end Sys2Proof.Machine
end

