-- ==== Sys2Proof/Machine/Listing.lean ====
section
/-! DEFINITION. The listing syntax, the pseudo-commands and the host procedures as events (spec 30_encoding.md R98,
R99; 70_reset_and_hazards.md R335, R336). No step depends on this file: it writes down host programs. -/

namespace Sys2Proof.Machine

/-- The lines of a listing (R98). -/
inductive Line
  /-- A command: the CMD write, then the wait for `BUSY = 0`. -/
  | cmd (i : Instr)
  /-- `WR offset, value`. -/
  | wr (off : Nat) (value : Word)
  /-- `RD offset`. -/
  | rd (off : Nat)
  /-- `KEY` and 16 bytes. -/
  | key (k : KeyMatrix)
  /-- `RKEY` and 16 bytes. -/
  | rkey (k : KeyMatrix)
  /-- `MSG` and the bytes of the message. -/
  | msg (bytes : List Byte)
deriving DecidableEq, Repr

/-- The `ceil(n/4)` writes that load the bytes from `BUF[4k]` up, unused lanes written as 0 (R98). -/
def loadWords : Nat → List Byte → List Event
  | _, [] => []
  | k, b0 :: b1 :: b2 :: b3 :: bs => .write 32 (0x1000 + 4 * k) (lanes b0 b1 b2 b3) :: loadWords (k + 1) bs
  | k, [b0, b1, b2] => [.write 32 (0x1000 + 4 * k) (lanes b0 b1 b2 0)]
  | k, [b0, b1] => [.write 32 (0x1000 + 4 * k) (lanes b0 b1 0 0)]
  | k, [b0] => [.write 32 (0x1000 + 4 * k) (lanes b0 0 0 0)]

/-- The four writes that load a grid at `base` (R98). -/
def loadRows (base : Nat) (k : KeyMatrix) : List Event :=
  [.write 32 base (rowWord k 0), .write 32 (base + 4) (rowWord k 1), .write 32 (base + 8) (rowWord k 2),
   .write 32 (base + 12) (rowWord k 3)]

/-- A line as events. For a command this is the schedule in which the engine's step falls before the first poll;
every other schedule is as legal (R345). -/
def Line.events : Line → List Event
  | .cmd i => [.write 32 0x004 (encode i), .engine, .read 32 0x008]
  | .wr off v => [.write 32 off v]
  | .rd off => [.read 32 off]
  | .key k => loadRows 0x020 k
  | .rkey k => loadRows 0x030 k
  | .msg bytes => loadWords 0 bytes ++ [.write 32 0x018 (BitVec.ofNat 32 bytes.length)]

/-- A listing as events. -/
def listing (ls : List Line) : List Event := ls.flatMap Line.events

/-- The pseudo-command ROUND.F (R99). -/
def pseudoRoundF : List Instr := [.mix, .rotF, .trnF, .kadv]

/-- The pseudo-command ROUND.R idx (R99). -/
def pseudoRoundR (idx : Nat) : List Instr := [.ksel idx, .trnR, .rotR, .mix]

/-- The pseudo-command SPREP (R99). -/
def pseudoSprep : List Instr := [.sgen, .sinv]

/-- The reads of `n` message bytes from BUF (R335 step 9, R336 step 5). -/
def readMessage (n : Nat) : List Line := (List.range ((n + 3) / 4)).map fun k => .rd (0x1000 + 4 * k)

/-- The transactions of R335 for a message whose run does not fault: load, ENCG, read key, ROUNDS, LEN and the
ciphertext of `16 * (n div 16 + 1)` bytes, wipe. -/
def encryptProcedure (message : List Byte) : List Line :=
  [.msg message, .cmd .encg, .rd 0x020, .rd 0x024, .rd 0x028, .rd 0x02C, .rd 0x014, .rd 0x018]
    ++ readMessage (16 * (message.length / 16 + 1)) ++ [.cmd .clr]

/-- The transactions of R336 for a ciphertext whose run does not fault: load, DEC, read LEN and the `n` bytes LEN
then gives, wipe. -/
def decryptProcedure (key : KeyMatrix) (ciphertext : List Byte) (n : Nat) : List Line :=
  [.key key, .msg ciphertext, .cmd .dec, .rd 0x018] ++ readMessage n ++ [.cmd .clr]

/-- What the host does after a fault (R335 step 6, R336 step 4): read ERRINFO, then CLR. -/
def recoverProcedure : List Line := [.rd 0x00C, .cmd .clr]

end Sys2Proof.Machine
end

