-- ==== Sys2Proof/Tests/Slice0.lean ====
section
/-! SUPPORT. The model's own tests. Every command word is written out from 30_encoding.md R93; the expected results are
those of spec/95_test_vectors.md (the vector is named). At the end stands, for each statement with hypotheses, a
concrete state and operands that meet them. -/

open Sys2Proof Sys2Proof.Machine

namespace Sys2Proof.Tests

/-! ## Well-formedness and decoding -/

/-- The only field that can be ill-formed: an index of KSEL that needs more than 5 bits. -/
theorem test_wellFormed_refuses_ksel_32 : (Instr.ksel 32).wellFormed = false := by decide
theorem test_wellFormed_ksel_31 : (Instr.ksel 31).wellFormed = true := by decide

theorem test_decode_nop : decode 0x00000000 = .ok .nop := by decide
theorem test_decode_clr : decode 0x00000001 = .ok .clr := by decide
theorem test_decode_kgen : decode 0x00000010 = .ok .kgen := by decide
theorem test_decode_kset : decode 0x00000011 = .ok .kset := by decide
theorem test_decode_kdrv : decode 0x00000012 = .ok .kdrv := by decide
theorem test_decode_kadv : decode 0x00000013 = .ok .kadv := by decide
theorem test_decode_ksel : decode 0x00050014 = .ok (.ksel 5) := by decide
theorem test_decode_kbase : decode 0x00000015 = .ok .kbase := by decide
theorem test_decode_sgen : decode 0x00000020 = .ok .sgen := by decide
theorem test_decode_sinv : decode 0x00000021 = .ok .sinv := by decide
theorem test_decode_subF : decode 0x00000022 = .ok .subF := by decide
theorem test_decode_subR : decode 0x00000122 = .ok .subR := by decide
theorem test_decode_rotF : decode 0x00000030 = .ok .rotF := by decide
theorem test_decode_rotR : decode 0x00000130 = .ok .rotR := by decide
theorem test_decode_trnF : decode 0x00000040 = .ok .trnF := by decide
theorem test_decode_trnR : decode 0x00000140 = .ok .trnR := by decide
theorem test_decode_mix : decode 0x00000050 = .ok .mix := by decide
theorem test_decode_chnF : decode 0x00000060 = .ok .chnF := by decide
theorem test_decode_chnR : decode 0x00000160 = .ok .chnR := by decide
theorem test_decode_pad : decode 0x00000070 = .ok .pad := by decide
theorem test_decode_chunk : decode 0x00000071 = .ok .chunk := by decide
theorem test_decode_unpad : decode 0x00000072 = .ok .unpad := by decide
theorem test_decode_enc : decode 0x00000080 = .ok .enc := by decide
theorem test_decode_encg : decode 0x00000280 = .ok .encg := by decide
theorem test_decode_dec : decode 0x00000081 = .ok .dec := by decide

/-- Words of V6, one for each way of being ILLEGAL. -/
theorem test_decode_illegal :
    decode 0x00000016 = .error .unassignedOpc ∧ decode 0x00000150 = .error .dirSet ∧
      decode 0x00000281 = .error .genSet ∧ decode 0x00010020 = .error .idxSet ∧
      decode 0x00200014 = .error .reservedBits ∧ decode 0x00008000 = .error .reservedBits := by decide

theorem test_decodeTableWord : decodeTableWord 32 0x00050014 = some (.ksel 5) ∧ decodeTableWord 8 0x81 = some .dec ∧
    decodeTableWord 32 0x00000002 = none := by decide

/-! ## Helpers -/

/-- TK1 of the vectors. -/
def testKey : Block := #v[0x05, 0x01, 0x02, 0x03, 0x04, 0x05, 0x06, 0x07, 0x08, 0x09, 0x0a, 0x0b, 0x0c, 0x0d, 0x0e, 0x0f]

/-- B1 of the vectors. -/
def block1 : Block := #v[0x00, 0x11, 0x22, 0x33, 0x44, 0x55, 0x66, 0x77, 0x88, 0x99, 0xaa, 0xbb, 0xcc, 0xdd, 0xee, 0xff]

/-- B2 of the vectors. -/
def block2 : Block := #v[0x0f, 0x0e, 0x0d, 0x0c, 0x0b, 0x0a, 0x09, 0x08, 0x07, 0x06, 0x05, 0x04, 0x03, 0x02, 0x01, 0x00]

/-- After reset, with a key, a round key and a message loaded. -/
def loaded (key rk : Block) (message : List Byte) : State :=
  { State.reset with data := { Data.zero with
      key := key, rk := rk, buf := Memory.writeBytes [] 0 message, len := BitVec.ofNat 32 message.length } }

/-- After reset, with LEN written. -/
def withLen (len : Word) : State := { State.reset with data := { Data.zero with len := len } }

/-- The state after the very next step performs the command word `w`. -/
def performed (s : State) (w : Nat) : Option State :=
  match step (State.withFetchWord s 32 w) with
  | .next t => some t
  | .fault _ => none
  | .refused _ => none

/-- The message bytes. -/
def message (s : State) : List Byte := (List.range s.data.len.toNat).map (Memory.read s.data.buf)

/-- STATUS and ERRINFO after the command word `w`. -/
def report (s : State) (w : Nat) : Option (Word × Word) :=
  (performed s w).map fun t => (State.statusWord t, State.errinfoWord t)

/-! ## One step on the spec's vectors -/

/-- V5. -/
theorem test_nop : report State.reset 0x00 = some (0x00000002, 0) := by decide +kernel

/-- V90: CLR leaves the fault state. -/
theorem test_clr : report { State.reset with err := true, ecode := 0x11, eopc := 0x12, ieErr := true } 0x01 =
    some (0x00000002, 0) := by decide +kernel

/-- R134: the flags after KGEN, whatever the draw. -/
theorem test_kgen : (performed (loaded testKey testKey []) 0x10).map State.statusWord = some 0x00000102 := by
  decide +kernel

/-- R136. -/
theorem test_kset : report (loaded testKey testKey []) 0x11 = some (0x00000102, 0) := by decide +kernel
theorem test_kset_25 : report (loaded (testKey.set 0 25) testKey []) 0x11 = some (0x00000004, 0x00001106) := by
  decide +kernel

/-- V90. -/
theorem test_kdrv_notReady : report State.reset 0x12 = some (0x00000004, 0x00001211) := by decide +kernel

/-- V23: RKS[1] of TK1. -/
theorem test_kdrv : (performed { loaded (testKey.set 0 1) testKey [] with
    data := { (loaded testKey testKey []).data with r := 1, kv := true } } 0x12).map (fun t => t.data.rks[1][0]) =
    some 0xfa := by decide +kernel

/-- V24. -/
theorem test_kadv : (performed (loaded testKey testKey []) 0x13).map (fun t => rowWord t.data.rk 0) =
    some 0xe6c9e0fa := by decide +kernel

/-- V25: NotReady before the index; the index above R. -/
theorem test_ksel_notReady : report State.reset 0x001f0014 = some (0x00000004, 0x00001411) := by decide +kernel
theorem test_ksel_range : report { State.reset with data := { Data.zero with r := 5, kv := true, qv := true } }
    0x00060014 = some (0x00000004, 0x00001414) := by decide +kernel

/-- V24. -/
theorem test_kbase : (performed (loaded testKey block1 []) 0x15).map (fun t => t.data.rk) = some testKey := by
  decide +kernel

/-- V30: the flags; V30 and V34 give the first draw, 129 for i = 255. -/
theorem test_sgen : report (loaded testKey testKey []) 0x20 = some (0x00000402, 0) := by decide +kernel
theorem test_sgen_first_draw : digestCounterDraw (sha256 testKey.toList) 255 = 129 := by decide +kernel

/-- V34. -/
theorem test_sinv_notReady : report State.reset 0x21 = some (0x00000004, 0x00002111) := by decide +kernel

/-- R187: a table that complements; R189 reads INV. -/
theorem test_subF : (performed { loaded testKey testKey block1.toList with
    data := { (loaded testKey testKey block1.toList).data with
      sbox := Vector.ofFn fun i => BitVec.ofNat 8 (255 - i.val)
      sv := true } } 0x22).map message = some ((block1.map fun b => ~~~b).toList) := by decide +kernel
theorem test_subR : report { loaded testKey testKey block1.toList with
    data := { (loaded testKey testKey block1.toList).data with sv := true } } 0x122 = some (0x00000004, 0x00002211) := by
  decide +kernel

/-- V40. -/
theorem test_rotations : rotl8 0x96 3 = 0xb4 ∧ rotr8 0x96 3 = 0xd2 ∧ rotl8 0x12 0 = 0x12 := by decide

/-- V41, two blocks. -/
theorem test_rotF : (performed (loaded testKey testKey (block1.toList ++ block2.toList)) 0x30).map message =
    some ([0x00, 0x88, 0x11, 0x99, 0x11, 0x55, 0x99, 0xdd, 0x22, 0x66, 0xaa, 0xee, 0x33, 0x77, 0xbb, 0xff,
      0x78, 0x70, 0x68, 0x60, 0xc2, 0x82, 0x42, 0x02, 0xc1, 0x81, 0x41, 0x01, 0xc0, 0x80, 0x40, 0x00]) := by decide +kernel

/-- V41. -/
theorem test_rotR : (performed (loaded testKey testKey block1.toList) 0x130).map message =
    some ([0x00, 0x22, 0x44, 0x66, 0x11, 0x55, 0x99, 0xdd, 0x22, 0x66, 0xaa, 0xee, 0x33, 0x77, 0xbb, 0xff]) := by decide +kernel

/-- V50. -/
theorem test_trnF : (performed (loaded testKey testKey block1.toList) 0x40).map message =
    some ([0xff, 0xcc, 0xdd, 0xee, 0x33, 0x00, 0x11, 0x22, 0x77, 0x44, 0x55, 0x66, 0xbb, 0x88, 0x99, 0xaa]) := by decide +kernel

/-- V50. -/
theorem test_trnR : (performed (loaded testKey testKey block1.toList) 0x140).map message =
    some ([0x55, 0x66, 0x77, 0x44, 0x99, 0xaa, 0xbb, 0x88, 0xdd, 0xee, 0xff, 0xcc, 0x11, 0x22, 0x33, 0x00]) := by decide +kernel

/-- V51, V52, V57: ties keep the order of the indices, bytes are unsigned. -/
theorem test_perm : [perm (((testKey.set 0 0xc8).set 1 0x10).set 2 0x2a |>.set 3 0x10)].map (fun p => [p 0, p 1, p 2, p 3])
      = [[1, 3, 2, 0]] ∧
    [perm (((testKey.set 0 0x80).set 1 0x80).set 2 0x7f |>.set 3 0x80)].map (fun p => [p 0, p 1, p 2, p 3])
      = [[2, 0, 1, 3]] := by decide +kernel

/-- V60. -/
theorem test_mix : (performed (loaded testKey testKey (block1.toList ++ block2.toList)) 0x50).map message =
    some ([0x05, 0x10, 0x20, 0x30, 0x40, 0x50, 0x60, 0x70, 0x80, 0x90, 0xa0, 0xb0, 0xc0, 0xd0, 0xe0, 0xf0,
      0x0a, 0x0f, 0x0f, 0x0f, 0x0f, 0x0f, 0x0f, 0x0f, 0x0f, 0x0f, 0x0f, 0x0f, 0x0f, 0x0f, 0x0f, 0x0f]) := by decide +kernel

/-- V65. -/
theorem test_chnF : (performed (loaded testKey testKey (block1.toList ++ block2.toList ++ block1.toList)) 0x60).map message =
    some ([0x05, 0x10, 0x20, 0x30, 0x40, 0x50, 0x60, 0x70, 0x80, 0x90, 0xa0, 0xb0, 0xc0, 0xd0, 0xe0, 0xf0,
      0x0a, 0x1e, 0x2d, 0x3c, 0x4b, 0x5a, 0x69, 0x78, 0x87, 0x96, 0xa5, 0xb4, 0xc3, 0xd2, 0xe1, 0xf0,
      0x0a, 0x0f, 0x0f, 0x0f, 0x0f, 0x0f, 0x0f, 0x0f, 0x0f, 0x0f, 0x0f, 0x0f, 0x0f, 0x0f, 0x0f, 0x0f]) := by decide +kernel

/-- V65. -/
theorem test_chnR : (performed (loaded testKey testKey (block1.toList ++ block2.toList ++ block1.toList)) 0x160).map message =
    some ([0x05, 0x10, 0x20, 0x30, 0x40, 0x50, 0x60, 0x70, 0x80, 0x90, 0xa0, 0xb0, 0xc0, 0xd0, 0xe0, 0xf0,
      0x0f, 0x1f, 0x2f, 0x3f, 0x4f, 0x5f, 0x6f, 0x7f, 0x8f, 0x9f, 0xaf, 0xbf, 0xcf, 0xdf, 0xef, 0xff,
      0x0f, 0x1f, 0x2f, 0x3f, 0x4f, 0x5f, 0x6f, 0x7f, 0x8f, 0x9f, 0xaf, 0xbf, 0xcf, 0xdf, 0xef, 0xff]) := by decide +kernel

/-- V42, V61, V66: the length checks. -/
theorem test_blockShape : report (withLen 8) 0x30 = some (0x00000004, 0x00003013) ∧
    report (withLen 24) 0x160 = some (0x00000004, 0x00006013) ∧
    report (withLen 4097) 0x130 = some (0x00000004, 0x00003012) := by decide +kernel

/-- V10: 3 bytes, and an aligned message gets a whole block. -/
theorem test_pad : (performed (loaded testKey testKey [0x41, 0x42, 0x43]) 0x70).map message =
    some [0x41, 0x42, 0x43, 0x80, 0, 0, 0, 0, 0, 0, 0, 0, 0, 0, 0, 0] := by decide +kernel
theorem test_pad_aligned : (performed (loaded testKey testKey block2.toList) 0x70).map (fun t => t.data.len) = some 32 := by
  decide +kernel

/-- R113: the bytes above LEN up to the block's end become zero. -/
theorem test_chunk : (performed { loaded testKey testKey block1.toList with
    data := { (loaded testKey testKey block1.toList).data with len := 3 } } 0x71).map message =
    some [0x00, 0x11, 0x22, 0, 0, 0, 0, 0, 0, 0, 0, 0, 0, 0, 0, 0] := by decide +kernel

/-- V14 and P3: the sentinel, and a byte that is neither 0x80 nor zero. -/
theorem test_unpad : (performed (loaded testKey testKey
    [0x61, 0x62, 0x63, 0x80, 0, 0, 0, 0, 0, 0, 0, 0, 0, 0, 0, 0]) 0x72).map (fun t => t.data.len) = some 3 := by
  decide +kernel
theorem test_unpad_invalid : report (loaded testKey testKey
    [0x61, 0x62, 0x63, 0x81, 0, 0, 0, 0, 0, 0, 0, 0, 0, 0, 0, 0]) 0x72 = some (0x00000004, 0x00007204) := by
  decide +kernel

/-- V78: the round count before the length; the generated key is legal; the empty ciphertext. -/
theorem test_enc_roundCount : report (withLen 4096) 0x80 = some (0x00000004, 0x00008006) := by decide +kernel
theorem test_encg_overflow : report (withLen 4096) 0x280 = some (0x00000004, 0x00008012) := by decide +kernel
theorem test_dec_roundCount : report (loaded (testKey.set 0 25) testKey block1.toList) 0x81 =
    some (0x00000004, 0x00008106) := by decide +kernel

/-- V2 and V3: byte lanes, an unmapped offset, the last word of BUF. -/
theorem test_port : (State.hostWrite State.reset 32 0x1000 0x64636261).data.buf =
      [(0, 0x61), (1, 0x62), (2, 0x63), (3, 0x64)] ∧
    (State.hostRead State.reset 32 0x040).response = some ⟨.error, 0⟩ ∧
    (State.hostRead State.reset 32 0x1FFC).response = some ⟨.ok, 0⟩ ∧
    (State.hostRead State.reset 16 0x000).response = some ⟨.error, 0⟩ := by decide +kernel

/-- P4: while busy a read of BUF answers 0 and sets BACC, a second command is dropped. -/
theorem test_busy : State.statusWord (State.hostWrite (State.hostRead (State.hostWrite State.reset 32 0x004 0x80)
    32 0x1000) 32 0x004 0) = 0x00000009 := by decide +kernel

/-- R98: the writes of `MSG 616263`. -/
theorem test_listing : listing [.msg [0x61, 0x62, 0x63], .cmd .encg] = [.write 32 0x1000 0x00636261, .write 32 0x018 3,
    .write 32 0x004 0x00000280, .engine, .read 32 0x008] := by decide +kernel

/-! ## Witnesses: states and operands that meet the hypotheses of the statements -/

/-- A legal capacity, and BUF in its canonical form. -/
theorem loaded_legal (k rk : Block) (m : List Byte) : (loaded k rk m).params.legal := by
  show Params.default.legal
  decide

theorem loaded_wf (k rk : Block) (m : List Byte) : Memory.wf (loaded k rk m).data.buf :=
  Memory.wf_writeBytes Memory.wf_nil 0 m

theorem withLen_legal (n : Word) : (withLen n).params.legal := loaded_legal testKey testKey []

theorem withLen_wf (n : Word) : Memory.wf (withLen n).data.buf := Memory.wf_nil

/-- A CLR pending in the fault state. -/
def clearing : State := { State.reset with err := true, busy := true, pend := 1, ecode := 0x11, eopc := 0x12 }

/-- The fault state, idle, the next event a read of KEY0. -/
def faulted : State := { State.reset with err := true, ecode := 0x11, eopc := 0x12, events := [.read 32 0x020] }

theorem clearing_inv : clearing.Inv where
  legal := loaded_legal testKey testKey []
  canonical := Memory.wf_nil
  capacity := fun _ h => by cases h
  busyOrDone := by decide
  doneOrErr := by decide
  onlyClr := fun _ _ => rfl
  noError := fun h => by cases h
  someError := fun _ => ⟨.notReady, rfl⟩
  consistent := fun h => by cases h

theorem faulted_inv : faulted.Inv where
  legal := loaded_legal testKey testKey []
  canonical := Memory.wf_nil
  capacity := fun _ h => by cases h
  busyOrDone := by decide
  doneOrErr := by decide
  onlyClr := fun h => by cases h
  noError := fun h => by cases h
  someError := fun _ => ⟨.notReady, rfl⟩
  consistent := fun h => by cases h

/-- Both tables valid, one block of zeros as the message. -/
def tabled : State := { State.reset with data := { Data.zero with
  sbox := genSbox Params.default.sboxDraw Data.zero.key
  inv := invertTable (genSbox Params.default.sboxDraw Data.zero.key)
  len := 16, sv := true, nv := true } }

theorem tabled_inv : tabled.Inv where
  legal := loaded_legal testKey testKey []
  canonical := Memory.wf_nil
  capacity := fun _ h => by cases h
  busyOrDone := by decide
  doneOrErr := by decide
  onlyClr := fun h => by cases h
  noError := fun _ => ⟨rfl, rfl⟩
  someError := fun h => by cases h
  consistent := fun _ =>
    { count := fun h => by cases h
      noCount := fun _ => rfl
      sequence := fun h => by cases h
      table := fun _ => by simp only [tabled, State.reset]
      inverse := fun _ => ⟨rfl, by simp only [tabled]⟩ }

theorem witness_DecodeOfEncode : (Instr.ksel 31).wellFormed = true ∧ Instr.encg.wellFormed = true := by decide

theorem witness_DecodedWordIsItsEncoding : decode 0x001f0014 = .ok (.ksel 31) := by decide

theorem witness_StepPerformsThePendingCommand :
    ({ State.reset with busy := true } : State).events = [] ∧
    decode ({ State.reset with busy := true } : State).pend = .ok .nop ∧
    ({ State.reset with events := [.engine] } : State).events = .engine :: [] ∧
    ({ State.reset with events := [.engine] } : State).busy = false ∧
    ({ State.reset with events := [.read 32 0x020, .engine] } : State).events = .read 32 0x020 :: [.engine] ∧
    ({ State.reset with events := [.write 8 0x1001 5] } : State).events = .write 8 0x1001 5 :: [] :=
  ⟨rfl, by decide, rfl, rfl, rfl, rfl⟩

theorem witness_IllegalWordFaults :
    ({ State.reset with busy := true, pend := 2, events := [.engine, .reset] } : State).events = .engine :: [.reset] ∧
    decode ({ State.reset with busy := true, pend := 2, events := [.engine, .reset] } : State).pend =
      .error .unassignedOpc := ⟨rfl, by decide⟩

theorem witness_ResetEventZeroesEverything :
    ({ clearing with events := [.reset, .engine] } : State).events = .reset :: [.engine] := rfl

theorem witness_StepKeepsTheInvariant : clearing.Inv ∧ ∃ t, step clearing = .next t := ⟨clearing_inv, _, rfl⟩

theorem witness_ControlFrameOfCommands : (∃ t, exec .kgen State.reset = .next t) ∧ ∃ t, exec .clr State.reset = .next t :=
  ⟨⟨_, rfl⟩, _, rfl⟩

/-- PAD of the empty message: the first byte outside is byte 16. -/
theorem witness_CommandsWriteInsideTheMessage : ∃ t, exec .pad State.reset = .next t ∧ t.err = false ∧
    State.reset.params.legal ∧ Memory.wf State.reset.data.buf ∧ State.reset.data.len.toNat ≤ 16 ∧
    t.data.len.toNat ≤ 16 :=
  ⟨_, rfl, rfl, loaded_legal testKey testKey [], Memory.wf_nil, by decide, by decide +kernel⟩

theorem witness_CommandsCompleteOrFault : (∃ t, exec .nop State.reset = .next t ∧ t.err = false) ∧
    ∃ t, exec .kdrv State.reset = .next t ∧ t.err = true := ⟨⟨_, rfl, rfl⟩, _, rfl, rfl⟩

theorem witness_GeneratedKeyIsAlwaysAccepted : ∃ t, exec .kgen State.reset = .next t ∧
    ∃ u : State, u.data.key = t.data.key := ⟨_, rfl, _, rfl⟩

/-- Both ends of 1..24, and the values next to them. -/
theorem witness_KsetExtractsTheRoundCount :
    (loaded (testKey.set 0 1) testKey []).data.key[0].toNat = 1 ∧
    (loaded (testKey.set 0 24) testKey []).data.key[0].toNat = 24 ∧
    (loaded (testKey.set 0 0) testKey []).data.key[0].toNat < 1 ∧
    24 < (loaded (testKey.set 0 25) testKey []).data.key[0].toNat := by decide +kernel

theorem witness_KdrvDerivesTheSequence :
    (∃ s : State, s.data.kv = true ∧ 23 + 1 ≤ s.data.r.val) ∧
    (∃ s : State, s.data.kv = true ∧ s.data.r.val = 1 ∧ 0 + 1 ≤ s.data.r.val ∧ s.data.r.val < 2) ∧
    State.reset.data.kv = false :=
  ⟨⟨{ State.reset with data := { Data.zero with kv := true, r := 24 } }, by decide, by decide⟩,
    ⟨{ State.reset with data := { Data.zero with kv := true, r := 1 } }, by decide, by decide, by decide, by decide⟩, rfl⟩

theorem witness_RoundKeyCommandsSetRk :
    (∃ s : State, s.data.qv = true ∧ s.data.r.val = 24 ∧ 24 ≤ s.data.r.val ∧ s.data.r.val < 25) ∧
    (∃ s : State, s.data.qv = true ∧ 1 ≤ s.data.r.val ∧ s.data.r.val < 2) ∧ State.reset.data.qv = false :=
  ⟨⟨{ State.reset with data := { Data.zero with qv := true, r := 24 } }, by decide, by decide, by decide, by decide⟩,
    ⟨{ State.reset with data := { Data.zero with qv := true, r := 1 } }, by decide, by decide, by decide⟩, rfl⟩

theorem witness_TwoWaysToTheSameRoundKey :
    ∃ s : State, s.err = false ∧ s.data.kv = true ∧ 24 ≤ s.data.r.val ∧
      ∃ s' : State, s'.data.kv = true ∧ s'.data.key = s.data.key ∧ s'.data.r = s.data.r :=
  ⟨{ State.reset with data := { Data.zero with kv := true, r := 24 } }, by decide, by decide, by decide,
    { State.reset with busy := true, data := { Data.zero with kv := true, r := 24 } }, rfl, rfl, rfl⟩

/-- The longest and the empty message. -/
theorem witness_HashBlockLayout : (List.replicate 55 (0x61 : Byte)).length ≤ 55 ∧
    54 < (List.replicate 55 (0x61 : Byte)).length ∧ ([] : List Byte).length < 1 ∧ 55 < 56 ∧ 7 < 8 := by decide

theorem witness_MessageScheduleRecurrence : 15 < 16 ∧ 16 ≤ 16 ∧ 63 < 64 := by decide

/-- The longest message, the last round, and a word of the digest. -/
theorem witness_CompressionAndDigest : (List.replicate 55 (0x61 : Byte)).length ≤ 55 ∧ 63 < 64 ∧
    [hashInit.a, hashInit.b, hashInit.c, hashInit.d, hashInit.e, hashInit.f, hashInit.g, hashInit.h][(7 : Fin 8).val]? =
      some 0x5be0cd19 := by decide

/-- The first and the last swap, and both kinds of draw. -/
theorem witness_SgenBuildsTheTableOfKey : 254 < 255 ∧ 0 < 255 ∧ State.reset.params.sboxDraw = .digestCounter ∧
    ({ State.reset with params := { Params.default with sboxDraw := .other 3 } } : State).params.sboxDraw = .other 3 ∧
    255 < 256 := ⟨by decide, by decide, rfl, rfl, by decide⟩

theorem witness_GeneratedTableIsAPermutation :
    (∀ i : Nat, 1 ≤ i → i ≤ 255 → (fun _ => 0 : Nat → Nat) i ≤ i) ∧ (∀ i : Nat, 1 ≤ i → i ≤ 255 → id i ≤ i) ∧
    (shuffle (fun _ => 0) 255 identityTable)[(0 : Fin 256).val] =
      (shuffle (fun _ => 0) 255 identityTable)[(0 : Fin 256).val] ∧
    (genSbox .digestCounter testKey)[(255 : Fin 256).val] = (genSbox .digestCounter testKey)[(255 : Fin 256).val] :=
  ⟨fun _ _ _ => Nat.zero_le _, fun _ _ _ => Nat.le_refl _, rfl, rfl⟩

/-- A table of zeros: 255 is the last index mapped to 0, nothing is mapped to 1. -/
theorem witness_SinvInvertsTheTable : ∃ s : State, s.data.sv = true ∧
    (∀ j : Fin 256, (255 : Fin 256) < j → s.data.sbox[j.val] ≠ s.data.sbox[(255 : Fin 256).val]) ∧
    (∀ i : Fin 256, s.data.sbox[i.val] ≠ 0x01) ∧ State.reset.data.sv = false :=
  ⟨{ State.reset with data := { Data.zero with sv := true } }, rfl, by decide +kernel, by decide +kernel, rfl⟩

/-- One block, the whole buffer, and the empty message: the lengths the statements about the block commands (SUB, ROT,
TRN, MIX, CHN, UNPAD) ask for. -/
theorem witness_block_lengths :
    ((withLen 16).data.len.toNat ≤ (withLen 16).params.bufBytes ∧ (withLen 16).data.len.toNat % 16 = 0) ∧
    ((withLen 4096).data.len.toNat ≤ (withLen 4096).params.bufBytes ∧ (withLen 4096).data.len.toNat % 16 = 0 ∧
      255 < (withLen 4096).data.len.toNat / 16 ∧ 4095 < (withLen 4096).data.len.toNat) ∧
    ((withLen 0).data.len.toNat ≤ (withLen 0).params.bufBytes ∧ (withLen 0).data.len.toNat % 16 = 0) := by decide

theorem witness_SubstitutionReplacesMessageBytes : Memory.wf tabled.data.buf ∧
    tabled.data.len.toNat ≤ tabled.params.bufBytes ∧ tabled.data.len.toNat % 16 = 0 ∧
    tabled.data.sv = true ∧ tabled.data.nv = true := ⟨Memory.wf_nil, by decide, by decide, rfl, rfl⟩

theorem witness_SubstitutionFaultsInOrder :
    (∃ flag, (Instr.subF = .subF ∧ flag = State.reset.data.sv) ∧ flag = false) ∧
    (∃ (s : State) (flag : Bool), (Instr.subR = .subR ∧ flag = s.data.nv) ∧ flag = true ∧
      s.params.bufBytes < s.data.len.toNat) ∧
    (∃ (s : State) (flag : Bool), (Instr.subF = .subF ∧ flag = s.data.sv) ∧ flag = true ∧
      s.data.len.toNat ≤ s.params.bufBytes ∧ s.data.len.toNat % 16 ≠ 0) :=
  ⟨⟨false, ⟨rfl, rfl⟩, rfl⟩,
    ⟨{ tabled with data := { tabled.data with len := 4097 } }, true, ⟨rfl, rfl⟩, rfl, by decide⟩,
    ⟨{ tabled with data := { tabled.data with len := 4095 } }, true, ⟨rfl, rfl⟩, rfl, by decide, by decide⟩⟩

theorem witness_SubstitutionRoundTrip : tabled.Inv ∧ tabled.err = false ∧ tabled.data.sv = true ∧
    tabled.data.nv = true ∧ tabled.data.len.toNat ≤ tabled.params.bufBytes ∧ tabled.data.len.toNat % 16 = 0 :=
  ⟨tabled_inv, rfl, rfl, rfl, by decide, by decide⟩

/-- A loaded message of two blocks meets the hypotheses of DiffusionRotatesMessageBytes, RotationInvolution,
TranspositionMovesMessageBytes, TransposeInvolution, MixXorsTheRoundKey, MixTwiceRestores,
ChainingXorsThePreviousBlock and ChainingInvolution, with a block index, a byte of the first block and one of the
second. -/
theorem witness_two_blocks : ∃ s : State, s = loaded testKey testKey (block1.toList ++ block2.toList) ∧
    Memory.wf s.data.buf ∧ s.data.len.toNat ≤ s.params.bufBytes ∧ s.data.len.toNat % 16 = 0 ∧
    1 < s.data.len.toNat / 16 ∧ 15 < s.data.len.toNat ∧ 16 < s.data.len.toNat ∧ 31 < s.data.len.toNat :=
  ⟨_, rfl, loaded_wf .., by decide +kernel, by decide +kernel, by decide +kernel, by decide +kernel, by decide +kernel,
    by decide +kernel⟩

/-- `DiffusionRotatesMessageBytes`: the shift of row 3 of TK1 is 6 (V41). -/
theorem witness_DiffusionRotatesMessageBytes : 6 = (testKey[4 * (3 : Fin 4).val].toNat
    + testKey[4 * (3 : Fin 4).val + 1].toNat + testKey[4 * (3 : Fin 4).val + 2].toNat
    + testKey[4 * (3 : Fin 4).val + 3].toNat) % 8 := by decide +kernel

theorem witness_RotationInvolution : 0 ≤ 7 ∧ 7 ≤ 7 := by decide

/-- The rank of index 0 in the first row of TK1 is 3, that of index 3 is 2 (V50). -/
theorem witness_PermIsTheStableArgsort :
    ((3 : Fin 4).val = ((List.finRange 4).filter fun j => testKey[j.val].toNat < testKey[(0 : Fin 4).val].toNat).length
      + ((List.finRange 4).filter fun j =>
          j < 0 ∧ testKey[j.val].toNat = testKey[(0 : Fin 4).val].toNat).length) ∧
    ((2 : Fin 4).val = ((List.finRange 4).filter fun j => testKey[j.val].toNat < testKey[(3 : Fin 4).val].toNat).length
      + ((List.finRange 4).filter fun j =>
          j < 3 ∧ testKey[j.val].toNat = testKey[(3 : Fin 4).val].toNat).length) ∧
    (0 : Fin 4) < 3 := by decide +kernel

theorem witness_TransposeInvolution : [perm testKey 0, perm testKey 1, perm testKey 2, perm testKey 3] = [1, 2, 3, 0] := by
  decide +kernel

theorem witness_BlockCommandsFaultInOrder :
    Instr.rotF ∈ ([.rotF, .rotR, .trnF, .trnR, .mix, .chnF, .chnR, .unpad] : List Instr) ∧
    (withLen 4097).params.bufBytes < (withLen 4097).data.len.toNat ∧
    (withLen 4095).data.len.toNat ≤ (withLen 4095).params.bufBytes ∧ (withLen 4095).data.len.toNat % 16 ≠ 0 := by
  decide

/-- The longest message PAD takes, and the shortest it refuses. -/
theorem witness_PadAppendsTheSentinel :
    ((withLen 4095).params.legal ∧ Memory.wf (withLen 4095).data.buf ∧
      (withLen 4095).data.len.toNat ≤ (withLen 4095).params.bufBytes - 1) ∧
    ((withLen 4096).params.legal ∧ Memory.wf (withLen 4096).data.buf ∧
      (withLen 4096).params.bufBytes - 1 < (withLen 4096).data.len.toNat) :=
  ⟨⟨withLen_legal _, withLen_wf _, by decide⟩, withLen_legal _, withLen_wf _, by decide⟩

theorem witness_ChunkFillsTheLastBlock :
    ((withLen 4096).params.legal ∧ Memory.wf (withLen 4096).data.buf ∧
      (withLen 4096).data.len.toNat ≤ (withLen 4096).params.bufBytes ∧ (withLen 4096).data.len.toNat % 16 = 0) ∧
    ((withLen 4097).params.legal ∧ Memory.wf (withLen 4097).data.buf ∧
      (withLen 4097).params.bufBytes < (withLen 4097).data.len.toNat) :=
  ⟨⟨withLen_legal _, withLen_wf _, by decide, by decide⟩, withLen_legal _, withLen_wf _, by decide⟩

/-- The sentinel in the first and in the last byte of a block, and a message without one. -/
theorem witness_UnpadFindsTheSentinel :
    sentinelAt (Memory.read [(0, 0x80)]) 16 0 ∧ sentinelAt (Memory.read [(15, 0x80)]) 16 15 ∧
    ∀ j, ¬ sentinelAt (Memory.read []) 16 j := by
  refine ⟨⟨by decide, by decide, fun a h _ => ?_⟩, ⟨by decide, by decide, fun a h h' => by omega⟩, fun j h => ?_⟩
  · rw [Memory.read, if_neg (by simp only; omega)]
    rfl
  · have h0 : (0x00 : Byte) = 0x80 := h.2.1
    exact absurd h0 (by decide)

theorem witness_PaddingRoundTrip : (withLen 4095).params.legal ∧ Memory.wf (withLen 4095).data.buf ∧
    (withLen 4095).err = false ∧ (withLen 4095).data.len.toNat ≤ (withLen 4095).params.bufBytes - 1 :=
  ⟨withLen_legal _, withLen_wf _, rfl, by decide⟩

/-- The smallest and the largest round count, the longest message. -/
theorem witness_EncComputesTheCiphertext : ∀ n : Fin 2, ∃ s : State, s.params.legal ∧ Memory.wf s.data.buf ∧
    1 ≤ s.data.key[0].toNat ∧ s.data.key[0].toNat ≤ 24 ∧ s.data.key[0].toNat = 1 + 23 * n.val ∧
    s.data.len.toNat ≤ s.params.bufBytes - 1 ∧ s.data.len.toNat = 4095 ∧ 255 < s.data.len.toNat / 16 + 1
  | 0 => ⟨{ withLen 4095 with data := { (withLen 4095).data with key := testKey.set 0 1 } }, withLen_legal 0,
      withLen_wf 0, by decide +kernel, by decide +kernel, by decide +kernel, by decide, by decide, by decide⟩
  | 1 => ⟨{ withLen 4095 with data := { (withLen 4095).data with key := testKey.set 0 24 } }, withLen_legal 0,
      withLen_wf 0, by decide +kernel, by decide +kernel, by decide +kernel, by decide, by decide, by decide⟩

theorem witness_EncgEncryptsUnderTheDrawnKey : ∃ (s : State) (k : KeyMatrix) (r : Fin 25), s.params.legal ∧
    Memory.wf s.data.buf ∧
    k = (Config.entropy s.draws).bytes.set 0 (BitVec.ofNat 8 ((Config.entropy s.draws).count.val + 1)) ∧
    r.val = (Config.entropy s.draws).count.val + 1 ∧ s.data.len.toNat ≤ s.params.bufBytes - 1 :=
  ⟨withLen 4095, _, (Config.entropy 0).count.succ, withLen_legal _, withLen_wf _, rfl, rfl, by decide⟩

/-- A buffer that holds the ciphertext of the empty message, whose plaintext has its sentinel in byte 0; and the empty
ciphertext, which has none. -/
theorem witness_DecComputesThePlaintext :
    (∃ s : State, s.params.legal ∧ Memory.wf s.data.buf ∧ 1 ≤ s.data.key[0].toNat ∧ s.data.key[0].toNat ≤ 24 ∧
      s.data.len.toNat ≤ s.params.bufBytes ∧
      sentinelAt (plainByte s.params.sboxDraw s.data.key s.data.key[0].toNat s.data.buf s.data.len.toNat)
        (16 * ((s.data.len.toNat + 15) / 16)) 0) ∧
    (∃ s : State, s.params.legal ∧ Memory.wf s.data.buf ∧ 1 ≤ s.data.key[0].toNat ∧ s.data.key[0].toNat ≤ 24 ∧
      s.data.len.toNat ≤ s.params.bufBytes ∧
      ∀ j, ¬ sentinelAt (plainByte s.params.sboxDraw s.data.key s.data.key[0].toNat s.data.buf s.data.len.toNat)
        (16 * ((s.data.len.toNat + 15) / 16)) j) := by
  refine ⟨⟨{ withLen 16 with data := { (withLen 16).data with
      key := testKey
      buf := Memory.setBlock [] 0 (cipherBlock .digestCounter testKey 5 [] 0 0) } },
      withLen_legal 16, Memory.wf_setBlock Memory.wf_nil _ _, by decide +kernel, by decide +kernel, by decide, ?_⟩,
    ⟨{ withLen 0 with data := { (withLen 0).data with key := testKey } }, withLen_legal 0, withLen_wf 0,
      by decide +kernel, by decide +kernel, by decide, fun j h => absurd h.1 (Nat.not_lt_zero j)⟩⟩
  have hb : plainBlock .digestCounter testKey 5 (Memory.setBlock [] 0 (cipherBlock .digestCounter testKey 5 [] 0 0))
      16 0 = paddedBlock [] 0 0 :=
    plainBlock_of_cipherBlock (by decide) fun j hj => by
      obtain rfl : j = 0 := Nat.le_zero.mp hj
      rw [Memory.block_setBlock Memory.wf_nil, if_pos rfl]
  have hr : ∀ a, a < 16 → plainByte .digestCounter testKey 5
      (Memory.setBlock [] 0 (cipherBlock .digestCounter testKey 5 [] 0 0)) 16 a = if a = 0 then 0x80 else 0x00 := by
    intro a ha
    have h0 : a / 16 = 0 := by omega
    unfold plainByte
    simp only [h0, hb]
    simp only [paddedBlock, Vector.getElem_ofFn, show a % 16 = a by omega]
    rcases Nat.eq_zero_or_pos a with rfl | h
    · simp
    · rw [if_neg (by omega), if_neg (by omega), if_neg (by omega)]
  have hk : testKey[0].toNat = 5 := by decide +kernel
  show sentinelAt (plainByte .digestCounter testKey testKey[0].toNat
    (Memory.setBlock [] 0 (cipherBlock .digestCounter testKey 5 [] 0 0)) 16) 16 0
  rw [hk]
  exact ⟨by decide, hr 0 (by decide), fun a h h' => by rw [hr a h', if_neg (by omega)]⟩

theorem witness_MacroCommandsFaultInOrder :
    ((loaded (testKey.set 0 0) testKey []).data.key[0].toNat < 1 ∧
      24 < (loaded (testKey.set 0 25) testKey []).data.key[0].toNat) ∧
    (∃ s : State, 1 ≤ s.data.key[0].toNat ∧ s.data.key[0].toNat ≤ 24 ∧
      s.params.bufBytes - 1 < s.data.len.toNat ∧ ¬ s.params.bufBytes < s.data.len.toNat) ∧
    (∃ s : State, 1 ≤ s.data.key[0].toNat ∧ s.data.key[0].toNat ≤ 24 ∧ s.params.bufBytes < s.data.len.toNat) :=
  ⟨by decide +kernel,
    ⟨{ withLen 4096 with data := { (withLen 4096).data with key := testKey } }, by decide +kernel, by decide +kernel,
      by decide, by decide⟩,
    ⟨{ withLen 4097 with data := { (withLen 4097).data with key := testKey } }, by decide +kernel, by decide +kernel,
      by decide⟩⟩

/-- Both forms. The state `t` the statement gives meets the hypotheses on `t'` itself. -/
theorem witness_EncryptDecryptRoundTrip : ∀ c ∈ [Instr.enc, Instr.encg], ∃ s : State,
    (c = .enc ∧ 1 ≤ s.data.key[0].toNat ∧ s.data.key[0].toNat ≤ 24 ∨ c = .encg) ∧ s.params.legal ∧
    Memory.wf s.data.buf ∧ s.err = false ∧ s.data.len.toNat ≤ s.params.bufBytes - 1 := by
  intro c hc
  refine ⟨{ withLen 4095 with data := { (withLen 4095).data with key := testKey } }, ?_,
    withLen_legal 0, withLen_wf 0, rfl, by decide⟩
  rcases List.mem_cons.mp hc with rfl | hc
  · exact .inl ⟨rfl, by decide +kernel, by decide +kernel⟩
  · exact .inr (List.mem_singleton.mp hc)

/-- The ends of the mapped ranges. -/
theorem witness_mapped : ∀ off ∈ [0x000, 0x03C, 0x100, 0x2FC, 0x400, 0x58C, 0x1000, 0x1FFC],
    mappedOffset State.reset.params.bufBytes off := by
  unfold mappedOffset
  decide

/-- The offsets next to them, and misaligned ones. -/
theorem witness_unmapped : ∀ off ∈ [0x040, 0x0FC, 0x300, 0x3FC, 0x590, 0xFFC, 0x2000, 0x006, 0x1001, 0x1002],
    ¬ mappedOffset State.reset.params.bufBytes off := by
  unfold mappedOffset
  decide

theorem witness_BadAccessesChangeNothing : State.reset.params.legal ∧ 8 ≠ 32 ∧ 64 ≠ 32 ∧
    ¬ mappedOffset State.reset.params.bufBytes 0x040 :=
  ⟨withLen_legal 0, by decide, by decide, witness_unmapped 0x040 (by decide)⟩

theorem witness_BusyPortShieldsTheEngine : clearing.params.legal ∧ clearing.busy = true ∧
    mappedOffset clearing.params.bufBytes 0x01C ∧ servedOffset 0x01C ∧ servedOffset 0x000 ∧
    mappedOffset clearing.params.bufBytes 0x004 ∧ ¬ servedOffset 0x004 := by
  refine ⟨withLen_legal 0, rfl, ?_, ?_, ?_, ?_, ?_⟩ <;>
    first | (unfold mappedOffset; decide) | (unfold servedOffset; decide)

theorem witness_FaultStatePortGates : faulted.params.legal ∧ faulted.err = true ∧ faulted.busy = false ∧
    faulted.done = false ∧ mappedOffset faulted.params.bufBytes 0x004 ∧ mappedOffset faulted.params.bufBytes 0x008 ∧
    mappedOffset faulted.params.bufBytes 0x010 ∧ mappedOffset faulted.params.bufBytes 0x1FFC ∧
    servedOffset 0x01C ∧ ¬ servedOffset 0x1FFC := by
  refine ⟨withLen_legal 0, rfl, rfl, rfl, ?_, ?_, ?_, ?_, ?_, ?_⟩ <;>
    first | (unfold mappedOffset; decide) | (unfold servedOffset; decide)

theorem witness_IdleWritesLandInTheirLanes : State.reset.params.legal ∧ State.reset.busy = false ∧
    State.reset.err = false ∧ 4 * 1023 + 4 ≤ State.reset.params.bufBytes ∧ Memory.wf State.reset.data.buf ∧
    mappedOffset State.reset.params.bufBytes 0x01C ∧ mappedOffset State.reset.params.bufBytes 0x58C :=
  ⟨withLen_legal 0, rfl, rfl, by decide, Memory.wf_nil, by unfold mappedOffset; decide, by unfold mappedOffset; decide⟩

theorem witness_IdleReadsShowTheState : State.reset.params.legal ∧ State.reset.busy = false ∧
    State.reset.err = false ∧ servedOffset 0x000 ∧ servedOffset 0x01C ∧ 4 * 1023 + 4 ≤ State.reset.params.bufBytes :=
  ⟨withLen_legal 0, rfl, rfl, by unfold servedOffset; decide, by unfold servedOffset; decide, by decide⟩

theorem witness_StatusBitsAndInterrupt : 0 < 32 ∧ 31 < 32 := by decide

/-- The smallest and the largest capacity. -/
theorem witness_ReadsAfterReset :
    (∃ p : Params, p.legal ∧ p.bufBytes = 32 ∧ mappedOffset p.bufBytes 0x101C ∧ ¬ mappedOffset p.bufBytes 0x1020) ∧
    ∃ p : Params, p.legal ∧ p.bufBytes = 2 ^ 31 :=
  ⟨⟨⟨32, .digestCounter⟩, by decide, rfl, by unfold mappedOffset; decide, by unfold mappedOffset; decide⟩,
    ⟨2 ^ 31, .digestCounter⟩, by decide, rfl⟩

theorem witness_FaultStateIsLeftByClrOrReset :
    (clearing.Inv ∧ clearing.err = true ∧ ∃ t, step clearing = .next t ∧ t.err = false) ∧
    (faulted.Inv ∧ faulted.err = true ∧ ∃ t, step faulted = .next t ∧ t.err = true) :=
  ⟨⟨clearing_inv, rfl, _, rfl, rfl⟩, faulted_inv, rfl, _, rfl, rfl⟩

/-- Behind a CLR the two states become equal; behind a gated read they still differ. -/
theorem witness_HiddenStateIsUnobservable :
    (∃ t t' : State, step clearing = .next t ∧ step { clearing with data := tabled.data } = .next t' ∧
      t.err = false) ∧
    (∃ t t' : State, step faulted = .next t ∧ step { faulted with data := tabled.data } = .next t' ∧ t.err = true) :=
  ⟨⟨_, _, rfl, rfl, rfl⟩, _, _, rfl, rfl, rfl⟩

/-- Two transactions and then the engine's turn, the list at its end or not, with CLR and with an ILLEGAL word. -/
theorem witness_PendingCommandIsReached : ∀ rest ∈ [[], [Event.engine, .reset]], ∀ w ∈ [(1 : Word), 2], ∃ s : State,
    s.busy = true ∧ s.events = [.read 32 0x020, .write 32 0x020 5] ++ rest ∧
    (rest = [] ∨ ∃ es, rest = .engine :: es) ∧ s.pend = w ∧
    (decode s.pend = .ok .clr ∨ ∃ e, decode s.pend = .error e) ∧
    ∀ e ∈ ([.read 32 0x020, .write 32 0x020 5] : List Event),
      (∃ w o, e = .read w o) ∨ ∃ w o v, e = .write w o v := by
  intro rest hr w hw
  refine ⟨{ State.reset with busy := true, pend := w, events := [.read 32 0x020, .write 32 0x020 5] ++ rest },
    rfl, rfl, ?_, rfl, ?_, fun e h => ?_⟩
  · rcases List.mem_cons.mp hr with rfl | hr
    · exact .inl rfl
    · exact .inr ⟨_, List.mem_singleton.mp hr⟩
  · rcases List.mem_cons.mp hw with rfl | hw
    · exact .inl (show decode 1 = .ok .clr by decide)
    · rw [List.mem_singleton.mp hw]
      exact .inr ⟨.unassignedOpc, show decode 2 = .error .unassignedOpc by decide⟩
  · rcases List.mem_cons.mp h with rfl | h
    · exact .inl ⟨_, _, rfl⟩
    · rw [List.mem_singleton.mp h]
      exact .inr ⟨_, _, _, rfl⟩

end Sys2Proof.Tests
end

section
/-! PROOFS. Every step keeps `State.Inv` (10_state.md R25, R29 to R31, R38). The part of the invariant that speaks of
the data state, `Data.Sound`, is kept by every command body; what stands around the data is settled once for each way a
step can end. -/

namespace Sys2Proof.Machine

/-! ## The data state while `ERR = 0` -/

/-- What `State.Inv` says of the data state while `ERR = 0` (R30, R38). -/
structure Data.Sound (p : Params) (d : Data) : Prop where
  canonical : Memory.wf d.buf
  capacity : Memory.within d.buf p.bufBytes
  consistent : Data.Consistent p d

theorem State.Inv.sound {s : State} (h : s.Inv) (he : s.err = false) : s.data.Sound s.params :=
  ⟨h.canonical, h.capacity, h.consistent he⟩

/-- RK, BUF and LEN are free of the valid flags. -/
theorem Data.Consistent.with_rk_buf_len {p : Params} {d : Data} (h : d.Consistent p) (k : KeyMatrix) (m : Memory)
    (n : Word) : Data.Consistent p { d with rk := k, buf := m, len := n } :=
  ⟨h.count, h.noCount, h.sequence, h.table, h.inverse⟩

theorem Data.Sound.with_rk {p : Params} {d : Data} (h : d.Sound p) (k : KeyMatrix) :
    Data.Sound p { d with rk := k } :=
  ⟨h.canonical, h.capacity, h.consistent.with_rk_buf_len k d.buf d.len⟩

theorem Data.Sound.with_message {p : Params} {d : Data} (h : d.Sound p) {m : Memory} (n : Word) (hwf : Memory.wf m)
    (hin : Memory.within m p.bufBytes) : Data.Sound p { d with buf := m, len := n } :=
  ⟨hwf, hin, h.consistent.with_rk_buf_len d.rk m n⟩

/-- A new KEY is sound once every value derived from the old one is marked invalid (R22). -/
theorem Data.Sound.with_key {p : Params} {d : Data} (h : d.Sound p) (k : KeyMatrix) :
    Data.Sound p (Data.invalidate { d with key := k }) where
  canonical := h.canonical
  capacity := h.capacity
  consistent :=
    { count := nofun
      noCount := fun _ => rfl
      sequence := nofun
      table := nofun
      inverse := nofun }

/-- The data state after reset and CLR (R330, R266). -/
theorem Data.zero_sound (p : Params) : Data.zero.Sound p where
  canonical := Memory.wf_nil
  capacity := nofun
  consistent :=
    { count := nofun
      noCount := fun _ => rfl
      sequence := nofun
      table := nofun
      inverse := nofun }

/-! ## Bodies that keep the data sound -/

/-- Where `f` answers on sound data, its answer is sound. -/
def KeepsSound (p : Params) (f : Data → Except FaultKind Data) : Prop :=
  ∀ d d' : Data, d.Sound p → f d = .ok d' → d'.Sound p

theorem KeepsSound.bind {p : Params} {f g : Data → Except FaultKind Data} (hf : KeepsSound p f)
    (hg : KeepsSound p g) : KeepsSound p fun d => f d >>= g := fun d d' h hd => by
  obtain ⟨e, he, hd'⟩ := bind_ok.mp hd
  exact hg e d' (hf d e h he) hd'

theorem KeepsSound.loopUp {p : Params} {step : Nat → Data → Except FaultKind Data}
    (hs : ∀ i, KeepsSound p (step i)) (n : Nat) : KeepsSound p (loopUp step n) := fun _ _ h hd =>
  loopUp_keeps (P := fun _ e => e.Sound p) hd h fun i e e' _ => hs i e e'

theorem KeepsSound.loopDown {p : Params} {step : Nat → Data → Except FaultKind Data}
    (hs : ∀ i, KeepsSound p (step i)) (n : Nat) : KeepsSound p (loopDown step n) := fun _ _ h hd =>
  loopDown_keeps (P := fun _ e => e.Sound p) hd h fun i e e' _ => hs i e e'

theorem keepsSound_nop (p : Params) : KeepsSound p (Body.nop p) := fun _ _ h hd => by
  cases hd
  exact h

/-! ### Keys -/

/-- The key KGEN draws carries its own round count in byte 0 (R134). -/
theorem keepsSound_kgen (x : Draw) (p : Params) : KeepsSound p (Body.kgen x p) := fun d d' h hd => by
  cases hd
  have hr : x.rounds.val < 256 := by omega
  have hpos : 1 ≤ x.rounds.val := by simp [Draw.rounds]
  exact
    { canonical := h.canonical
      capacity := h.capacity
      consistent :=
        { count := fun _ => ⟨by simp [Nat.mod_eq_of_lt hr], hpos⟩
          noCount := nofun
          sequence := nofun
          table := nofun
          inverse := nofun } }

/-- What KSET does where it completes (R136). -/
theorem Body.kset_ok {p : Params} {d d' : Data} (h : Body.kset p d = .ok d') : 1 ≤ d.key[0].toNat ∧
    ∃ r : Fin 25, r.val = d.key[0].toNat ∧ d' = { d with r := r, kv := true } := by
  unfold Body.kset at h
  split at h
  · next hk => exact ⟨hk.1, _, rfl, (Except.ok.inj h).symm⟩
  · cases h

/-- A sequence that was valid before KSET stays valid, because `R` was already `KEY[0]` (R25). -/
theorem keepsSound_kset (p : Params) : KeepsSound p (Body.kset p) := fun d d' h hd => by
  obtain ⟨hpos, r, hr, rfl⟩ := Body.kset_ok hd
  exact
    { canonical := h.canonical
      capacity := h.capacity
      consistent :=
        { count := fun _ => ⟨hr, hr ▸ hpos⟩
          noCount := nofun
          sequence := fun hq => by
            obtain ⟨hkv, hrks⟩ := h.consistent.sequence hq
            have hsame : d.r = r := Fin.ext ((h.consistent.count hkv).1.trans hr.symm)
            exact ⟨rfl, hsame ▸ hrks⟩
          table := h.consistent.table
          inverse := h.consistent.inverse } }

theorem keepsSound_kdrv (p : Params) : KeepsSound p (Body.kdrv p) := fun d d' h hd => by
  obtain ⟨e, he, hd'⟩ := bind_ok.mp hd
  obtain ⟨hkv, rfl⟩ := needFlag_ok.mp he
  cases hd'
  exact ⟨h.canonical, h.capacity, h.consistent.count, h.consistent.noCount, fun _ => ⟨hkv, rfl⟩,
    h.consistent.table, h.consistent.inverse⟩

theorem keepsSound_kadv (p : Params) : KeepsSound p (Body.kadv p) := fun _ _ h hd => by
  cases hd
  exact h.with_rk _

theorem keepsSound_ksel (idx : Nat) (p : Params) : KeepsSound p (Body.ksel idx p) := fun d d' h hd => by
  obtain ⟨e, he, hd'⟩ := bind_ok.mp hd
  obtain ⟨-, rfl⟩ := needFlag_ok.mp he
  split at hd'
  · cases hd'
    exact h.with_rk _
  · cases hd'

theorem keepsSound_kbase (p : Params) : KeepsSound p (Body.kbase p) := fun _ _ h hd => by
  cases hd
  exact h.with_rk _

/-! ### Tables -/

/-- SGEN makes the table that of KEY and marks the inverse invalid (R184). -/
theorem keepsSound_sgen (p : Params) : KeepsSound p (Body.sgen p) := fun _ _ h hd => by
  cases hd
  exact ⟨h.canonical, h.capacity, h.consistent.count, h.consistent.noCount, h.consistent.sequence,
    fun _ => by simp only, nofun⟩

theorem keepsSound_sinv (p : Params) : KeepsSound p (Body.sinv p) := fun d d' h hd => by
  obtain ⟨e, he, hd'⟩ := bind_ok.mp hd
  obtain ⟨hsv, rfl⟩ := needFlag_ok.mp he
  cases hd'
  exact ⟨h.canonical, h.capacity, h.consistent.count, h.consistent.noCount, h.consistent.sequence,
    h.consistent.table, fun _ => ⟨hsv, rfl⟩⟩

/-! ### Layers -/

/-- The blocks of a message within the capacity lie within the capacity. -/
theorem Data.nblk_le {d : Data} {k : Nat} (h : d.len.toNat ≤ k) : 16 * d.nblk ≤ k :=
  (Nat.mul_div_le _ _).trans h

theorem keepsSound_blockLayer (f : Block → Block) (p : Params) : KeepsSound p (blockLayer f p) := fun d d' h hd => by
  obtain ⟨hlen, -, rfl⟩ := blockLayer_ok.mp hd
  exact h.with_message d.len (Memory.mapBlocks_spec h.canonical f d.nblk).1
    (Memory.within_mapBlocks h.capacity f (Data.nblk_le hlen))

theorem keepsSound_byteLayer (t : Table) (p : Params) : KeepsSound p (byteLayer t p) := fun d d' h hd => by
  obtain ⟨hlen, -, rfl⟩ := byteLayer_ok.mp hd
  exact h.with_message d.len (Memory.mapBytes_spec h.canonical _ d.len.toNat).1
    (Memory.within_mapBytes h.capacity _ hlen)

theorem keepsSound_subF (p : Params) : KeepsSound p (Body.subF p) := fun d d' h hd => by
  obtain ⟨e, he, hd'⟩ := bind_ok.mp hd
  obtain ⟨-, rfl⟩ := needFlag_ok.mp he
  exact keepsSound_byteLayer e.sbox p e d' h hd'

theorem keepsSound_subR (p : Params) : KeepsSound p (Body.subR p) := fun d d' h hd => by
  obtain ⟨e, he, hd'⟩ := bind_ok.mp hd
  obtain ⟨-, rfl⟩ := needFlag_ok.mp he
  exact keepsSound_byteLayer e.inv p e d' h hd'

theorem keepsSound_rotF (p : Params) : KeepsSound p (Body.rotF p) :=
  fun d => keepsSound_blockLayer (rotateForward d.rk) p d

theorem keepsSound_rotR (p : Params) : KeepsSound p (Body.rotR p) :=
  fun d => keepsSound_blockLayer (rotateReverse d.rk) p d

theorem keepsSound_trnF (p : Params) : KeepsSound p (Body.trnF p) :=
  fun d => keepsSound_blockLayer (transpose d.rk) p d

theorem keepsSound_trnR (p : Params) : KeepsSound p (Body.trnR p) :=
  fun d => keepsSound_blockLayer (reverseTranspose d.rk) p d

theorem keepsSound_mix (p : Params) : KeepsSound p (Body.mix p) :=
  fun d => keepsSound_blockLayer (fun b => xor16 b d.rk) p d

theorem keepsSound_chnF (p : Params) : KeepsSound p (Body.chnF p) := fun d d' h hd => by
  obtain ⟨e, he, hd'⟩ := bind_ok.mp hd
  obtain ⟨hlen, -, rfl⟩ := needBlocks_ok.mp he
  cases hd'
  exact h.with_message _ (chainForward_spec _ h.canonical _).1
    (within_chainForward _ h.capacity _ (Data.nblk_le hlen))

theorem keepsSound_chnR (p : Params) : KeepsSound p (Body.chnR p) := fun d d' h hd => by
  obtain ⟨e, he, hd'⟩ := bind_ok.mp hd
  obtain ⟨hlen, -, rfl⟩ := needBlocks_ok.mp he
  cases hd'
  exact h.with_message _ (chainReverse_spec _ h.canonical _).1
    (within_chainReverse _ h.capacity _ (Data.nblk_le hlen))

/-! ### The block codec -/

/-- The padded message fits because the capacity is a whole number of blocks (R10, R111). -/
theorem keepsSound_pad {p : Params} (hp : p.legal) : KeepsSound p (Body.pad p) := fun d d' h hd => by
  obtain ⟨hblocks, hmin, -⟩ := hp
  unfold Body.pad at hd
  split at hd
  · cases hd
  · next hlen =>
    cases hd
    refine h.with_message _ (wf_padBuffer h.canonical _) (Memory.within_fillZero ?_ ?_)
    · exact Memory.within_write h.capacity (by omega) _
    · unfold paddedLength
      omega

/-- The filled last block fits because the capacity is a whole number of blocks (R10, R113). -/
theorem keepsSound_chunk {p : Params} (hp : p.legal) : KeepsSound p (Body.chunk p) := fun d d' h hd => by
  obtain ⟨hblocks, -, -⟩ := hp
  obtain ⟨e, he, hd'⟩ := bind_ok.mp hd
  unfold needCapacity at he
  split at he
  · cases he
  · next hlen =>
    cases he
    cases hd'
    refine h.with_message _ (Memory.wf_fillZero h.canonical _ _) (Memory.within_fillZero h.capacity ?_)
    unfold chunkedLength
    omega

theorem keepsSound_unpad (p : Params) : KeepsSound p (Body.unpad p) := fun d d' h hd => by
  obtain ⟨e, he, hd'⟩ := bind_ok.mp hd
  obtain ⟨-, -, rfl⟩ := needBlocks_ok.mp he
  dsimp only at hd'
  split at hd'
  · cases hd'
  · cases hd'
    exact h.with_message _ h.canonical h.capacity

/-! ### ENC, ENCG and DEC -/

theorem keepsSound_encryptRound (p : Params) : KeepsSound p (encryptRound p) :=
  (((keepsSound_mix p).bind (keepsSound_rotF p)).bind (keepsSound_trnF p)).bind (keepsSound_kadv p)

theorem keepsSound_encryptFromPad {p : Params} (hp : p.legal) : KeepsSound p (encryptFromPad p) :=
  ((((keepsSound_pad hp).bind (keepsSound_sgen p)).bind (keepsSound_subF p)).bind (keepsSound_kbase p)).bind
    (KeepsSound.bind (fun d => KeepsSound.loopUp (fun _ => keepsSound_encryptRound p) d.r.val d)
      (keepsSound_chnF p))

theorem keepsSound_enc {p : Params} (hp : p.legal) : KeepsSound p (Body.enc p) :=
  (keepsSound_kset p).bind (keepsSound_encryptFromPad hp)

theorem keepsSound_encg (x : Draw) {p : Params} (hp : p.legal) : KeepsSound p (Body.encg x p) :=
  (keepsSound_kgen x p).bind (keepsSound_encryptFromPad hp)

theorem keepsSound_decryptRound (p : Params) (r : Nat) : KeepsSound p (decryptRound p r) :=
  (((keepsSound_ksel r p).bind (keepsSound_trnR p)).bind (keepsSound_rotR p)).bind (keepsSound_mix p)

theorem keepsSound_dec {p : Params} (hp : p.legal) : KeepsSound p (Body.dec p) :=
  (((((((((keepsSound_kset p).bind (keepsSound_kdrv p)).bind (keepsSound_chunk hp)).bind
    (fun d => keepsSound_ksel d.r.val p d)).bind (keepsSound_chnR p)).bind
    (fun d => KeepsSound.loopDown (keepsSound_decryptRound p) d.r.val d)).bind (keepsSound_sgen p)).bind
    (keepsSound_sinv p)).bind (keepsSound_subR p)).bind (keepsSound_unpad p)

/-! ## The ways a step can end -/

/-- BACC, the enables, the events, the answer and the counters are free of the invariant. -/
theorem State.Inv.frame {s : State} (h : s.Inv) (bacc ieDone ieErr : Bool) (events : List Event)
    (response : Option Response) (draws faults : Nat) :
    State.Inv { s with
      bacc := bacc, ieDone := ieDone, ieErr := ieErr, events := events, response := response, draws := draws
      faults := faults } :=
  ⟨h.legal, h.canonical, h.capacity, h.busyOrDone, h.doneOrErr, h.onlyClr, h.noError, h.someError, h.consistent⟩

theorem State.Inv.respond {s : State} (h : s.Inv) (x : Resp) (w : Word) : (State.respond s x w).Inv :=
  h.frame s.bacc s.ieDone s.ieErr s.events (some ⟨x, w⟩) s.draws s.faults

theorem State.Inv.draw {s : State} (h : s.Inv) : (State.draw s).2.Inv :=
  h.frame s.bacc s.ieDone s.ieErr s.events s.response (s.draws + 1) s.faults

theorem State.Inv.with_events {s : State} (h : s.Inv) (es : List Event) : State.Inv { s with events := es } :=
  h.frame s.bacc s.ieDone s.ieErr es s.response s.draws s.faults

theorem State.Inv.with_bacc {s : State} (h : s.Inv) (b : Bool) : State.Inv { s with bacc := b } :=
  h.frame b s.ieDone s.ieErr s.events s.response s.draws s.faults

/-- Any sound data may take the place of the old. -/
theorem State.Inv.with_data {s : State} (h : s.Inv) {d : Data} (hd : d.Sound s.params) :
    State.Inv { s with data := d } :=
  ⟨h.legal, hd.canonical, hd.capacity, h.busyOrDone, h.doneOrErr, h.onlyClr, h.noError, h.someError,
    fun _ => hd.consistent⟩

/-- Completion without a fault (R256). -/
theorem State.Inv.complete {s : State} (h : s.Inv) (he : s.err = false) : (State.complete s).Inv where
  legal := h.legal
  canonical := h.canonical
  capacity := h.capacity
  busyOrDone := by simp
  doneOrErr := by simp [he]
  onlyClr := nofun
  noError := h.noError
  someError := h.someError
  consistent := h.consistent

/-- Fault entry by a pending command: DONE was 0 because BUSY was 1 (R300). -/
theorem State.Inv.faultEntry {s : State} (h : s.Inv) (hb : s.busy = true) (k : FaultKind) :
    (State.faultEntry s k).Inv where
  legal := h.legal
  canonical := Memory.wf_ofFn _ _
  capacity := Memory.within_ofFn _ _
  busyOrDone := by simp
  doneOrErr := fun hd => h.busyOrDone ⟨hb, hd.1⟩
  onlyClr := nofun
  noError := nofun
  someError := fun _ => ⟨k, rfl⟩
  consistent := nofun

/-- Reset leaves the invariant, whatever was before (R330). -/
theorem State.applyReset_inv {s : State} (hp : s.params.legal) : (State.applyReset s).Inv where
  legal := hp
  canonical := (Data.zero_sound s.params).canonical
  capacity := (Data.zero_sound s.params).capacity
  busyOrDone := by simp
  doneOrErr := by simp
  onlyClr := nofun
  noError := fun _ => ⟨rfl, rfl⟩
  someError := nofun
  consistent := fun _ => (Data.zero_sound s.params).consistent

/-- CLR leaves the invariant, whatever was before, the fault state too (R266, R302). -/
theorem State.zeroise_inv {s : State} (hp : s.params.legal) : (State.zeroise s).Inv :=
  (State.applyReset_inv hp).frame false s.ieDone s.ieErr s.events s.response s.draws s.faults

/-! ## The engine -/

/-- A body that keeps the data sound keeps the invariant, by completion or by fault entry. -/
theorem State.Inv.perform {s t : State} {body : Body} (h : s.Inv) (hb : s.busy = true) (he : s.err = false)
    (hbody : KeepsSound s.params (body s.params)) (ht : State.perform s body = .next t) : t.Inv := by
  rcases State.perform_cases s body with ⟨d, hd, hs⟩ | ⟨k, -, hs⟩
  · cases hs.symm.trans ht
    exact (h.with_data (hbody _ d (h.sound he) hd)).complete he
  · cases hs.symm.trans ht
    exact h.faultEntry hb k

/-- A pending command keeps the invariant while `ERR = 0`. -/
theorem State.Inv.exec {s t : State} (h : s.Inv) (hb : s.busy = true) (he : s.err = false) (i : Instr)
    (ht : exec i s = .next t) : t.Inv := by
  have hp := h.legal
  cases i with
  | clr => cases ht; exact (State.zeroise_inv hp).complete rfl
  | kgen => exact h.draw.perform hb he (keepsSound_kgen _ _) ht
  | encg => exact h.draw.perform hb he (keepsSound_encg _ hp) ht
  | nop => exact h.perform hb he (keepsSound_nop _) ht
  | kset => exact h.perform hb he (keepsSound_kset _) ht
  | kdrv => exact h.perform hb he (keepsSound_kdrv _) ht
  | kadv => exact h.perform hb he (keepsSound_kadv _) ht
  | ksel idx => exact h.perform hb he (keepsSound_ksel idx _) ht
  | kbase => exact h.perform hb he (keepsSound_kbase _) ht
  | sgen => exact h.perform hb he (keepsSound_sgen _) ht
  | sinv => exact h.perform hb he (keepsSound_sinv _) ht
  | subF => exact h.perform hb he (keepsSound_subF _) ht
  | subR => exact h.perform hb he (keepsSound_subR _) ht
  | rotF => exact h.perform hb he (keepsSound_rotF _) ht
  | rotR => exact h.perform hb he (keepsSound_rotR _) ht
  | trnF => exact h.perform hb he (keepsSound_trnF _) ht
  | trnR => exact h.perform hb he (keepsSound_trnR _) ht
  | mix => exact h.perform hb he (keepsSound_mix _) ht
  | chnF => exact h.perform hb he (keepsSound_chnF _) ht
  | chnR => exact h.perform hb he (keepsSound_chnR _) ht
  | pad => exact h.perform hb he (keepsSound_pad hp) ht
  | chunk => exact h.perform hb he (keepsSound_chunk hp) ht
  | unpad => exact h.perform hb he (keepsSound_unpad _) ht
  | enc => exact h.perform hb he (keepsSound_enc hp) ht
  | dec => exact h.perform hb he (keepsSound_dec hp) ht

/-- The one word that can be pending in the fault state is CLR's (R68). -/
theorem decode_clr_word : decode 0x00000001 = .ok .clr := by decide

/-- The engine's turn keeps the invariant: in the fault state it can only perform CLR. -/
theorem State.Inv.engineTurn {s t : State} (h : s.Inv) (ht : State.engineTurn s = .next t) : t.Inv := by
  rcases State.engineTurn_cases s with ⟨-, hs⟩ | ⟨hb, i, hi, hs⟩ | ⟨hb, e, -, hs⟩
  · cases hs.symm.trans ht
    exact h
  · have ht : Machine.exec i s = .next t := hs.symm.trans ht
    cases he : s.err with
    | false => exact h.exec hb he i ht
    | true =>
      rw [h.onlyClr hb he, decode_clr_word] at hi
      cases hi
      cases ht
      exact (State.zeroise_inv h.legal).complete rfl
  · cases hs.symm.trans ht
    exact h.faultEntry hb _

/-! ## The host port -/

theorem State.Inv.writeStatus {s : State} (h : s.Inv) (v : Word) : (State.writeStatus s v).Inv where
  legal := h.legal
  canonical := h.canonical
  capacity := h.capacity
  busyOrDone := fun hd => h.busyOrDone ⟨hd.1, (Bool.and_eq_true_iff.mp hd.2).1⟩
  doneOrErr := fun hd => h.doneOrErr ⟨(Bool.and_eq_true_iff.mp hd.1).1, hd.2⟩
  onlyClr := h.onlyClr
  noError := h.noError
  someError := h.someError
  consistent := h.consistent

theorem State.Inv.writeInten {s : State} (h : s.Inv) (v : Word) : (State.writeInten s v).Inv :=
  h.frame s.bacc (v.getLsbD 0) (v.getLsbD 1) s.events s.response s.draws s.faults

/-- A command word may be accepted while `ERR = 0`, the word of CLR always (R28, R68). -/
theorem State.Inv.accept {s : State} (h : s.Inv) {w : Word} (hw : s.err = true → w = 0x00000001) :
    (State.accept s w).Inv where
  legal := h.legal
  canonical := h.canonical
  capacity := h.capacity
  busyOrDone := by simp
  doneOrErr := by simp
  onlyClr := fun _ => hw
  noError := h.noError
  someError := h.someError
  consistent := h.consistent

theorem Memory.wf_setWord {m : Memory} (h : Memory.wf m) (n : Nat) (v : Word) : Memory.wf (Memory.setWord m n v) :=
  Memory.wf_writeBytes h _ _

theorem Memory.within_setWord {m : Memory} {k n : Nat} (h : Memory.within m k) (hn : 4 * n + 4 ≤ k) (v : Word) :
    Memory.within (Memory.setWord m n v) k :=
  Memory.within_writeBytes h _ hn

/-- An idle write to a register of the window keeps the invariant; only a word of BUF needs the window (R38). -/
theorem State.Inv.writeReg {s : State} (h : s.Inv) (he : s.err = false) (v : Word) {g : Reg}
    (hg : g.InWindow s.params.bufBytes) : (State.writeReg s v g).Inv := by
  have hd := h.sound he
  cases g with
  | cmd => exact h.accept fun h1 => absurd (he.symm.trans h1) Bool.false_ne_true
  | status => exact h.writeStatus v
  | inten => exact h.writeInten v
  | len => exact h.with_data (hd.with_message v hd.canonical hd.capacity)
  | key w => exact h.with_data (hd.with_key _)
  | rk w => exact h.with_data (hd.with_rk _)
  | bufw n =>
    exact h.with_data (hd.with_message s.data.len (Memory.wf_setWord hd.canonical n v)
      (Memory.within_setWord hd.capacity hg v))
  | id | errinfo | rounds | cap | sboxw n | invw n | rksw n => exact h

/-- A write in the fault state keeps the invariant: of the command words only CLR's is accepted (R68). -/
theorem State.Inv.writeFaulted {s : State} (h : s.Inv) (v : Word) (g : Reg) : (State.writeFaulted s v g).Inv := by
  cases g with
  | cmd =>
    show (if v = 0x00000001 then State.accept s v else s).Inv
    split
    · next hv => exact h.accept fun _ => hv
    · exact h
  | status => exact h.writeStatus v
  | inten => exact h.writeInten v
  | id | errinfo | rounds | len | cap | key w | rk w | sboxw n | invw n | rksw n | bufw n => exact h

/-- A register found in the map lies in the window. -/
theorem Reg.inWindow_of_regAt {n off : Nat} {g : Reg} (h : regAt n off = some g) (hn : n % 16 = 0) :
    g.InWindow n := by
  cases g with
  | bufw k => exact (regAt_bufw h hn).2
  | id | cmd | status | errinfo | inten | rounds | len | cap | key w | rk w | sboxw w | invw w | rksw w => trivial

theorem State.Inv.hostRead {s : State} (h : s.Inv) (width off : Nat) : (State.hostRead s width off).Inv := by
  rcases State.hostRead_cases s width off with ⟨x, w, hs⟩ | ⟨-, x, w, hs⟩ <;> rw [hs]
  · exact h.respond x w
  · exact (h.with_bacc true).respond x w

theorem State.Inv.hostWrite {s : State} (h : s.Inv) (width off : Nat) (v : Word) :
    (State.hostWrite s width off v).Inv := by
  rcases State.hostWrite_cases s width off v with
    ⟨x, w, hs⟩ | ⟨-, x, w, hs⟩ | ⟨-, -, g, -, hs⟩ | ⟨-, he, g, hg, hs⟩ <;> rw [hs]
  · exact h.respond x w
  · exact (h.with_bacc true).respond x w
  · exact (h.writeFaulted v g).respond .ok 0
  · exact (h.writeReg he v (Reg.inWindow_of_regAt hg h.legal.1)).respond .ok 0

/-- Settles O11: a step is the engine's turn, a transaction or reset, and each of them keeps the invariant. -/
theorem stepKeepsTheInvariant : Obligations.StepKeepsTheInvariant := by
  intro s t h ht
  have h' := h.with_events s.events.tail
  rcases step_cases s with hs | ⟨width, off, hs⟩ | ⟨width, off, v, hs⟩ | hs
  · exact h'.engineTurn (hs.symm.trans ht)
  · cases hs.symm.trans ht
    exact h'.hostRead width off
  · cases hs.symm.trans ht
    exact h'.hostWrite width off v
  · cases hs.symm.trans ht
    exact State.applyReset_inv h.legal

end Sys2Proof.Machine
end

section
/-! PROOFS. The host port in the idle, fault-free state, register by register, and the words assembled from flags
(10_state.md R21 to R38; 20_memory.md R62, R66; 60_exceptions.md R301, R305). -/

namespace Sys2Proof.Machine

/-! ## Transactions at the offset of a register -/

/-- An idle read at the offset of a register of the window shows the register (R60). -/
theorem State.hostRead_offset {s : State} (hb : s.busy = false) (he : s.err = false) {g : Reg}
    (hg : g.InWindow s.params.bufBytes) :
    State.hostRead s 32 g.offset = { s with response := some ⟨.ok, State.regValue s g⟩ } :=
  State.hostRead_idle (regAt_at hg) hb he

/-- An idle write at the offset of a register of the window does what the register's write does (R60). -/
theorem State.hostWrite_offset {s : State} (hb : s.busy = false) (he : s.err = false) (v : Word) {g : Reg}
    (hg : g.InWindow s.params.bufBytes) :
    State.hostWrite s 32 g.offset v = { State.writeReg s v g with response := some ⟨.ok, 0⟩ } :=
  State.hostWrite_idle (regAt_at hg) hb he

/-- Every mapped offset is that of a register of the window (R21, R65). -/
theorem exists_reg_of_mappedOffset {n off : Nat} (h : mappedOffset n off) :
    ∃ g : Reg, g.InWindow n ∧ g.offset = off := by
  obtain ⟨h4, hlow | hsbox | hrks | hbuf⟩ := h
  · obtain ⟨k, rfl⟩ : ∃ k, off = 4 * k := ⟨off / 4, by omega⟩
    rcases Nat.lt_or_ge k 8 with hk | hk
    · interval_cases k
      · exact ⟨.id, trivial, rfl⟩
      · exact ⟨.cmd, trivial, rfl⟩
      · exact ⟨.status, trivial, rfl⟩
      · exact ⟨.errinfo, trivial, rfl⟩
      · exact ⟨.inten, trivial, rfl⟩
      · exact ⟨.rounds, trivial, rfl⟩
      · exact ⟨.len, trivial, rfl⟩
      · exact ⟨.cap, trivial, rfl⟩
    · rcases Nat.lt_or_ge k 12 with hk' | hk'
      · exact ⟨.key ⟨k - 8, by omega⟩, trivial, by simp only [Reg.offset]; omega⟩
      · exact ⟨.rk ⟨k - 12, by omega⟩, trivial, by simp only [Reg.offset]; omega⟩
  · rcases Nat.lt_or_ge off 0x200 with hs | hs
    · exact ⟨.sboxw ⟨(off - 0x100) / 4, by omega⟩, trivial, by simp only [Reg.offset]; omega⟩
    · exact ⟨.invw ⟨(off - 0x200) / 4, by omega⟩, trivial, by simp only [Reg.offset]; omega⟩
  · exact ⟨.rksw ⟨(off - 0x400) / 4, by omega⟩, trivial, by simp only [Reg.offset]; omega⟩
  · exact ⟨.bufw ((off - 0x1000) / 4), show _ ≤ n by omega, by simp only [Reg.offset]; omega⟩

/-- The registers at ID, ERRINFO, ROUNDS, CAP and in the table windows ignore a write (R66). -/
theorem State.writeReg_readOnly (s : State) (v : Word) {g : Reg} (h : g.offset = 0x000 ∨ g.offset = 0x00C ∨
    g.offset = 0x014 ∨ g.offset = 0x01C ∨ 0x100 ≤ g.offset ∧ g.offset < 0x1000) : State.writeReg s v g = s := by
  cases g with
  | id | errinfo | rounds | cap | sboxw n | invw n | rksw n => rfl
  | cmd | status | inten | len | key w | rk w | bufw n => simp only [Reg.offset] at h; omega

/-! ## Byte lanes of a write -/

/-- Entry `n` of a grid after its row `w` has been written (R22, R23). -/
theorem setRow_getElem (b : Block) (w : Fin 4) (v : Word) (n : Nat) (hn : n < 16) :
    (setRow b w v)[n] = if n / 4 = w.val then lane v (n % 4) else b[n] := by
  simp only [setRow, Vector.getElem_set]
  by_cases hrow : n / 4 = w.val
  · rw [if_pos hrow]
    have hlane : n % 4 < 4 := Nat.mod_lt _ (by decide)
    interval_cases hm : n % 4
    · rw [if_neg (by omega), if_neg (by omega), if_neg (by omega), if_pos (by omega)]
    · rw [if_neg (by omega), if_neg (by omega), if_pos (by omega)]
    · rw [if_neg (by omega), if_pos (by omega)]
    · rw [if_pos (by omega)]
  · rw [if_neg hrow, if_neg (by omega), if_neg (by omega), if_neg (by omega), if_neg (by omega)]

/-- Byte `a` of BUF after its word `n` has been written (R38). -/
theorem Memory.read_setWord {m : Memory} (h : Memory.wf m) (n : Nat) (v : Word) (a : Nat) :
    Memory.read (Memory.setWord m n v) a = if a / 4 = n then lane v (a % 4) else Memory.read m a := by
  unfold Memory.setWord
  rw [Memory.read_writeBytes h]
  by_cases ha : a / 4 = n
  · rw [if_pos (by simp only [List.length_cons, List.length_nil]; omega), if_pos ha,
      show a - 4 * n = a % 4 by omega]
    have hlane : a % 4 < 4 := Nat.mod_lt _ (by decide)
    interval_cases a % 4 <;> rfl
  · rw [if_neg (by simp only [List.length_cons, List.length_nil]; omega), if_neg ha]

/-! ## Words assembled from flags -/

/-- Bit `i` of STATUS (R29); the valid flags read 0 while `ERR = 1` (R301). -/
theorem State.statusWord_getLsbD (s : State) (i : Nat) : (State.statusWord s).getLsbD i =
    (if i = 0 then s.busy else if i = 1 then s.done else if i = 2 then s.err else if i = 3 then s.bacc
      else if i = 8 then s.data.kv && !s.err else if i = 9 then s.data.qv && !s.err
      else if i = 10 then s.data.sv && !s.err else if i = 11 then s.data.nv && !s.err else false) := by
  unfold State.statusWord
  simp only [BitVec.getLsbD_append, Bool.and_comm (!s.err)]
  rcases Nat.lt_or_ge i 12 with hi | hi
  · interval_cases i <;> simp
  · simp (disch := omega) only [if_neg]
    exact BitVec.getLsbD_zero

/-- Bit `i` of ERRINFO (R31). -/
theorem State.errinfoWord_getLsbD (s : State) (i : Nat) : (State.errinfoWord s).getLsbD i =
    (if i < 8 then s.ecode.getLsbD i else if i < 16 then s.eopc.getLsbD (i - 8) else false) := by
  unfold State.errinfoWord
  rw [BitVec.getLsbD_append, BitVec.getLsbD_append]
  by_cases h8 : i < 8
  · rw [if_pos h8, if_pos h8]
  · by_cases h16 : i < 16
    · rw [if_neg h8, if_neg h8, if_pos h16, if_pos (by omega)]
    · rw [if_neg h8, if_neg h8, if_neg h16, if_neg (by omega)]
      exact BitVec.getLsbD_zero

/-- Bit `i` of INTEN (R32). -/
theorem State.intenWord_getLsbD (s : State) (i : Nat) : (State.intenWord s).getLsbD i =
    (if i = 0 then s.ieDone else if i = 1 then s.ieErr else false) := by
  unfold State.intenWord
  rw [BitVec.getLsbD_append, BitVec.getLsbD_append]
  by_cases h0 : i = 0
  · simp [h0]
  · by_cases h1 : i = 1
    · simp [h1]
    · rw [if_neg h0, if_neg h1, if_neg (by omega), if_neg (by omega)]
      exact BitVec.getLsbD_zero

/-! ## The statements -/

/-- Settles O53: each offset is that of a register, and the write of that register is the one stated; the lanes are
those of `setRow` and `Memory.setWord`. -/
theorem idleWritesLandInTheirLanes : Obligations.IdleWritesLandInTheirLanes := by
  intro s v _ hb he
  have at_reg (g : Reg) (hg : g.InWindow s.params.bufBytes) := State.hostWrite_offset hb he v hg
  refine ⟨at_reg .cmd trivial, at_reg .status trivial, at_reg .inten trivial, at_reg .len trivial,
    fun w => ⟨setRow s.data.key w v, at_reg (.key w) trivial, setRow_getElem _ w v⟩,
    fun w => ⟨setRow s.data.rk w v, at_reg (.rk w) trivial, setRow_getElem _ w v⟩,
    fun n hn hwf => ⟨Memory.setWord s.data.buf n v, at_reg (.bufw n) hn, Memory.wf_setWord hwf n v,
      Memory.read_setWord hwf n v⟩,
    fun off hoff hro => ?_⟩
  obtain ⟨g, hg, rfl⟩ := exists_reg_of_mappedOffset hoff
  rw [at_reg g hg, State.writeReg_readOnly s v hro]

/-- Settles O54: each offset is that of a register, and the value of that register is the one stated. -/
theorem idleReadsShowTheState : Obligations.IdleReadsShowTheState := by
  intro s _ hb he
  have at_reg (g : Reg) (hg : g.InWindow s.params.bufBytes) := State.hostRead_offset hb he hg
  refine ⟨fun off hoff => ?_, at_reg .cmd trivial, at_reg .rounds trivial, at_reg .len trivial,
    fun w => ⟨at_reg (.key w) trivial, at_reg (.rk w) trivial⟩,
    fun n => ⟨at_reg (.sboxw n) trivial, at_reg (.invw n) trivial⟩, fun i w => ?_,
    fun n hn => at_reg (.bufw n) hn⟩
  · rcases hoff with rfl | rfl | rfl | rfl | rfl
    · exact at_reg .id trivial
    · exact at_reg .status trivial
    · exact at_reg .errinfo trivial
    · exact at_reg .inten trivial
    · exact at_reg .cap trivial
  · have hread := at_reg (.rksw ⟨4 * i.val + w.val, by omega⟩) trivial
    have hdiv : (4 * i.val + w.val) / 4 = i.val := by omega
    have hmod : (4 * i.val + w.val) % 4 = w.val := by omega
    have hoff : 0x400 + 4 * (4 * i.val + w.val) = 0x400 + 16 * i.val + 4 * w.val := by omega
    simp only [Reg.offset, State.regValue, hdiv, hmod, hoff] at hread
    exact hread

/-- Settles O55: the three words bit by bit; the interrupt level is its definition (R305). -/
theorem statusBitsAndInterrupt : Obligations.StatusBitsAndInterrupt := fun s i _ =>
  ⟨State.statusWord_getLsbD s i, State.errinfoWord_getLsbD s i, State.intenWord_getLsbD s i, rfl⟩

end Sys2Proof.Machine
end

section
/-! PROOFS. The host port outside the idle, fault-free state (20_memory.md R60, R63, R65, R67, R68): which offsets have a
register, what is served in every state, and what is dropped in the fault state. -/

namespace Sys2Proof.Machine

/-! ## Mapped and served offsets -/

/-- Every register of the window lies at a mapped offset (R21). -/
theorem mappedOffset_offset {n : Nat} {g : Reg} (hg : g.InWindow n) : mappedOffset n g.offset := by
  cases g with
  | id | cmd | status | errinfo | inten | rounds | len | cap => simp [mappedOffset, Reg.offset]
  | key w | rk w | sboxw w | invw w | rksw w => simp only [mappedOffset, Reg.offset]; omega
  | bufw k =>
    have hk : 4 * k + 4 ≤ n := hg
    simp only [mappedOffset, Reg.offset]; omega

/-- No register is found at an offset that is misaligned or unmapped (R63, R65). -/
theorem regAt_of_not_mappedOffset {n off : Nat} (hn : n % 16 = 0) (h : ¬ mappedOffset n off) : regAt n off = none := by
  cases hg : regAt n off with
  | none => rfl
  | some g =>
    rw [regAt_offset hg] at h
    exact absurd (mappedOffset_offset (Reg.inWindow_of_regAt hg hn)) h

/-- A register away from the five served offsets is guarded (R67). -/
theorem Reg.guarded_of_not_servedOffset {g : Reg} (h : ¬ servedOffset g.offset) : g.alwaysServed = false := by
  cases g with
  | id | status | errinfo | inten | cap => exact absurd (by simp [servedOffset, Reg.offset]) h
  | cmd | rounds | len | key w | rk w | sboxw w | invw w | rksw w | bufw k => rfl

/-- A mapped offset that is not served is that of a guarded register (R67, R68). -/
theorem exists_guarded_reg {n off : Nat} (h : mappedOffset n off) (hs : ¬ servedOffset off) :
    ∃ g : Reg, regAt n off = some g ∧ g.alwaysServed = false := by
  obtain ⟨g, hg, rfl⟩ := exists_reg_of_mappedOffset h
  exact ⟨g, regAt_at hg, Reg.guarded_of_not_servedOffset hs⟩

/-- ID, STATUS, ERRINFO, INTEN and CAP read the same way in every state of the engine (R67, R68). -/
theorem State.hostRead_servedOffset (s : State) {off : Nat} (h : servedOffset off) :
    State.hostRead s 32 off = { s with response := some ⟨.ok, servedValue s off⟩ } := by
  have at_reg (g : Reg) (hg : g.InWindow s.params.bufBytes) (hs : g.alwaysServed = true) :=
    State.hostRead_served (regAt_at hg) hs
  rcases h with rfl | rfl | rfl | rfl | rfl
  · exact at_reg .id trivial rfl
  · exact at_reg .status trivial rfl
  · exact at_reg .errinfo trivial rfl
  · exact at_reg .inten trivial rfl
  · exact at_reg .cap trivial rfl

/-! ## Writes in the fault state -/

/-- Of the command words the fault state takes none but that of CLR (R68). -/
theorem State.writeFaulted_cmd_dropped (s : State) {v : Word} (h : v ≠ 0x00000001) :
    State.writeFaulted s v .cmd = s := if_neg h

/-- An accepted CLR changes PEND and BUSY alone where DONE is 0 already (R68; log entry 9). -/
theorem State.writeFaulted_cmd_clr {s : State} (h : s.done = false) :
    State.writeFaulted s 0x00000001 .cmd = { s with pend := 0x00000001, busy := true } := by
  show State.accept s 0x00000001 = _
  rw [State.accept, ← h]

/-- Away from CMD, STATUS and INTEN the fault state drops a write (R68). -/
theorem State.writeFaulted_dropped (s : State) (v : Word) {g : Reg} (hc : g.offset ≠ 0x004) (hs : g.offset ≠ 0x008)
    (hi : g.offset ≠ 0x010) : State.writeFaulted s v g = s := by
  cases g with
  | cmd => exact absurd rfl hc
  | status => exact absurd rfl hs
  | inten => exact absurd rfl hi
  | id | errinfo | rounds | len | cap | key w | rk w | sboxw w | invw w | rksw w | bufw k => rfl

/-! ## The statements -/

/-- Settles O50: of the two reasons for ERROR, the second is that no register is found. -/
theorem badAccessesChangeNothing : Obligations.BadAccessesChangeNothing := by
  intro s width off v hp hbad
  by_cases hw : width = 32
  · subst hw
    have hnone := regAt_of_not_mappedOffset hp.1 (hbad.resolve_left (· rfl))
    exact ⟨State.hostRead_unmapped hnone, State.hostWrite_unmapped hnone⟩
  · exact ⟨State.hostRead_width hw, State.hostWrite_width hw⟩

/-- Settles O51: a mapped offset is that of a register, and it is served or guarded. -/
theorem busyPortShieldsTheEngine : Obligations.BusyPortShieldsTheEngine := by
  intro s off v _ hb hoff
  refine ⟨State.hostRead_servedOffset s, fun hs => ?_, ?_⟩
  · obtain ⟨g, hat, hg⟩ := exists_guarded_reg hoff hs
    exact State.hostRead_busy hat hg hb
  · obtain ⟨g, hg, rfl⟩ := exists_reg_of_mappedOffset hoff
    exact State.hostWrite_busy (regAt_at hg) hb

/-- Settles O52: reads as O51 splits them; a write is that of CMD, STATUS or INTEN, or it is dropped. -/
theorem faultStatePortGates : Obligations.FaultStatePortGates := by
  intro s off v _ he hb hoff
  have at_reg (g : Reg) (hg : g.InWindow s.params.bufBytes) :
      State.hostWrite s 32 g.offset v = State.respond (State.writeFaulted s v g) .ok 0 :=
    State.hostWrite_faulted (regAt_at hg) hb he
  refine ⟨State.hostRead_servedOffset s, fun hs => ?_, ?_, ?_, ?_, ?_, fun hc hs hi => ?_⟩
  · obtain ⟨g, hat, hg⟩ := exists_guarded_reg hoff hs
    exact State.hostRead_faulted hat hg hb he
  · rintro rfl
    exact at_reg .status trivial
  · rintro rfl
    exact at_reg .inten trivial
  · rintro rfl rfl hd
    exact (at_reg .cmd trivial).trans (by rw [State.writeFaulted_cmd_clr hd, State.respond])
  · rintro rfl hv
    exact (at_reg .cmd trivial).trans (by rw [State.writeFaulted_cmd_dropped s hv, State.respond])
  · obtain ⟨g, hg, rfl⟩ := exists_reg_of_mappedOffset hoff
    rw [at_reg g hg, State.writeFaulted_dropped s v hc hs hi, State.respond]

end Sys2Proof.Machine
end

section
/-! PROOFS. A pending command across host transactions (20_memory.md R67, R70; 48_orchestrator.md R256;
70_reset_and_hazards.md R345): while `BUSY = 1` a transaction moves BACC and the port's answer alone, so the engine's
next turn finds the accepted word. -/

namespace Sys2Proof.Machine

/-- The event is a transaction of the host port (R60). -/
def Event.IsTransaction (e : Event) : Prop :=
  (∃ width off, e = .read width off) ∨ ∃ width off v, e = .write width off v

/-- A transaction while the engine is busy, served, guarded or in error (R67). -/
theorem State.happen_transaction_busy {s : State} (hb : s.busy = true) {e : Event} (he : e.IsTransaction) :
    ∃ b x, State.happen s e = .next { s with bacc := b, response := x } := by
  rcases he with ⟨width, off, rfl⟩ | ⟨width, off, v, rfl⟩
  · rcases State.hostRead_cases s width off with ⟨x, w, hs⟩ | ⟨-, x, w, hs⟩
    · exact ⟨s.bacc, _, congrArg _ hs⟩
    · exact ⟨true, _, congrArg _ hs⟩
  · rcases State.hostWrite_cases s width off v with
      ⟨x, w, hs⟩ | ⟨-, x, w, hs⟩ | ⟨hidle, -⟩ | ⟨hidle, -⟩
    · exact ⟨s.bacc, _, congrArg _ hs⟩
    · exact ⟨true, _, congrArg _ hs⟩
    all_goals exact absurd (hidle.symm.trans hb) Bool.false_ne_true

/-- A run through any transactions at the head of the list of events leaves the pending command as it was
(R67, R70). -/
theorem core_run_transactions_busy {s : State} {hs rest : List Event} (hb : s.busy = true)
    (hev : s.events = hs ++ rest) (htr : ∀ e ∈ hs, e.IsTransaction) :
    ∃ b x, Sys2Proof.core.run hs.length s = .next { s with events := rest, bacc := b, response := x } := by
  induction hs generalizing s with
  | nil =>
    subst hev
    exact ⟨s.bacc, s.response, rfl⟩
  | cons e hs ih =>
    obtain ⟨he, htr⟩ := List.forall_mem_cons.mp htr
    obtain ⟨b, x, hhappen⟩ := State.happen_transaction_busy (s := { s with events := hs ++ rest }) hb he
    rw [List.length_cons, core_run_succ ((step_cons hev).trans hhappen)]
    exact ih hb rfl htr

/-- With the engine's turn at the head of the list, or the list used up, a step is that turn (R345; log entry 1). -/
theorem step_engine {s : State} (h : s.events = [] ∨ ∃ es, s.events = .engine :: es) :
    step s = State.engineTurn { s with events := s.events.tail } := by
  rcases h with h | ⟨es, h⟩
  · rw [step_nil h, h, List.tail_nil, ← h]
  · rw [step_cons h, h]
    rfl

/-- Settles O59: the run through the transactions, and then the engine's turn with BUSY and PEND as they were. -/
theorem pendingCommandIsReached : Obligations.PendingCommandIsReached := by
  intro s hs rest hb hev htr
  obtain ⟨b, x, hrun⟩ := core_run_transactions_busy hb hev htr
  refine ⟨_, hrun, ⟨b, x, rfl⟩, fun hrest => ?_⟩
  have hstep := step_engine (s := { s with events := rest, bacc := b, response := x }) hrest
  exact ⟨fun i hi => hstep.trans (State.engineTurn_exec hb hi),
    fun e he => hstep.trans (State.engineTurn_illegal hb he)⟩

end Sys2Proof.Machine
end

section
/-! PROOFS. The command decoder and encoder are inverse to each other (30_encoding.md R90 to R96). A word is its six
fields; R94 accepts it when the reserved fields are 0, OPC is assigned, and DIR, GEN and IDX fit one of the four formats
of R91. On those fields the rows of R93 are read both ways. -/

namespace Sys2Proof

open Laws

/-! ## The fields of a word -/

@[simp] theorem assemble_opc (opc : BitVec 8) (dir gen : Bool) (idx : BitVec 5) :
    (assemble opc dir gen idx).opc = opc :=
  BitVec.extractLsb'_append_eq_right

@[simp] theorem assemble_dir (opc : BitVec 8) (dir gen : Bool) (idx : BitVec 5) :
    (assemble opc dir gen idx).dir = dir := by
  simp only [Word.dir, assemble, BitVec.getLsbD_append]
  simp

@[simp] theorem assemble_gen (opc : BitVec 8) (dir gen : Bool) (idx : BitVec 5) :
    (assemble opc dir gen idx).gen = gen := by
  simp only [Word.gen, assemble, BitVec.getLsbD_append]
  simp

/-- A word whose reserved bits are 0 is made of its four other fields (R90). -/
theorem assemble_fields {w : Word} (hlow : w.reservedLow = 0) (hhigh : w.reservedHigh = 0) :
    assemble w.opc w.dir w.gen w.idx = w := by
  have hbit (n : Nat) : BitVec.ofBool (w.getLsbD n) = w.extractLsb' n 1 := by
    refine BitVec.eq_of_getLsbD_eq fun b hb => ?_
    obtain rfl : b = 0 := by omega
    simp
  rw [assemble, ← hlow, ← hhigh]
  simp only [Word.reservedHigh, Word.idx, Word.reservedLow, Word.gen, Word.dir, Word.opc, hbit,
    BitVec.extractLsb'_append_extractLsb'_eq_extractLsb', BitVec.extractLsb'_eq_self]

/-! ## The four formats -/

/-- DIR, GEN and IDX fit one of the formats `Z`, `D`, `G` and `X` of R91: at most one of them is set, and only where
OPC has it live. -/
inductive FitsFormat (opc : BitVec 8) : Bool → Bool → BitVec 5 → Prop
  | z : FitsFormat opc false false 0
  | d (h : dirLive opc = true) (dir : Bool) : FitsFormat opc dir false 0
  | g (h : genLive opc = true) (gen : Bool) : FitsFormat opc false gen 0
  | x (h : idxLive opc = true) (idx : BitVec 5) : FitsFormat opc false false idx

theorem dirLive_iff {opc : BitVec 8} : dirLive opc = true ↔ opc ∈ ([0x22, 0x30, 0x40, 0x60] : List (BitVec 8)) := by
  simp [dirLive, or_assoc]

theorem genLive_iff {opc : BitVec 8} : genLive opc = true ↔ opc = 0x80 := decide_eq_true_iff

theorem idxLive_iff {opc : BitVec 8} : idxLive opc = true ↔ opc = 0x14 := decide_eq_true_iff

/-- The formats are the last three tests of R94, since no OPC has two fields live. -/
theorem fitsFormat_iff {opc : BitVec 8} {dir gen : Bool} {idx : BitVec 5} : FitsFormat opc dir gen idx ↔
    (dir = true → dirLive opc = true) ∧ (gen = true → genLive opc = true) ∧ (idx ≠ 0 → idxLive opc = true) := by
  constructor
  · rintro (_ | ⟨h⟩ | ⟨h⟩ | ⟨h⟩) <;> simp [*]
  · rintro ⟨hdir, hgen, hidx⟩
    by_cases hx : idx = 0
    · subst hx
      cases gen with
      | false =>
        cases dir with
        | false => exact .z
        | true => exact .d (hdir rfl) true
      | true =>
        obtain rfl := genLive_iff.mp (hgen rfl)
        obtain rfl : dir = false := Bool.eq_false_iff.mpr fun h => absurd (hdir h) (by decide)
        exact .g rfl true
    · obtain rfl := idxLive_iff.mp (hidx hx)
      obtain rfl : dir = false := Bool.eq_false_iff.mpr fun h => absurd (hdir h) (by decide)
      obtain rfl : gen = false := Bool.eq_false_iff.mpr fun h => absurd (hgen h) (by decide)
      exact .x rfl idx

/-! ## The rows of R93 -/

/-- The 20 assigned operation codes, in the order of R94. -/
def assignedCodes : List (BitVec 8) :=
  [0x00, 0x01, 0x10, 0x11, 0x12, 0x13, 0x14, 0x15, 0x20, 0x21, 0x22, 0x30, 0x40, 0x50, 0x60, 0x70, 0x71, 0x72, 0x80,
    0x81]

/-- A row exists for the assigned codes and for no other, whatever the other fields hold (R96). -/
theorem exists_selectRow_iff {opc : BitVec 8} {dir gen : Bool} {idx : BitVec 5} :
    (∃ i, selectRow opc dir gen idx = some i) ↔ opc ∈ assignedCodes := by
  constructor
  · rintro ⟨i, hi⟩
    have hopc : opc = BitVec.ofNat 8 opc.toNat := by simp
    unfold selectRow at hi
    split at hi
    case h_21 => cases hi
    all_goals
      next hcode =>
        rw [hopc, hcode]
        decide
  · intro hopc
    unfold assignedCodes at hopc
    fin_cases hopc <;> exact ⟨_, rfl⟩

/-- The row that fitting fields select is well formed and is encoded by these fields: in format Z by the row's fixed
word, in the others by the field that is live. -/
theorem encode_of_selectRow {opc : BitVec 8} {dir gen : Bool} {idx : BitVec 5} {i : Instr}
    (hfit : FitsFormat opc dir gen idx) (hrow : selectRow opc dir gen idx = some i) :
    i.wellFormed = true ∧ encode i = assemble opc dir gen idx := by
  cases hfit with
  | z =>
    have hopc := exists_selectRow_iff.mp ⟨i, hrow⟩
    unfold assignedCodes at hopc
    fin_cases hopc <;> cases hrow <;> exact ⟨rfl, rfl⟩
  | d hlive dir =>
    have hopc := dirLive_iff.mp hlive
    fin_cases hopc <;> cases dir <;> cases hrow <;> exact ⟨rfl, rfl⟩
  | g hlive gen =>
    obtain rfl := genLive_iff.mp hlive
    cases gen <;> cases hrow <;> exact ⟨rfl, rfl⟩
  | x hlive idx =>
    obtain rfl := idxLive_iff.mp hlive
    cases hrow
    exact ⟨decide_eq_true idx.isLt, by rw [encode, BitVec.ofNat_toNat, BitVec.setWidth_eq]⟩

/-! ## Decoding -/

/-- Decoding in one line: the reserved bits are 0, the fields fit a format, and they select the row (R94). -/
theorem decode_eq_ok_iff {w : Word} {i : Instr} : decode w = .ok i ↔
    w.reservedLow = 0 ∧ w.reservedHigh = 0 ∧ FitsFormat w.opc w.dir w.gen w.idx ∧
      selectRow w.opc w.dir w.gen w.idx = some i := by
  rw [fitsFormat_iff]
  unfold decode
  by_cases hres : w.reservedLow ≠ 0 ∨ w.reservedHigh ≠ 0
  · rw [if_pos hres]
    grind
  · rw [if_neg hres]
    cases selectRow w.opc w.dir w.gen w.idx with
    | none => grind
    | some j => grind

/-- A word is ILLEGAL exactly when a field fails its test (R94). -/
theorem exists_decode_error_iff {w : Word} : (∃ e, decode w = .error e) ↔
    ¬ (w.reservedLow = 0 ∧ w.reservedHigh = 0 ∧ FitsFormat w.opc w.dir w.gen w.idx ∧ w.opc ∈ assignedCodes) := by
  have hok : (∃ i, decode w = .ok i) ↔
      w.reservedLow = 0 ∧ w.reservedHigh = 0 ∧ FitsFormat w.opc w.dir w.gen w.idx ∧ w.opc ∈ assignedCodes := by
    simp only [decode_eq_ok_iff, exists_and_left, exists_selectRow_iff]
  rw [← hok]
  cases decode w with
  | error e => simp
  | ok i => simp

/-- The word assembled from fields that fit a format decodes to the row they select. -/
theorem decode_assemble {opc : BitVec 8} {dir gen : Bool} {idx : BitVec 5} {i : Instr}
    (hfit : FitsFormat opc dir gen idx) (hrow : selectRow opc dir gen idx = some i) :
    decode (assemble opc dir gen idx) = .ok i := by
  rw [decode_eq_ok_iff, assemble_opc, assemble_dir, assemble_gen, assemble_idx]
  exact ⟨assemble_reservedLow .., assemble_reservedHigh .., hfit, hrow⟩

/-- Settles O1: each command's word is assembled in its format (R91), and its fields select its row. -/
theorem decodeOfEncode : Obligations.DecodeOfEncode := by
  intro i hwf
  cases i with
  | subF | rotF | trnF | chnF => exact decode_assemble (.d rfl false) rfl
  | subR | rotR | trnR | chnR => exact decode_assemble (.d rfl true) rfl
  | enc => exact decode_assemble (.g rfl false) rfl
  | encg => exact decode_assemble (.g rfl true) rfl
  | ksel idx =>
    have hidx : (BitVec.ofNat 5 idx).toNat = idx := Nat.mod_eq_of_lt (of_decide_eq_true hwf)
    refine decode_assemble (.x rfl _) ?_
    show some (Instr.ksel (BitVec.ofNat 5 idx).toNat) = some (.ksel idx)
    rw [hidx]
  | nop | clr | kgen | kset | kdrv | kadv | kbase | sgen | sinv | mix | pad | chunk | unpad | dec =>
    exact decode_assemble .z rfl

/-- Settles O2: the fields of the word encode the row they select, and the word is made of its fields. -/
theorem decodedWordIsItsEncoding : Obligations.DecodedWordIsItsEncoding := by
  intro w i hdec
  obtain ⟨hlow, hhigh, hfit, hrow⟩ := decode_eq_ok_iff.mp hdec
  obtain ⟨hwf, henc⟩ := encode_of_selectRow hfit hrow
  exact ⟨hwf, henc.trans (assemble_fields hlow hhigh)⟩

/-- Settles O3: the tests of R94 as `exists_decode_error_iff` has them, each written out on the bits of the word. -/
theorem illegalWordsExactly : Obligations.IllegalWordsExactly := by
  intro w
  rw [exists_decode_error_iff, fitsFormat_iff, dirLive_iff, genLive_iff, idxLive_iff]
  show ¬ (w.extractLsb' 10 6 = 0 ∧ w.extractLsb' 21 11 = 0 ∧
    ((w.getLsbD 8 = true → w.extractLsb' 0 8 ∈ _) ∧ (w.getLsbD 9 = true → w.extractLsb' 0 8 = 0x80) ∧
      (w.extractLsb' 16 5 ≠ 0 → w.extractLsb' 0 8 = 0x14)) ∧ w.extractLsb' 0 8 ∈ assignedCodes) ↔ _
  unfold assignedCodes
  tauto

/-- Settles O4: each of the words is the encoding of its command (R93), so O1 decodes it. -/
theorem sampleWordsDecode : Obligations.SampleWordsDecode :=
  ⟨decodeOfEncode .clr rfl, decodeOfEncode .kgen rfl, decodeOfEncode (.ksel 5) rfl, decodeOfEncode .subR rfl,
    decodeOfEncode .rotR rfl, decodeOfEncode .trnF rfl, decodeOfEncode .mix rfl, decodeOfEncode .chnR rfl,
    decodeOfEncode .unpad rfl, decodeOfEncode .encg rfl, decodeOfEncode .dec rfl⟩

end Sys2Proof
end

section
/-! PROOFS. The block codec (40_block_codec.md R111 to R116): what PAD, CHUNK and UNPAD answer, each as a body. The scan
of UNPAD stops right above the sentinel, and PAD leaves its sentinel at the old length, so UNPAD restores that length. -/

namespace Sys2Proof.Machine

/-! ## Lengths -/

/-- The capacity is a whole number of blocks (R10), so a message with room for its sentinel has room for its padding. -/
theorem paddedLength_le {p : Params} (hp : p.legal) {n : Nat} (h : n ≤ p.bufBytes - 1) :
    paddedLength n ≤ p.bufBytes := by
  obtain ⟨hblocks, hmin, -⟩ := hp
  unfold paddedLength
  omega

theorem chunkedLength_le {p : Params} (hp : p.legal) {n : Nat} (h : n ≤ p.bufBytes) :
    chunkedLength n ≤ p.bufBytes := by
  obtain ⟨hblocks, -, -⟩ := hp
  unfold chunkedLength
  omega

theorem le_chunkedLength (n : Nat) : n ≤ chunkedLength n := by
  unfold chunkedLength
  omega

theorem chunkedLength_aligned {n : Nat} (h : n % 16 = 0) : chunkedLength n = n := by
  unfold chunkedLength
  omega

/-- A length within the capacity fits in LEN (R10, R33). -/
theorem toNat_ofNat_of_le_capacity {p : Params} (hp : p.legal) {n : Nat} (h : n ≤ p.bufBytes) :
    (BitVec.ofNat 32 n).toNat = n := by
  obtain ⟨-, -, hmax⟩ := hp
  rw [BitVec.toNat_ofNat, Nat.mod_eq_of_lt (by omega)]

/-- A word is the one its number gives, so a length written back leaves LEN as it was. -/
theorem ofNat_toNat_word (n : Word) : BitVec.ofNat 32 n.toNat = n := by
  rw [BitVec.ofNat_toNat, BitVec.setWidth_eq]

/-! ## PAD and CHUNK -/

theorem Body.pad_of_le {p : Params} {d : Data} (h : d.len.toNat ≤ p.bufBytes - 1) :
    Body.pad p d =
      .ok { d with buf := padBuffer d.buf d.len.toNat, len := BitVec.ofNat 32 (paddedLength d.len.toNat) } :=
  if_neg (Nat.not_lt.mpr h)

theorem Body.pad_overflow {p : Params} {d : Data} (h : p.bufBytes - 1 < d.len.toNat) :
    Body.pad p d = .error .bufferOverflow :=
  if_pos h

theorem needCapacity_of {p : Params} {d : Data} (h : d.len.toNat ≤ p.bufBytes) : needCapacity p d = .ok d :=
  if_neg (Nat.not_lt.mpr h)

theorem needCapacity_overflow {p : Params} {d : Data} (h : p.bufBytes < d.len.toNat) :
    needCapacity p d = .error .bufferOverflow :=
  if_pos h

/-- The buffer CHUNK leaves of a message of `n` bytes (R113). -/
def chunkBuffer (m : Memory) (n : Nat) : Memory := Memory.fillZero m n (chunkedLength n - n)

theorem wf_chunkBuffer {m : Memory} (h : Memory.wf m) (n : Nat) : Memory.wf (chunkBuffer m n) :=
  Memory.wf_fillZero h _ _

/-- Zeros from `n` to the filled length, every other byte as before. -/
theorem read_chunkBuffer {m : Memory} (h : Memory.wf m) (n a : Nat) : Memory.read (chunkBuffer m n) a =
    if n ≤ a ∧ a < chunkedLength n then 0x00 else Memory.read m a := by
  unfold chunkBuffer
  rw [Memory.read_fillZero h, Nat.add_sub_cancel' (le_chunkedLength n)]

theorem chunkBuffer_aligned (m : Memory) {n : Nat} (h : n % 16 = 0) : chunkBuffer m n = m := by
  unfold chunkBuffer
  rw [chunkedLength_aligned h, Nat.sub_self]
  rfl

theorem Body.chunk_of_le {p : Params} {d : Data} (h : d.len.toNat ≤ p.bufBytes) :
    Body.chunk p d =
      .ok { d with buf := chunkBuffer d.buf d.len.toNat, len := BitVec.ofNat 32 (chunkedLength d.len.toNat) } :=
  bind_ok.mpr ⟨d, needCapacity_of h, rfl⟩

theorem Body.chunk_overflow {p : Params} {d : Data} (h : p.bufBytes < d.len.toNat) :
    Body.chunk p d = .error .bufferOverflow :=
  bind_error.mpr (.inl (needCapacity_overflow h))

/-! ## UNPAD -/

/-- The sentinel is the byte right below the place where the scan stops. -/
theorem sentinelAt_read_iff {m : Memory} {n j : Nat} :
    sentinelAt (Memory.read m) n j ↔ scanZeros m n = j + 1 ∧ Memory.read m j = 0x80 := by
  obtain ⟨hle, habove, hbelow⟩ := scanZeros_spec m n
  constructor
  · rintro ⟨hj, hmark, hzeros⟩
    refine ⟨Nat.le_antisymm ?_ ?_, hmark⟩
    · by_contra hgt
      exact hbelow.elim (by omega) fun hne => hne (hzeros _ (by omega) (by omega))
    · by_contra hlt
      exact absurd (hmark.symm.trans (habove j (by omega) hj)) (by decide)
  · rintro ⟨hstop, hmark⟩
    exact ⟨by omega, hmark, fun a hja han => habove a (by omega) han⟩

theorem Body.unpad_of_sentinel {p : Params} {d : Data} {j : Nat} (hcap : d.len.toNat ≤ p.bufBytes)
    (hshape : d.len.toNat % 16 = 0) (h : sentinelAt (Memory.read d.buf) d.len.toNat j) :
    Body.unpad p d = .ok { d with len := BitVec.ofNat 32 j } := by
  obtain ⟨hstop, hmark⟩ := sentinelAt_read_iff.mp h
  refine bind_ok.mpr ⟨d, needBlocks_of hcap hshape, ?_⟩
  simp [hstop, hmark]

theorem Body.unpad_of_no_sentinel {p : Params} {d : Data} (hcap : d.len.toNat ≤ p.bufBytes)
    (hshape : d.len.toNat % 16 = 0) (h : ∀ j, ¬ sentinelAt (Memory.read d.buf) d.len.toNat j) :
    Body.unpad p d = .error .invalidPadding := by
  refine bind_error.mpr (.inr ⟨d, needBlocks_of hcap hshape, if_pos ?_⟩)
  refine or_iff_not_imp_left.mpr fun hpos hmark => h (scanZeros d.buf d.len.toNat - 1) ?_
  exact sentinelAt_read_iff.mpr ⟨by omega, hmark⟩

/-! ## The statements -/

/-- Settles O41: the body answers by the test of R111, and `read_padBuffer` gives every byte it leaves. -/
theorem padAppendsTheSentinel : Obligations.PadAppendsTheSentinel := by
  intro s hp hwf
  refine ⟨fun hlen => ?_, fun hlen => State.perform_error (Body.pad_overflow hlen)⟩
  have hfit := paddedLength_le hp hlen
  have hl := toNat_ofNat_of_le_capacity hp hfit
  refine ⟨padBuffer s.data.buf s.data.len.toNat, BitVec.ofNat 32 (paddedLength s.data.len.toNat),
    State.perform_ok (Body.pad_of_le hlen), wf_padBuffer hwf _, hl, hl.trans_le hfit, fun a => ?_⟩
  rw [hl]
  exact read_padBuffer hwf _ a

/-- Settles O42: the body answers by the test of R296, and an aligned message leaves nothing to fill. -/
theorem chunkFillsTheLastBlock : Obligations.ChunkFillsTheLastBlock := by
  intro s hp hwf
  refine ⟨fun hlen => ?_, fun hlen => State.perform_error (Body.chunk_overflow hlen)⟩
  have hfit := chunkedLength_le hp hlen
  have hl := toNat_ofNat_of_le_capacity hp hfit
  refine ⟨chunkBuffer s.data.buf s.data.len.toNat, BitVec.ofNat 32 (chunkedLength s.data.len.toNat),
    State.perform_ok (Body.chunk_of_le hlen), wf_chunkBuffer hwf _, hl, hl.trans_le hfit, fun a => ?_,
    fun haligned => ⟨chunkBuffer_aligned _ haligned, ?_⟩⟩
  · rw [hl]
    exact read_chunkBuffer hwf _ a
  · rw [chunkedLength_aligned haligned, ofNat_toNat_word]

/-- Settles O43: the scan stops right above the sentinel, or there is none. -/
theorem unpadFindsTheSentinel : Obligations.UnpadFindsTheSentinel := fun _ hcap hshape =>
  ⟨fun _ hj => State.perform_ok (Body.unpad_of_sentinel hcap hshape hj),
    fun hnone => State.perform_error (Body.unpad_of_no_sentinel hcap hshape hnone)⟩

/-- Settles O44: the padded buffer of O41 has its sentinel at the old length, where UNPAD finds it (O43). -/
theorem paddingRoundTrip : Obligations.PaddingRoundTrip := by
  intro s hp hwf herr hlen
  obtain ⟨m, l, hpad, -, hl, hcap, hread⟩ := (padAppendsTheSentinel s hp hwf).1 hlen
  have hsentinel : sentinelAt (Memory.read m) l.toNat s.data.len.toNat := by
    refine ⟨by omega, by rw [hread, if_pos rfl], fun a hlo hhi => ?_⟩
    rw [hread, if_neg (by omega), if_pos ⟨hlo, hhi⟩]
  have hunpad := (unpadFindsTheSentinel { s with
    data := { s.data with buf := m, len := l }, busy := false, done := true } hcap
      (hl ▸ Nat.mul_mod_right ..)).1 _ hsentinel
  refine ⟨_, _, hpad, herr, hunpad, herr, ofNat_toNat_word _, fun a ha => ?_⟩
  exact (hread a).trans (by rw [if_neg (by omega), if_neg (by omega)])

end Sys2Proof.Machine
end

section
/-! PROOFS. Key generation and the round count (41_key_matrix_keygen.md R133 to R136), and what stands around the data
that no command's meaning touches (48_orchestrator.md R256): each meaning but that of CLR performs a body, which works on
the data state alone, after the calls of the entropy oracle that the command makes. -/

namespace Sys2Proof.Machine

/-! ## What no command touches -/

/-- How often a command calls the entropy oracle (R133, R134, R259). -/
def entropyCalls (i : Instr) : Nat := if i = .kgen ∨ i = .encg then 1 else 0

/-- Every meaning but that of CLR performs a body, in the state in which the calls of the oracle have been made. The
bodies that always answer are named, since unification would evaluate them. -/
theorem exec_performs_after_calls {i : Instr} (h : i ≠ .clr) (s : State) :
    ∃ body, exec i s = State.perform { s with draws := s.draws + entropyCalls i } body := by
  cases i with
  | clr => exact absurd rfl h
  | kgen => exact ⟨Body.kgen (State.draw s).1, rfl⟩
  | encg => exact ⟨Body.encg (State.draw s).1, rfl⟩
  | nop => exact ⟨Body.nop, rfl⟩
  | kadv => exact ⟨Body.kadv, rfl⟩
  | kbase => exact ⟨Body.kbase, rfl⟩
  | sgen => exact ⟨Body.sgen, rfl⟩
  | _ => exact ⟨_, rfl⟩

/-- The elements that stand around the data state and the flags of R29 (R32, R39), and the model's own fields but its
count of faults. -/
structure State.SameFrame (s t : State) : Prop where
  params : t.params = s.params
  events : t.events = s.events
  response : t.response = s.response
  ieDone : t.ieDone = s.ieDone
  ieErr : t.ieErr = s.ieErr
  bacc : t.bacc = s.bacc
  pend : t.pend = s.pend
  draws : t.draws = s.draws

/-- Completion and fault entry both clear BUSY and leave the frame (R256, R300). -/
theorem State.perform_frame {s t : State} {body : Body} (h : State.perform s body = .next t) :
    t.busy = false ∧ State.SameFrame s t := by
  rcases State.perform_cases s body with ⟨d, -, hs⟩ | ⟨k, -, hs⟩
  · cases hs.symm.trans h
    exact ⟨rfl, rfl, rfl, rfl, rfl, rfl, rfl, rfl, rfl⟩
  · cases hs.symm.trans h
    exact ⟨rfl, rfl, rfl, rfl, rfl, rfl, rfl, rfl, rfl⟩

/-- Settles O13: CLR zeroises around the kept fields, and every other command performs a body. -/
theorem controlFrameOfCommands : Obligations.ControlFrameOfCommands := by
  intro i s t h
  by_cases hclr : i = .clr
  · subst hclr
    cases h
    exact ⟨rfl, rfl, rfl, rfl, rfl, rfl, fun hne => absurd rfl hne, rfl⟩
  · obtain ⟨body, hbody⟩ := exec_performs_after_calls hclr s
    obtain ⟨hbusy, hf⟩ := State.perform_frame (hbody.symm.trans h)
    exact ⟨hf.params, hf.events, hf.response, hf.ieDone, hf.ieErr, hbusy, fun _ => ⟨hf.bacc, hf.pend⟩, hf.draws⟩

/-! ## The drawn key -/

theorem one_le_rounds (x : Draw) : 1 ≤ x.rounds.val := Nat.succ_pos _

theorem rounds_le (x : Draw) : x.rounds.val ≤ 24 := Nat.le_of_lt_succ x.rounds.isLt

/-- The key KGEN loads carries its round count in byte 0 (R134). -/
theorem drawnKey_count (x : Draw) : (x.bytes.set 0 (BitVec.ofNat 8 x.rounds.val))[0].toNat = x.rounds.val := by
  rw [Vector.getElem_set_self, BitVec.toNat_ofNat, Nat.mod_eq_of_lt (by omega)]

/-- Settles O17: the body of KGEN always answers, on the state in which the oracle has been called. -/
theorem kgenLoadsTheDrawnKey : Obligations.KgenLoadsTheDrawnKey := fun s =>
  State.perform_ok (s := (State.draw s).2) (body := Body.kgen (State.draw s).1) rfl

/-! ## The round count of a key -/

theorem Body.kset_of_count {p : Params} {d : Data} {r : Fin 25} (hr : r.val = d.key[0].toNat) (hpos : 1 ≤ r.val) :
    Body.kset p d = .ok { d with r := r, kv := true } := by
  have hrange : 1 ≤ d.key[0].toNat ∧ d.key[0].toNat ≤ 24 := by omega
  have hcount : (⟨d.key[0].toNat, Nat.lt_succ_of_le hrange.2⟩ : Fin 25) = r := Fin.ext hr.symm
  rw [Body.kset, dif_pos hrange, hcount]

theorem Body.kset_out_of_range {p : Params} {d : Data} (h : d.key[0].toNat < 1 ∨ 24 < d.key[0].toNat) :
    Body.kset p d = .error .roundCountOutOfRange :=
  dif_neg (by omega)

/-- Settles O19: the body answers by the range of KEY[0], and this kind of fault keeps KV and R (log entry 6). -/
theorem ksetExtractsTheRoundCount : Obligations.KsetExtractsTheRoundCount := by
  refine fun s => ⟨fun hpos hmax => ?_, fun hout => ⟨State.perform_error (Body.kset_out_of_range hout), rfl, rfl⟩⟩
  have hr : (Fin.ofNat 25 s.data.key[0].toNat).val = s.data.key[0].toNat := Nat.mod_eq_of_lt (by omega)
  exact State.perform_ok (Body.kset_of_count hr (hpos.trans_eq hr.symm))

/-- Settles O18: the count of the drawn key lies in 1..24, so KSET takes it from any state with that key. -/
theorem generatedKeyIsAlwaysAccepted : Obligations.GeneratedKeyIsAlwaysAccepted := by
  intro s t h
  cases (kgenLoadsTheDrawnKey s).symm.trans h
  have hcount := drawnKey_count (Config.entropy s.draws)
  have hpos := one_le_rounds (Config.entropy s.draws)
  refine ⟨hpos, rounds_le (Config.entropy s.draws), hcount.symm, fun u hkey => ?_⟩
  have hr : (Config.entropy s.draws).rounds.val = u.data.key[0].toNat := by rw [hkey]; exact hcount.symm
  exact ⟨_, State.perform_ok (Body.kset_of_count hr hpos), rfl, rfl, rfl⟩

end Sys2Proof.Machine
end

section
/-! PROOFS. The key schedule (42_key_schedule.md R150, R160 to R164): what each of its commands answers, as a body, and
the two ways to a round key. KDRV writes the sequence at once; KADV after KBASE walks along it key by key. -/

namespace Sys2Proof.Machine

/-! ## The sequence of round keys -/

theorem roundKey_h16 (k : KeyMatrix) (i : Nat) : roundKey (h16 k) i = roundKey k (i + 1) := by
  induction i with
  | zero => rw [roundKey, roundKey, roundKey]
  | succ i ih => rw [roundKey, ih, ← roundKey]

theorem keySequence_of_le (k : KeyMatrix) {r : Fin 25} {i : Nat} (hi : i < 25) (h : i ≤ r.val) :
    (keySequence k r)[i] = roundKey k i := by
  rw [keySequence, Vector.getElem_ofFn, if_pos (Fin.le_def.mpr h)]

theorem keySequence_of_gt (k : KeyMatrix) {r : Fin 25} {i : Nat} (hi : i < 25) (h : r.val < i) :
    (keySequence k r)[i] = Vector.replicate 16 0x00 := by
  rw [keySequence, Vector.getElem_ofFn, if_neg (Fin.not_le.mpr h)]

/-! ## The bodies -/

theorem Body.kdrv_of_kv {p : Params} {d : Data} (h : d.kv = true) :
    Body.kdrv p d = .ok { d with rks := keySequence d.key d.r, qv := true } :=
  bind_ok.mpr ⟨d, needFlag_ok.mpr ⟨h, rfl⟩, rfl⟩

theorem Body.kdrv_notReady {p : Params} {d : Data} (h : d.kv = false) : Body.kdrv p d = .error .notReady :=
  bind_error.mpr (.inl (h ▸ needFlag_false d))

theorem Body.ksel_of_le {p : Params} {d : Data} {idx : Nat} (h : idx < 25) (hq : d.qv = true) (hi : idx ≤ d.r.val) :
    Body.ksel idx p d = .ok { d with rk := d.rks[idx] } :=
  bind_ok.mpr ⟨d, needFlag_ok.mpr ⟨hq, rfl⟩, dif_pos hi⟩

theorem Body.ksel_notReady {p : Params} {d : Data} (idx : Nat) (h : d.qv = false) :
    Body.ksel idx p d = .error .notReady :=
  bind_error.mpr (.inl (h ▸ needFlag_false d))

theorem Body.ksel_out_of_range {p : Params} {d : Data} {idx : Nat} (hq : d.qv = true) (hi : d.r.val < idx) :
    Body.ksel idx p d = .error .keyIndexRange :=
  bind_error.mpr (.inr ⟨d, needFlag_ok.mpr ⟨hq, rfl⟩, dif_neg (Nat.not_le.mpr hi)⟩)

/-! ## The commands -/

theorem exec_kdrv_of_kv {s : State} (h : s.data.kv = true) : exec .kdrv s = .next (State.complete { s with
    data := { s.data with rks := keySequence s.data.key s.data.r, qv := true } }) :=
  State.perform_ok (Body.kdrv_of_kv h)

theorem exec_kadv (s : State) :
    exec .kadv s = .next (State.complete { s with data := { s.data with rk := h16 s.data.rk } }) :=
  State.perform_ok (body := Body.kadv) rfl

theorem exec_kbase (s : State) :
    exec .kbase s = .next (State.complete { s with data := { s.data with rk := s.data.key } }) :=
  State.perform_ok (body := Body.kbase) rfl

/-- The commands behind one that completes are performed in the state it leaves. -/
theorem execList_cons {i : Instr} {is : List Instr} {s t : State} (h : exec i s = .next t) (he : t.err = false) :
    execList (i :: is) s = execList is t := by
  rw [execList, h]
  simp only [he, Bool.false_eq_true, if_false]

/-- `i` times KADV go `i` keys along the sequence that starts at RK (R161). -/
theorem execList_kadv {s : State} (he : s.err = false) (i : Nat) :
    ∃ t, execList (List.replicate i .kadv) s = .next t ∧ t.data.rk = roundKey s.data.rk i := by
  induction i generalizing s with
  | zero => exact ⟨s, rfl, rfl⟩
  | succ i ih =>
    obtain ⟨t, hrun, hrk⟩ := ih (s := State.complete { s with data := { s.data with rk := h16 s.data.rk } }) he
    exact ⟨t, (execList_cons (exec_kadv s) he).trans hrun, hrk.trans (roundKey_h16 s.data.rk i)⟩

/-! ## The statements -/

/-- Settles O20: the entries of the sequence KDRV writes, up to R and above it. -/
theorem kdrvDerivesTheSequence : Obligations.KdrvDerivesTheSequence := by
  refine fun s => ⟨fun hkv => ?_, fun hkv => State.perform_error (Body.kdrv_notReady hkv)⟩
  refine ⟨keySequence s.data.key s.data.r, exec_kdrv_of_kv hkv, ?_, fun i hi hle => ?_, fun i hi hgt => ?_⟩
  · rw [keySequence_of_le _ _ (Nat.zero_le _), roundKey]
  · rw [keySequence_of_le _ (by omega) hle, keySequence_of_le _ (by omega) (by omega), roundKey]
  · exact keySequence_of_gt _ hi hgt

/-- Settles O21: each body answers as its rule says, and H16 takes the first bytes of the digest (R151). -/
theorem roundKeyCommandsSetRk : Obligations.RoundKeyCommandsSetRk := by
  refine fun s => ⟨⟨h16 s.data.rk, exec_kadv s, fun n hn => ?_⟩, exec_kbase s, fun idx => ⟨?_, ?_, ?_⟩⟩
  · rw [h16, Vector.getElem_ofFn]
  · exact fun h hqv hle => State.perform_ok (Body.ksel_of_le h hqv hle)
  · exact fun hqv => State.perform_error (Body.ksel_notReady idx hqv)
  · exact fun hqv hgt => State.perform_error (Body.ksel_out_of_range hqv hgt)

/-- Settles O22: KDRV's sequence is a function of KEY and R, and its entry `i` is the `i`-th key that KADV reaches from
KEY. -/
theorem twoWaysToTheSameRoundKey : Obligations.TwoWaysToTheSameRoundKey := by
  intro s he hkv
  refine ⟨_, exec_kdrv_of_kv hkv, fun s' hkv' hkey hr => ⟨_, exec_kdrv_of_kv hkv', ?_⟩, fun i hi hle => ?_⟩
  · simp only [State.complete_data, hkey, hr]
  · obtain ⟨t, hrun, hrk⟩ := execList_kadv
      (s := State.complete { s with data := { s.data with rk := s.data.key } }) he i
    exact ⟨t, (execList_cons (exec_kbase s) he).trans hrun, hrk,
      hrk.trans (keySequence_of_le s.data.key hi hle).symm⟩

end Sys2Proof.Machine
end

section
/-! PROOFS. The hash (42_key_schedule.md R152 to R158): the padded block byte by byte, the message schedule, and the 64
rounds of the compression. The list of the schedule grows at its head, so the words already made are a suffix of every
later list, and `getElem?_schedule` reads each of them in the finished schedule. -/

namespace Sys2Proof.Machine

/-! ## The padded block -/

/-- The bit length of a message, big-endian in eight bytes (R157). -/
def lengthBytes (m : List Byte) : List Byte :=
  (List.range 8).map fun i => (BitVec.ofNat 64 (8 * m.length)).extractLsb' (8 * (7 - i)) 8

theorem hashPad_eq (m : List Byte) :
    hashPad m = m ++ 0x80 :: (List.replicate (55 - m.length) 0x00 ++ lengthBytes m) := by
  simp only [hashPad, lengthBytes, List.append_assoc, List.cons_append, List.nil_append]

theorem length_hashPad {m : List Byte} (h : m.length ≤ 55) : (hashPad m).length = 64 := by
  simp only [hashPad_eq, lengthBytes, List.length_append, List.length_cons, List.length_replicate, List.length_map,
    List.length_range]
  omega

theorem getElem?_hashPad_message {m : List Byte} {i : Nat} (h : i < m.length) : (hashPad m)[i]? = m[i]? := by
  rw [hashPad_eq, List.getElem?_append_left h]

theorem getElem?_hashPad_mark (m : List Byte) : (hashPad m)[m.length]? = some 0x80 := by
  rw [hashPad_eq, List.getElem?_append_right le_rfl, Nat.sub_self, List.getElem?_cons_zero]

/-- Behind the mark stand the zeros and the bit length. -/
theorem getElem?_hashPad_tail (m : List Byte) (i : Nat) :
    (hashPad m)[m.length + (i + 1)]? = (List.replicate (55 - m.length) 0x00 ++ lengthBytes m)[i]? := by
  rw [hashPad_eq, List.getElem?_append_right (Nat.le_add_right ..), Nat.add_sub_cancel_left, List.getElem?_cons_succ]

theorem getElem?_hashPad_zeros {m : List Byte} {i : Nat} (hlo : m.length < i) (hhi : i < 56) :
    (hashPad m)[i]? = some 0x00 := by
  obtain ⟨k, rfl⟩ := Nat.exists_eq_add_of_lt hlo
  have hk : k < 55 - m.length := by omega
  rw [Nat.add_assoc, getElem?_hashPad_tail, List.getElem?_append_left (by rwa [List.length_replicate]),
    List.getElem?_replicate, if_pos hk]

theorem getElem?_hashPad_length {m : List Byte} (h : m.length ≤ 55) (j : Nat) :
    (hashPad m)[56 + j]? = (lengthBytes m)[j]? := by
  have hindex : 56 + j = m.length + (55 - m.length + j + 1) := by omega
  rw [hindex, getElem?_hashPad_tail, List.getElem?_append_right (by rw [List.length_replicate]; omega),
    List.length_replicate, Nat.add_sub_cancel_left]

/-- Byte `k` of a 64-bit number, counted from the least significant one. -/
theorem extractLsb'_byte {n : Nat} (h : n < 2 ^ 64) (k : Nat) :
    (BitVec.ofNat 64 n).extractLsb' (8 * k) 8 = BitVec.ofNat 8 (n / 256 ^ k) := by
  have hpow : (256 : Nat) ^ k = 2 ^ (8 * k) := by rw [Nat.pow_mul]
  apply BitVec.eq_of_toNat_eq
  rw [BitVec.extractLsb'_toNat, BitVec.toNat_ofNat, BitVec.toNat_ofNat, Nat.mod_eq_of_lt h,
    Nat.shiftRight_eq_div_pow, hpow]

theorem getElem?_lengthBytes {m : List Byte} (h : m.length ≤ 55) {j : Nat} (hj : j < 8) :
    (lengthBytes m)[j]? = some (BitVec.ofNat 8 (8 * m.length / 256 ^ (7 - j))) := by
  rw [lengthBytes, List.getElem?_map, List.getElem?_range hj, Option.map_some, extractLsb'_byte (by omega)]

/-! ## The message schedule -/

/-- The word the recurrence of R158 gives for the words before it, newest first. -/
def nextWord (w : List Word) : Word :=
  ssig1 (w.getD 1 0) + w.getD 6 0 + ssig0 (w.getD 14 0) + w.getD 15 0

/-- `W[0..15]`, newest first. -/
def blockWords (p : List Byte) : List Word := ((List.range 16).map (bigEndian p)).reverse

theorem schedule_eq (p : List Byte) : schedule p = (extendSchedule 48 (blockWords p)).reverse := rfl

theorem length_blockWords (p : List Byte) : (blockWords p).length = 16 := by simp [blockWords]

/-- The last of `n + 1` new words comes from the list that the `n` before it made. -/
theorem extendSchedule_succ (n : Nat) (w : List Word) :
    extendSchedule (n + 1) w = nextWord (extendSchedule n w) :: extendSchedule n w := by
  induction n generalizing w with
  | zero => rfl
  | succ n ih => exact ih (nextWord w :: w)

theorem length_extendSchedule (n : Nat) (w : List Word) : (extendSchedule n w).length = n + w.length := by
  induction n with
  | zero => simp [extendSchedule]
  | succ n ih => rw [extendSchedule_succ, List.length_cons, ih]; omega

theorem length_schedule (p : List Byte) : (schedule p).length = 64 := by
  rw [schedule_eq, List.length_reverse, length_extendSchedule, length_blockWords]

/-- Words once made stay. -/
theorem extendSchedule_suffix {k n : Nat} (h : k ≤ n) (w : List Word) :
    extendSchedule k w <:+ extendSchedule n w := by
  induction h with
  | refl => exact List.suffix_rfl
  | step _ ih => rw [extendSchedule_succ]; exact ih.trans (List.suffix_cons _ _)

/-- With `k` words made, the one at `j`, counted from the newest, stands at `15 + k - j` in the finished schedule. -/
theorem getElem?_schedule (p : List Byte) {i j k : Nat} (hk : k ≤ 48) (hij : i + j = 15 + k) :
    (schedule p)[i]? = (extendSchedule k (blockWords p))[j]? := by
  obtain ⟨newer, hnewer⟩ := extendSchedule_suffix hk (blockWords p)
  have hlen : newer.length + (k + 16) = 48 + 16 := by
    simpa [length_extendSchedule, length_blockWords] using congrArg List.length hnewer
  have hindex : i + (newer.length + j) + 1 = (extendSchedule 48 (blockWords p)).length := by
    rw [length_extendSchedule, length_blockWords]; omega
  rw [schedule_eq, List.getElem?_reverse' hindex, ← hnewer, List.getElem?_append_right (Nat.le_add_right _ _),
    Nat.add_sub_cancel_left]

theorem getD_schedule (p : List Byte) {i j k : Nat} (hk : k ≤ 48) (hij : i + j = 15 + k) :
    (extendSchedule k (blockWords p)).getD j 0 = (schedule p).getD i 0 := by
  rw [List.getD_eq_getElem?_getD, List.getD_eq_getElem?_getD, getElem?_schedule p hk hij]

theorem getElem?_schedule_block (p : List Byte) {t : Nat} (h : t < 16) :
    (schedule p)[t]? = some (bigEndian p t) := by
  have hindex : (15 - t) + t + 1 = ((List.range 16).map (bigEndian p)).length := by
    rw [List.length_map, List.length_range]; omega
  rw [getElem?_schedule p (j := 15 - t) (Nat.zero_le 48) (by omega), extendSchedule, blockWords,
    List.getElem?_reverse' hindex, List.getElem?_map, List.getElem?_range h, Option.map_some]

theorem getElem?_schedule_next (p : List Byte) {k : Nat} (h : k < 48) :
    (schedule p)[16 + k]? = some (nextWord (extendSchedule k (blockWords p))) := by
  rw [getElem?_schedule p (j := 0) (Nat.succ_le_of_lt h) (by omega), extendSchedule_succ, List.getElem?_cons_zero]

/-! ## The rounds -/

/-- The rotation of R153 is the library's. -/
theorem rotr_eq_rotateRight (x : Word) {n : Nat} (h : n < 32) : rotr x n = x.rotateRight n := by
  rw [rotr, BitVec.rotateRight_def, Nat.mod_eq_of_lt h]

/-- The big functions of the rounds, with the library's rotations (R154). -/
theorem bsig0_eq (x : Word) : bsig0 x = x.rotateRight 2 ^^^ x.rotateRight 13 ^^^ x.rotateRight 22 := by
  simp only [bsig0, rotr_eq_rotateRight, Nat.reduceLT]

theorem bsig1_eq (x : Word) : bsig1 x = x.rotateRight 6 ^^^ x.rotateRight 11 ^^^ x.rotateRight 25 := by
  simp only [bsig1, rotr_eq_rotateRight, Nat.reduceLT]

/-- The small functions of the schedule, with the library's rotations (R154). -/
theorem ssig0_eq (x : Word) : ssig0 x = x.rotateRight 7 ^^^ x.rotateRight 18 ^^^ (x >>> 3) := by
  simp only [ssig0, rotr_eq_rotateRight, Nat.reduceLT]

theorem ssig1_eq (x : Word) : ssig1 x = x.rotateRight 17 ^^^ x.rotateRight 19 ^^^ (x >>> 10) := by
  simp only [ssig1, rotr_eq_rotateRight, Nat.reduceLT]

/-- One more constant and one more word give one more round. -/
theorem hashRounds_take_succ : ∀ {s : HashWords} {kcs ws : List Word} {t : Nat} {kc w : Word},
    kcs[t]? = some kc → ws[t]? = some w →
    hashRounds s (kcs.take (t + 1)) (ws.take (t + 1)) = hashRound (hashRounds s (kcs.take t) (ws.take t)) kc w
  | s, _ :: kcs, _ :: ws, 0, _, _, rfl, rfl => by simp only [List.take_zero, List.take_succ_cons, hashRounds]
  | s, a :: kcs, b :: ws, t + 1, _, _, hk, hw =>
    hashRounds_take_succ (s := hashRound s a b) (kcs := kcs) (ws := ws) hk hw

/-- The working words after the first `t` rounds over the message `m`. -/
def workingWords (m : List Byte) (t : Nat) : HashWords :=
  hashRounds hashInit (roundConstants.take t) ((schedule (hashPad m)).take t)

theorem workingWords_zero (m : List Byte) : workingWords m 0 = hashInit := rfl

theorem workingWords_succ {m : List Byte} {t : Nat} {kc w : Word} (hk : roundConstants[t]? = some kc)
    (hw : (schedule (hashPad m))[t]? = some w) : workingWords m (t + 1) = hashRound (workingWords m t) kc w :=
  hashRounds_take_succ hk hw

theorem length_roundConstants : roundConstants.length = 64 := rfl

theorem workingWords_all (m : List Byte) :
    workingWords m 64 = hashRounds hashInit roundConstants (schedule (hashPad m)) := by
  rw [workingWords, List.take_of_length_le length_roundConstants.le, List.take_of_length_le (length_schedule _).le]

/-- The cube root of the `t`-th prime times `2^32`, rounded down: the whole part of the root, then the constant as its
first 32 fraction bits (R155). -/
def scaledCubeRoot (t : Nat) : Nat :=
  Nat.findGreatest (fun a => a ^ 3 ≤ hashPrimes.getD t 0) 6 * 2 ^ 32 + (roundConstants.getD t 0).toNat

theorem scaledCubeRoot_spec : ∀ t : Fin 64, scaledCubeRoot t ^ 3 ≤ hashPrimes[t] * 2 ^ 96 ∧
    hashPrimes[t] * 2 ^ 96 < (scaledCubeRoot t + 1) ^ 3 ∧
    roundConstants[t] = BitVec.ofNat 32 (scaledCubeRoot t) := by
  decide +kernel

/-! ## The digest -/

/-- The digest words, most significant byte first (R152). -/
theorem getElem_sha256 (m : List Byte) (j : Fin 8) (n : Fin 4) :
    (sha256 m)[4 * j.val + n.val] = ((hashWords m).getD j.val 0).extractLsb' (8 * (3 - n.val)) 8 := by
  have hj : (4 * j.val + n.val) / 4 = j.val := by omega
  have hn : (4 * j.val + n.val) % 4 = n.val := by omega
  rw [sha256, Vector.getElem_ofFn, hj, hn]

theorem hashWords_eq (m : List Byte) : hashWords m =
    [hashInit.a + (workingWords m 64).a, hashInit.b + (workingWords m 64).b, hashInit.c + (workingWords m 64).c,
      hashInit.d + (workingWords m 64).d, hashInit.e + (workingWords m 64).e, hashInit.f + (workingWords m 64).f,
      hashInit.g + (workingWords m 64).g, hashInit.h + (workingWords m 64).h] := by
  rw [workingWords_all, hashWords]

/-! ## The statements -/

/-- Settles O23: the parts of the block, read one behind the other. -/
theorem hashBlockLayout : Obligations.HashBlockLayout := fun m h =>
  ⟨length_hashPad h, fun _ => getElem?_hashPad_message, getElem?_hashPad_mark m, fun _ => getElem?_hashPad_zeros,
    fun j hj => (getElem?_hashPad_length h j).trans (getElem?_lengthBytes h hj)⟩

/-- Settles O24: a later word is the newest of its list, and the four words it is made of stand in the finished
schedule where R158 counts them. -/
theorem messageScheduleRecurrence : Obligations.MessageScheduleRecurrence := by
  refine fun p => ⟨length_schedule p, fun t ht => getElem?_schedule_block p ht, fun t hlo hhi => ?_⟩
  obtain ⟨k, rfl⟩ := Nat.exists_eq_add_of_le hlo
  have hk : k < 48 := by omega
  rw [getElem?_schedule_next p hk, nextWord,
    getD_schedule p (i := 16 + k - 2) (j := 1) hk.le (by omega),
    getD_schedule p (i := 16 + k - 7) (j := 6) hk.le (by omega),
    getD_schedule p (i := 16 + k - 15) (j := 14) hk.le (by omega),
    getD_schedule p (i := 16 + k - 16) (j := 15) hk.le (by omega)]

/-- Settles O60: the working words are the rounds over the first constants and schedule words, and all 64 of them make
the digest. -/
theorem compressionAndDigest : Obligations.CompressionAndDigest := by
  refine ⟨fun x => ⟨ssig0_eq x, ssig1_eq x⟩, fun m _ =>
    ⟨workingWords m, workingWords_zero m, fun t ht => ?_, fun j n x hx => ?_⟩⟩
  · obtain ⟨hle, hlt, hkc⟩ := scaledCubeRoot_spec ⟨t, ht⟩
    have hw := List.getElem?_eq_getElem (ht.trans_eq (length_schedule (hashPad m)).symm)
    refine ⟨hashPrimes[t], _, roundConstants[t], _, _, _, List.getElem?_eq_getElem _, hle, hlt, hkc, hw, rfl, rfl, ?_⟩
    rw [workingWords_succ (List.getElem?_eq_getElem ht) hw, hashRound, bsig0_eq, bsig1_eq, hashCh, hashMaj]
  · rw [getElem_sha256, List.getD_eq_getElem?_getD, hashWords_eq]
    exact congrArg (fun y => (Option.getD y 0).extractLsb' (8 * (3 - n.val)) 8) hx

end Sys2Proof.Machine
end

section
/-! PROOFS. The substitution layer (43_substitution.md R182 to R191). The shuffle of SGEN is read swap by swap; the
tables it can give repeat no value, so INVERT undoes them; SUB.F and SUB.R are one byte layer behind two valid flags. -/

namespace Sys2Proof.Machine

/-! ## The shuffle, swap by swap -/

/-- The exchange of two entries of a table (R182), read at every index. -/
theorem Table.getElem_swapIfInBounds (t : Table) {i j v : Nat} (hi : i < 256) (hj : j < 256) (hv : v < 256) :
    (t.swapIfInBounds i j)[v] = if v = i then t[j] else if v = j then t[i] else t[v] := by
  rw [Table.swapIfInBounds_eq, dif_pos ⟨hi, hj⟩, Vector.getElem_swap]

/-- The table after the first `k` swaps of a shuffle that goes down from `i + k`: those for the indices `i + k` downto
`i + 1` (R182). -/
def shuffleAbove (draw : Nat → Nat) (t : Table) : Nat → Nat → Table
  | _, 0 => t
  | i, k + 1 => (shuffleAbove draw t (i + 1) k).swapIfInBounds (i + 1) (draw (i + 1))

/-- A shuffle from `i + k` down is its first `k` swaps and then the shuffle from `i` down. -/
theorem shuffle_shuffleAbove (draw : Nat → Nat) (t : Table) (i k : Nat) :
    shuffle draw i (shuffleAbove draw t i k) = shuffle draw (i + k) t := by
  induction k generalizing i with
  | zero => rw [shuffleAbove, Nat.add_zero]
  | succ k ih => rw [shuffleAbove, ← shuffle, ih, Nat.succ_add_eq_add_succ]

/-- The table of GENSBOX when the swaps for the indices above `i` are done (R182). -/
def genSboxAbove (x : SboxDraw) (k : KeyMatrix) (i : Nat) : Table :=
  shuffleAbove (sboxDraw x (sha256 k.toList)) identityTable i (255 - i)

theorem genSboxAbove_zero (x : SboxDraw) (k : KeyMatrix) : genSboxAbove x k 0 = genSbox x k := by
  rw [genSboxAbove, genSbox, ← Nat.zero_add 255, ← shuffle_shuffleAbove, shuffle, Nat.zero_add]

theorem genSboxAbove_last (x : SboxDraw) (k : KeyMatrix) : genSboxAbove x k 255 = identityTable := by
  rw [genSboxAbove, Nat.sub_self, shuffleAbove]

/-- Each table comes from the one before it by the swap of its turn. -/
theorem genSboxAbove_swap (x : SboxDraw) (k : KeyMatrix) {i : Nat} (hi : i < 255) : genSboxAbove x k i =
    (genSboxAbove x k (i + 1)).swapIfInBounds (i + 1) (sboxDraw x (sha256 k.toList) (i + 1)) := by
  have hleft : 255 - i = 255 - (i + 1) + 1 := by omega
  rw [genSboxAbove, hleft, shuffleAbove, ← genSboxAbove]

/-- Every `SBOX_DRAW` answers in `0..i` (R10, R182). -/
theorem sboxDraw_le (x : SboxDraw) (dg : Digest) (i : Nat) : sboxDraw x dg i ≤ i := by
  cases x with
  | digestCounter => exact Nat.le_of_lt_succ (Nat.mod_lt _ i.succ_pos)
  | other n => exact Nat.le_of_lt_succ (Nat.mod_lt _ i.succ_pos)

theorem identityTable_getElem {v : Nat} (h : v < 256) : identityTable[v] = BitVec.ofNat 8 v := by
  rw [identityTable, Vector.getElem_ofFn]

theorem exec_sgen (s : State) : exec .sgen s = .next (State.complete { s with
    data := { s.data with sbox := genSbox s.params.sboxDraw s.data.key, sv := true, nv := false } }) :=
  State.perform_ok (body := Body.sgen) rfl

/-! ## The inverse table -/

/-- INVERT gives the last place of a value in the table (R185). -/
theorem invertTable_of_last {t : Table} {i : Fin 256} (h : ∀ j : Fin 256, i < j → t[j.val] ≠ t[i.val]) :
    (invertTable t)[t[i.val].toNat] = BitVec.ofNat 8 i.val :=
  (invertUpTo_spec t 256 le_rfl t[i.val]).1 i i.isLt rfl fun j hj _ => h j hj

/-- INVERT gives 0x00 for a value the table does not take (R185). -/
theorem invertTable_of_absent {t : Table} {v : Byte} (h : ∀ i : Fin 256, t[i.val] ≠ v) :
    (invertTable t)[v.toNat] = 0x00 :=
  (invertUpTo_spec t 256 le_rfl v).2 fun i _ => h i

theorem Body.sinv_of_sv {p : Params} {d : Data} (h : d.sv = true) :
    Body.sinv p d = .ok { d with inv := invertTable d.sbox, nv := true } :=
  bind_ok.mpr ⟨d, needFlag_ok.mpr ⟨h, rfl⟩, rfl⟩

theorem Body.sinv_notReady {p : Params} {d : Data} (h : d.sv = false) : Body.sinv p d = .error .notReady :=
  bind_error.mpr (.inl (h ▸ needFlag_false d))

/-! ## The byte layer -/

/-- The data with every message byte replaced by its entry in a table (R187). -/
def Data.substitute (d : Data) (t : Table) : Data :=
  { d with buf := Memory.mapBytes (fun b => t[b.toNat]) d.len.toNat d.buf }

theorem byteLayer_of {t : Table} {p : Params} {d : Data} (hcap : d.len.toNat ≤ p.bufBytes)
    (hshape : d.len.toNat % 16 = 0) : byteLayer t p d = .ok (d.substitute t) :=
  byteLayer_ok.mpr ⟨hcap, hshape, rfl⟩

theorem byteLayer_overflow (t : Table) {p : Params} {d : Data} (h : p.bufBytes < d.len.toNat) :
    byteLayer t p d = .error .bufferOverflow :=
  bind_error.mpr (.inl (needBlocks_overflow h))

theorem byteLayer_shape (t : Table) {p : Params} {d : Data} (hcap : d.len.toNat ≤ p.bufBytes)
    (hshape : d.len.toNat % 16 ≠ 0) : byteLayer t p d = .error .blockShape :=
  bind_error.mpr (.inl (needBlocks_shape hcap hshape))

/-- A second table that undoes the first restores the data. -/
theorem Data.substitute_substitute {d : Data} (hwf : Memory.wf d.buf) {t t' : Table}
    (h : ∀ b : Byte, t'[t[b.toNat].toNat] = b) : (d.substitute t).substitute t' = d := by
  obtain ⟨hwf1, hread1⟩ := Memory.mapBytes_spec hwf (fun b => t[b.toNat]) d.len.toNat
  obtain ⟨hwf2, hread2⟩ := Memory.mapBytes_spec hwf1 (fun b => t'[b.toNat]) d.len.toNat
  have hbuf : ((d.substitute t).substitute t').buf = d.buf := by
    refine Memory.ext_of_read hwf2 hwf fun a => (hread2 a).trans ?_
    simp only [hread1 a]
    split
    · exact h _
    · rfl
  exact congrArg (fun m => { d with buf := m }) hbuf

/-! ## SUB.F and SUB.R -/

/-- Performing looks at a body's answer on the present data only. -/
theorem State.perform_congr {s : State} {body body' : Body} (h : body s.params s.data = body' s.params s.data) :
    State.perform s body = State.perform s body' := by
  rw [State.perform, State.perform, h]

/-- While SV = 1, SUB.F is the byte layer of SBOX (R188). -/
theorem exec_subF_of_sv {s : State} (h : s.data.sv = true) :
    exec .subF s = State.perform s (byteLayer s.data.sbox) :=
  State.perform_congr (body := Body.subF) (by rw [Body.subF, h, needFlag_true, ok_bind])

/-- While NV = 1, SUB.R is the byte layer of INV (R189). -/
theorem exec_subR_of_nv {s : State} (h : s.data.nv = true) :
    exec .subR s = State.perform s (byteLayer s.data.inv) :=
  State.perform_congr (body := Body.subR) (by rw [Body.subR, h, needFlag_true, ok_bind])

theorem exec_subF_notReady {s : State} (h : s.data.sv = false) :
    exec .subF s = .next (State.faultEntry s .notReady) :=
  State.perform_error (body := Body.subF) (by rw [Body.subF, h, needFlag_false, error_bind])

theorem exec_subR_notReady {s : State} (h : s.data.nv = false) :
    exec .subR s = .next (State.faultEntry s .notReady) :=
  State.perform_error (body := Body.subR) (by rw [Body.subR, h, needFlag_false, error_bind])

/-- The state in which a byte layer through `t` has completed (R187, R256). -/
def State.substituted (s : State) (t : Table) : State := State.complete { s with data := s.data.substitute t }

theorem exec_subF_of {s : State} (h : s.data.sv = true) (hcap : s.data.len.toNat ≤ s.params.bufBytes)
    (hshape : s.data.len.toNat % 16 = 0) : exec .subF s = .next (s.substituted s.data.sbox) :=
  (exec_subF_of_sv h).trans (State.perform_ok (byteLayer_of hcap hshape))

theorem exec_subR_of {s : State} (h : s.data.nv = true) (hcap : s.data.len.toNat ≤ s.params.bufBytes)
    (hshape : s.data.len.toNat % 16 = 0) : exec .subR s = .next (s.substituted s.data.inv) :=
  (exec_subR_of_nv h).trans (State.perform_ok (byteLayer_of hcap hshape))

/-! ## The statements -/

/-- Settles O25: the tables are those of `genSboxAbove`, and the swap between two of them is read entry by entry. -/
theorem sgenBuildsTheTableOfKey : Obligations.SgenBuildsTheTableOfKey := by
  intro s
  refine ⟨genSboxAbove s.params.sboxDraw s.data.key, ?_, genSboxAbove_zero _ _, fun v => ?_, fun i hi => ?_⟩
  · rw [genSboxAbove_zero]
    exact exec_sgen s
  · simp only [genSboxAbove_last, identityTable_getElem v.isLt]
  · have hj := sboxDraw_le s.params.sboxDraw (sha256 s.data.key.toList) (i + 1)
    refine ⟨_, hj, _, rfl, fun hx => ?_, fun n hx => ?_, ?_, ?_, fun v hv hne hne' => ?_⟩
    · rw [hx, sboxDraw, digestCounterDraw]
    · rw [hx, sboxDraw]
    all_goals
      simp only [genSboxAbove_swap _ _ hi]
      rw [Table.getElem_swapIfInBounds _ (by omega) (by omega)]
    · rw [if_pos rfl]
    · split
      · next heq => simp only [heq]
      · rw [if_pos rfl]
    · rw [if_neg hne, if_neg hne']

/-- Settles O26: no swap repeats a value, whatever the draws, and INVERT undoes a table that repeats none. -/
theorem generatedTableIsAPermutation : Obligations.GeneratedTableIsAPermutation :=
  ⟨fun draw _ => shuffle_distinct draw 255 identityTable_distinct, fun x k => ⟨genSbox_distinct x k, fun v =>
    ⟨invertTable_getElem (genSbox_distinct x k) v, getElem_invertTable (genSbox_distinct x k) v⟩⟩⟩

/-- Settles O27: the body answers by SV, and its table is read at the values SBOX takes and at the others. -/
theorem sinvInvertsTheTable : Obligations.SinvInvertsTheTable := fun s =>
  ⟨fun hsv => ⟨invertTable s.data.sbox, State.perform_ok (Body.sinv_of_sv hsv), fun _ => invertTable_of_last,
      fun _ => invertTable_of_absent⟩,
    fun hsv => State.perform_error (Body.sinv_notReady hsv)⟩

/-- Settles O28: both commands complete with the byte layer, each through its own table. -/
theorem substitutionReplacesMessageBytes : Obligations.SubstitutionReplacesMessageBytes := by
  intro s hwf hcap hshape
  have hbytes (t : Table) := Memory.mapBytes_spec hwf (fun b => t[b.toNat]) s.data.len.toNat
  exact ⟨fun hsv => ⟨_, exec_subF_of hsv hcap hshape, hbytes s.data.sbox⟩,
    fun hnv => ⟨_, exec_subR_of hnv hcap hshape, hbytes s.data.inv⟩⟩

/-- Settles O29: the flag is tested before the byte layer is performed, which makes the two checks on LEN (R307). -/
theorem substitutionFaultsInOrder : Obligations.SubstitutionFaultsInOrder := by
  intro s i flag h
  obtain ⟨t, hnotReady, hready⟩ : ∃ t, (flag = false → exec i s = .next (State.faultEntry s .notReady)) ∧
      (flag = true → exec i s = State.perform s (byteLayer t)) := by
    rcases h with ⟨rfl, rfl⟩ | ⟨rfl, rfl⟩
    · exact ⟨s.data.sbox, exec_subF_notReady, exec_subF_of_sv⟩
    · exact ⟨s.data.inv, exec_subR_notReady, exec_subR_of_nv⟩
  exact ⟨hnotReady,
    fun hf hlen => (hready hf).trans (State.perform_error (byteLayer_overflow t hlen)),
    fun hf hcap hshape => (hready hf).trans (State.perform_error (byteLayer_shape t hcap hshape))⟩

/-- Settles O30: under the invariant SBOX is a table of GENSBOX and INV its inverse, so either layer undoes the
other. -/
theorem substitutionRoundTrip : Obligations.SubstitutionRoundTrip := by
  intro s hinv herr hsv hnv hcap hshape
  have hflags := hinv.consistent herr
  have hdistinct : Table.distinct s.data.sbox := hflags.table hsv ▸ genSbox_distinct _ _
  have hinverse : s.data.inv = invertTable s.data.sbox := (hflags.inverse hnv).2
  have hforward (b : Byte) : s.data.inv[s.data.sbox[b.toNat].toNat] = b := by
    simp only [hinverse, invertTable_getElem hdistinct]
  have hreverse (b : Byte) : s.data.sbox[s.data.inv[b.toNat].toNat] = b := by
    simp only [hinverse, getElem_invertTable hdistinct]
  exact
    ⟨⟨_, _, exec_subF_of hsv hcap hshape, exec_subR_of (s := s.substituted s.data.sbox) hnv hcap hshape, herr,
      Data.substitute_substitute hinv.canonical hforward⟩,
    ⟨_, _, exec_subR_of hnv hcap hshape, exec_subF_of (s := s.substituted s.data.inv) hsv hcap hshape, herr,
      Data.substitute_substitute hinv.canonical hreverse⟩⟩

end Sys2Proof.Machine
end

section
/-! PROOFS. The diffusion layer (44_diffusion.md R200 to R205). ROT.F and ROT.R are each a block layer, whose function is
read cell by cell as the library's rotation by the shift of the cell's row; the two functions undo each other. -/

namespace Sys2Proof.Machine

/-! ## The block layer -/

/-- The data with every message block replaced by `f` of it (R14). -/
def Data.mapMessage (d : Data) (f : Block → Block) : Data :=
  { d with buf := Memory.mapBlocks f d.nblk d.buf }

theorem blockLayer_of {f : Block → Block} {p : Params} {d : Data} (hcap : d.len.toNat ≤ p.bufBytes)
    (hshape : d.len.toNat % 16 = 0) : blockLayer f p d = .ok (d.mapMessage f) :=
  blockLayer_ok.mpr ⟨hcap, hshape, rfl⟩

/-- The state in which a block layer through `f` has completed (R256). -/
def State.layered (s : State) (f : Block → Block) : State := State.complete { s with data := s.data.mapMessage f }

/-- A byte of a mapped block, by its place in the block. -/
theorem Memory.read_mapBlocks_below {m : Memory} (h : Memory.wf m) (f : Block → Block) {n i j : Nat} (hi : i < n)
    (hj : j < 16) : Memory.read (Memory.mapBlocks f n m) (16 * i + j) = (f (Memory.block m i))[j] := by
  rw [← Memory.block_getElem _ _ _ hj]
  simp only [(Memory.mapBlocks_spec h f n).2, if_pos hi]

/-- A byte above the mapped blocks. -/
theorem Memory.read_mapBlocks_above {m : Memory} (h : Memory.wf m) (f : Block → Block) {n a : Nat} (ha : 16 * n ≤ a) :
    Memory.read (Memory.mapBlocks f n m) a = Memory.read m a := by
  rw [Memory.read_mapBlocks h, if_neg (by omega)]

/-- No byte from LEN up is a byte of a whole block of the message. -/
theorem Data.read_mapMessage_above {d : Data} (hwf : Memory.wf d.buf) (f : Block → Block) {a : Nat}
    (ha : d.len.toNat ≤ a) : Memory.read (d.mapMessage f).buf a = Memory.read d.buf a :=
  Memory.read_mapBlocks_above hwf f ((Data.nblk_le le_rfl).trans ha)

/-- A second block function that undoes the first restores the data. -/
theorem Data.mapMessage_mapMessage {d : Data} (hwf : Memory.wf d.buf) {f g : Block → Block} (h : ∀ b, g (f b) = b) :
    (d.mapMessage f).mapMessage g = d := by
  obtain ⟨hwf1, hblock1⟩ := Memory.mapBlocks_spec hwf f d.nblk
  obtain ⟨hwf2, hblock2⟩ := Memory.mapBlocks_spec hwf1 g d.nblk
  have hblock (i : Nat) : Memory.block ((d.mapMessage f).mapMessage g).buf i = Memory.block d.buf i := by
    refine (hblock2 i).trans ?_
    rw [hblock1 i]
    split
    · exact h _
    · rfl
  have hbuf : ((d.mapMessage f).mapMessage g).buf = d.buf := by
    refine Memory.ext_of_read hwf2 hwf fun a => ?_
    rw [Memory.read_eq_block, Memory.read_eq_block d.buf]
    simp only [hblock]
  exact congrArg (fun m => { d with buf := m }) hbuf

/-! ## Rotations of a byte -/

/-- The rotations of R200 are the library's. -/
theorem rotl8_eq_rotateLeft (v : Byte) {n : Nat} (h : n < 8) : rotl8 v n = v.rotateLeft n := by
  rw [rotl8, BitVec.rotateLeft_def, Nat.mod_eq_of_lt h]
  split
  · next h0 => simp [h0, BitVec.ushiftRight_eq_zero]
  · rfl

theorem rotr8_eq_rotateRight (v : Byte) {n : Nat} (h : n < 8) : rotr8 v n = v.rotateRight n := by
  rw [rotr8, BitVec.rotateRight_def, Nat.mod_eq_of_lt h]
  split
  · next h0 => simp [h0]
  · rfl

theorem rotr8_eq_rotl8_complement (v : Byte) {n : Nat} (h : n ≤ 7) : rotr8 v n = rotl8 v ((8 - n) % 8) := by
  by_cases h0 : n = 0
  · subst h0
    rfl
  · rw [Nat.mod_eq_of_lt (by omega), rotr8, rotl8, if_neg h0, if_neg (by omega), BitVec.or_comm,
      Nat.sub_sub_self (by omega)]

/-! ## Rotations of a block -/

theorem rowOf_cell (r c : Fin 4) (h : 4 * r.val + c.val < 16) : rowOf ⟨4 * r.val + c.val, h⟩ = r :=
  Fin.ext (by simp only [rowOf]; omega)

/-- The cell of row `r`, column `c` rotates by the shift of row `r` (R202). -/
theorem rotateForward_cell (k : KeyMatrix) (b : Block) (r c : Fin 4) : (rotateForward k b)[4 * r.val + c.val] =
    b[4 * r.val + c.val].rotateLeft (rowShift k r) := by
  rw [rotateForward_getElem, rotl8_eq_rotateLeft _ (rowShift_lt k _), rowOf_cell]

theorem rotateReverse_cell (k : KeyMatrix) (b : Block) (r c : Fin 4) : (rotateReverse k b)[4 * r.val + c.val] =
    b[4 * r.val + c.val].rotateRight (rowShift k r) := by
  rw [rotateReverse_getElem, rotr8_eq_rotateRight _ (rowShift_lt k _), rowOf_cell]

/-- A block function that works on each cell by a function of its row works so on each byte of the message. -/
theorem Data.read_mapMessage_cell {d : Data} (hwf : Memory.wf d.buf) {f : Block → Block} {g : Fin 4 → Byte → Byte}
    (hf : ∀ (b : Block) (r c : Fin 4), (f b)[4 * r.val + c.val] = g r b[4 * r.val + c.val]) {i : Nat}
    (hi : i < d.len.toNat / 16) (r c : Fin 4) : Memory.read (d.mapMessage f).buf (16 * i + 4 * r.val + c.val) =
      g r (Memory.read d.buf (16 * i + 4 * r.val + c.val)) := by
  rw [Nat.add_assoc, ← Memory.block_getElem d.buf _ _ (by omega), ← hf]
  exact Memory.read_mapBlocks_below hwf f hi (by omega)

/-! ## ROT.F and ROT.R -/

theorem exec_rotF_of {s : State} (hcap : s.data.len.toNat ≤ s.params.bufBytes) (hshape : s.data.len.toNat % 16 = 0) :
    exec .rotF s = .next (s.layered (rotateForward s.data.rk)) :=
  State.perform_ok (body := Body.rotF) (blockLayer_of hcap hshape)

theorem exec_rotR_of {s : State} (hcap : s.data.len.toNat ≤ s.params.bufBytes) (hshape : s.data.len.toNat % 16 = 0) :
    exec .rotR s = .next (s.layered (rotateReverse s.data.rk)) :=
  State.perform_ok (body := Body.rotR) (blockLayer_of hcap hshape)

/-! ## The statements -/

/-- Settles O31: both commands complete with a block layer, which is read cell by cell below LEN and keeps the bytes
above. -/
theorem diffusionRotatesMessageBytes : Obligations.DiffusionRotatesMessageBytes := by
  intro s hwf hcap hshape
  have hcanonical (f : Block → Block) := (Memory.mapBlocks_spec hwf f s.data.nblk).1
  refine ⟨⟨_, exec_rotF_of hcap hshape, hcanonical _, fun i hi r c x hx => ?_,
      fun a => Data.read_mapMessage_above hwf _⟩,
    ⟨_, exec_rotR_of hcap hshape, hcanonical _, fun i hi r c x hx => ?_,
      fun a => Data.read_mapMessage_above hwf _⟩⟩
  · subst hx
    exact Data.read_mapMessage_cell hwf (g := fun r v => v.rotateLeft (rowShift s.data.rk r))
      (rotateForward_cell s.data.rk) hi r c
  · subst hx
    exact Data.read_mapMessage_cell hwf (g := fun r v => v.rotateRight (rowShift s.data.rk r))
      (rotateReverse_cell s.data.rk) hi r c

/-- Settles O32: either rotation of a byte undoes the other, so does either rotation of a block under the same key, and
neither command changes RK. -/
theorem rotationInvolution : Obligations.RotationInvolution := by
  refine ⟨fun v n hn => ⟨rotr8_rotl8 v ⟨n, by omega⟩, rotl8_rotr8 v ⟨n, by omega⟩, rotr8_eq_rotl8_complement v hn⟩,
    fun s hwf hcap hshape => ?_⟩
  exact
    ⟨⟨_, _, exec_rotF_of hcap hshape, exec_rotR_of (s := s.layered (rotateForward s.data.rk)) hcap hshape, rfl,
      Data.mapMessage_mapMessage hwf (rotateReverse_rotateForward s.data.rk)⟩,
    ⟨_, _, exec_rotR_of hcap hshape, exec_rotF_of (s := s.layered (rotateReverse s.data.rk)) hcap hshape, rfl,
      Data.mapMessage_mapMessage hwf (rotateForward_rotateReverse s.data.rk)⟩⟩

end Sys2Proof.Machine
end

section
/-! PROOFS. The transposition layer (45_transposition.md R215 to R219). `PERM(k)` ascends strictly by the pair (byte,
index), which fixes each index's rank; TRN.F and TRN.R are each a block layer whose function moves each cell by it. -/

namespace Sys2Proof.Machine

/-! ## The stable argsort -/

/-- Index `i` stands before index `j` in the order of the pair `(k[i], i)`, strictly (R215). -/
abbrev rowPrecedes (k : KeyMatrix) (i j : Fin 4) : Prop :=
  k[i.val].toNat < k[j.val].toNat ∨ k[i.val].toNat = k[j.val].toNat ∧ i < j

/-- `rowPrecedes` is the order the model sorts by, made strict. -/
theorem rowPrecedes_iff {k : KeyMatrix} {i j : Fin 4} : rowPrecedes k i j ↔ rowBefore k i j ∧ i ≠ j := by
  have hself : i = j → k[i.val].toNat = k[j.val].toNat := fun h => h ▸ rfl
  unfold rowPrecedes rowBefore
  omega

theorem perm_ascends (k : KeyMatrix) {m n : Fin 4} (h : m < n) : rowPrecedes k (perm k m) (perm k n) := by
  refine rowPrecedes_iff.mpr ⟨?_, (perm_injective k).ne h.ne⟩
  rw [perm_eq_getElem, perm_eq_getElem]
  exact List.pairwise_iff_getElem.mp (sortedIndices_sorted k) _ _ _ _ h

theorem rowPrecedes_asymm {k : KeyMatrix} {i j : Fin 4} (h : rowPrecedes k i j) : ¬ rowPrecedes k j i := by
  unfold rowPrecedes at *
  omega

theorem rowPrecedes_perm_iff (k : KeyMatrix) (m n : Fin 4) : rowPrecedes k (perm k m) (perm k n) ↔ m < n := by
  refine ⟨fun h => ?_, perm_ascends k⟩
  by_contra hmn
  rcases lt_or_eq_of_le (not_lt.mp hmn) with hlt | rfl
  · exact rowPrecedes_asymm h (perm_ascends k hlt)
  · exact rowPrecedes_asymm h h

theorem perm_bijective (k : KeyMatrix) : Function.Bijective (perm k) := ⟨perm_injective k, perm_surjective k⟩

/-- The rank of an index: how many indices stand before it. -/
def rowRank (k : KeyMatrix) (i : Fin 4) : Nat := (List.finRange 4).countP fun j => rowPrecedes k j i

/-- The indices before `i` are those of a smaller byte and, of its own byte, the smaller ones. -/
theorem rowRank_eq_add (k : KeyMatrix) (i : Fin 4) : rowRank k i =
    ((List.finRange 4).filter fun j => k[j.val].toNat < k[i.val].toNat).length
      + ((List.finRange 4).filter fun j => j < i ∧ k[j.val].toNat = k[i.val].toNat).length := by
  simp only [rowRank, ← List.countP_eq_length_filter]
  induction List.finRange 4 with
  | nil => rfl
  | cons j l ih =>
    simp only [List.countP_cons, decide_eq_true_eq, ih, rowPrecedes]
    split_ifs <;> omega

/-- Counted along `PERM(k)`, the indices before entry `n` are the entries before it. -/
theorem rowRank_perm (k : KeyMatrix) (n : Fin 4) : rowRank k (perm k n) = n.val := by
  have hperm : ((List.finRange 4).map (perm k)).Perm (List.finRange 4) :=
    Equiv.Perm.map_finRange_perm (Equiv.ofBijective _ (perm_bijective k))
  have hcount (n : Fin 4) : ((List.finRange 4).countP fun m => m < n) = n.val := by revert n; decide
  rw [rowRank, ← hperm.countP_eq, List.countP_map, ← hcount n]
  exact List.countP_congr fun m _ => by simp [rowPrecedes_perm_iff k m n]

/-- Settles O33: `PERM(k)` ascends strictly, and the index of rank `n`, being some entry, is entry `n`. -/
theorem permIsTheStableArgsort : Obligations.PermIsTheStableArgsort := by
  refine fun k => ⟨fun m n => perm_ascends k, fun i n hn => ?_, perm_bijective k⟩
  obtain ⟨m, rfl⟩ := perm_surjective k i
  rw [← rowRank_eq_add, rowRank_perm] at hn
  rw [Fin.ext hn]

/-! ## Cells of the grid -/

theorem rowOf_gridIndex (r c : Fin 4) : rowOf (gridIndex r c) = r := rowOf_cell r c _

theorem colOf_gridIndex (r c : Fin 4) : colOf (gridIndex r c) = c :=
  Fin.ext (by simp only [colOf, gridIndex]; omega)

theorem gridIndex_rowOf_colOf (n : Fin 16) : gridIndex (rowOf n) (colOf n) = n :=
  Fin.ext (by simp only [rowOf, colOf, gridIndex]; omega)

/-- Two blocks that agree on every row and column are equal. -/
theorem block_ext_cell {b b' : Block} (h : ∀ r c : Fin 4, b[gridIndex r c] = b'[gridIndex r c]) : b = b' :=
  Vector.ext fun n hn => by
    have hcell := h (rowOf ⟨n, hn⟩) (colOf ⟨n, hn⟩)
    simp only [gridIndex_rowOf_colOf] at hcell
    exact hcell

theorem transpose_cell (k : KeyMatrix) (b : Block) (r c : Fin 4) :
    (transpose k b)[gridIndex (perm k r) (perm k c)] = b[gridIndex r c] := by
  simpa only [rowOf_gridIndex, colOf_gridIndex] using transpose_getElem k b (gridIndex r c)

theorem reverseTranspose_cell (k : KeyMatrix) (b : Block) (r c : Fin 4) :
    (reverseTranspose k b)[gridIndex r c] = b[gridIndex (perm k r) (perm k c)] := by
  simpa only [rowOf_gridIndex, colOf_gridIndex] using reverseTranspose_getElem k b (gridIndex r c)

/-- A block function that moves the cell `(r, c)` to `(r', c')` moves the byte so in every block of the message. -/
theorem Data.read_mapMessage_moved {d : Data} (hwf : Memory.wf d.buf) {f : Block → Block} {r c r' c' : Fin 4}
    (hf : ∀ b : Block, (f b)[gridIndex r' c'] = b[gridIndex r c]) {i : Nat} (hi : i < d.len.toNat / 16) :
    Memory.read (d.mapMessage f).buf (16 * i + 4 * r'.val + c'.val) =
      Memory.read d.buf (16 * i + 4 * r.val + c.val) := by
  rw [Nat.add_assoc, Nat.add_assoc]
  calc Memory.read (d.mapMessage f).buf (16 * i + gridIndex r' c')
    _ = (f (Memory.block d.buf i))[gridIndex r' c'] := Memory.read_mapBlocks_below hwf f hi (gridIndex r' c').isLt
    _ = (Memory.block d.buf i)[gridIndex r c] := hf _
    _ = Memory.read d.buf (16 * i + gridIndex r c) := Memory.block_getElem d.buf i _ (gridIndex r c).isLt

/-! ## TRN.F and TRN.R -/

theorem exec_trnF_of {s : State} (hcap : s.data.len.toNat ≤ s.params.bufBytes) (hshape : s.data.len.toNat % 16 = 0) :
    exec .trnF s = .next (s.layered (transpose s.data.rk)) :=
  State.perform_ok (body := Body.trnF) (blockLayer_of hcap hshape)

theorem exec_trnR_of {s : State} (hcap : s.data.len.toNat ≤ s.params.bufBytes) (hshape : s.data.len.toNat % 16 = 0) :
    exec .trnR s = .next (s.layered (reverseTranspose s.data.rk)) :=
  State.perform_ok (body := Body.trnR) (blockLayer_of hcap hshape)

/-- Settles O34: both commands complete with a block layer, whose function moves the cells of each block and which keeps
the bytes from LEN up. -/
theorem transpositionMovesMessageBytes : Obligations.TranspositionMovesMessageBytes := by
  intro s hwf hcap hshape
  have hcanonical (f : Block → Block) := (Memory.mapBlocks_spec hwf f s.data.nblk).1
  exact
    ⟨⟨_, exec_trnF_of hcap hshape, hcanonical _,
      fun i hi r c => Data.read_mapMessage_moved hwf (fun b => transpose_cell s.data.rk b r c) hi,
      fun a => Data.read_mapMessage_above hwf _⟩,
    ⟨_, exec_trnR_of hcap hshape, hcanonical _,
      fun i hi r c => Data.read_mapMessage_moved hwf (fun b => reverseTranspose_cell s.data.rk b r c) hi,
      fun a => Data.read_mapMessage_above hwf _⟩⟩

/-! ## The cyclic permutation `[1,2,3,0]` -/

/-- Under the permutation `[1,2,3,0]` the scatter moves every cell one row down and one column right, cyclically. -/
theorem transpose_cell_of_cyclic {k : KeyMatrix} (h : ∀ n, perm k n = n + 1) (b : Block) (r c : Fin 4) :
    (transpose k b)[gridIndex r c] = b[gridIndex (r - 1) (c - 1)] := by
  simpa only [h, sub_add_cancel] using transpose_cell k b (r - 1) (c - 1)

/-- Four cyclic moves return every cell to its place. -/
theorem transpose_four_of_cyclic {k : KeyMatrix} (h : ∀ n, perm k n = n + 1) (b : Block) :
    transpose k (transpose k (transpose k (transpose k b))) = b := by
  have hback (n : Fin 4) : n - 1 - 1 - 1 - 1 = n := by revert n; decide
  refine block_ext_cell fun r c => ?_
  simp only [transpose_cell_of_cyclic h, hback]

/-- Two cyclic moves take the cell `(0, 0)` to `(2, 2)`, so a block with 1 in the first only is not restored. -/
theorem exists_transpose_transpose_ne {k : KeyMatrix} (h : ∀ n, perm k n = n + 1) :
    ∃ b, transpose k (transpose k b) ≠ b := by
  refine ⟨(Vector.replicate 16 0).set 0 1, fun hb => ?_⟩
  have hcell := congrArg (fun b : Block => b[gridIndex 2 2]) hb
  simp only [transpose_cell_of_cyclic h] at hcell
  exact absurd hcell (by decide)

/-- Settles O35: scatter and gather undo each other, neither command changes RK, and `[1,2,3,0]` is the cyclic move,
which four uses undo and two do not. -/
theorem transposeInvolution : Obligations.TransposeInvolution := by
  refine ⟨fun k b => ⟨reverseTranspose_transpose k b, transpose_reverseTranspose k b⟩, fun s hwf hcap hshape => ?_,
    fun k hk => ?_⟩
  · exact
      ⟨⟨_, _, exec_trnF_of hcap hshape, exec_trnR_of (s := s.layered (transpose s.data.rk)) hcap hshape, rfl,
        Data.mapMessage_mapMessage hwf (reverseTranspose_transpose s.data.rk)⟩,
      ⟨_, _, exec_trnR_of hcap hshape, exec_trnF_of (s := s.layered (reverseTranspose s.data.rk)) hcap hshape, rfl,
        Data.mapMessage_mapMessage hwf (transpose_reverseTranspose s.data.rk)⟩⟩
  · have hcyclic : ∀ n, perm k n = n + 1 := by
      simpa [Fin.forall_fin_succ] using hk
    exact ⟨transpose_four_of_cyclic hcyclic, exists_transpose_transpose_ne hcyclic⟩

end Sys2Proof.Machine
end

section
/-! PROOFS. The mixing layer (46_mixing.md R230 to R232). MIX is a block layer that XORs each byte of a block with the
byte of RK at its place, which under the same RK undoes itself. -/

namespace Sys2Proof.Machine

/-- A message whose blocks are XORed with `k` is XORed byte by byte with the byte of `k` at the place in the block. -/
theorem Data.read_mapMessage_xor16 {d : Data} (hwf : Memory.wf d.buf) (k : Block) {i n : Nat}
    (hi : i < d.len.toNat / 16) (hn : n < 16) :
    Memory.read (d.mapMessage fun b => xor16 b k).buf (16 * i + n) = Memory.read d.buf (16 * i + n) ^^^ k[n] := by
  calc Memory.read (d.mapMessage fun b => xor16 b k).buf (16 * i + n)
    _ = (xor16 (Memory.block d.buf i) k)[n] := Memory.read_mapBlocks_below hwf _ hi hn
    _ = (Memory.block d.buf i)[n] ^^^ k[n] := xor16_getElem _ k n hn
    _ = Memory.read d.buf (16 * i + n) ^^^ k[n] := by rw [Memory.block_getElem]

theorem exec_mix_of {s : State} (hcap : s.data.len.toNat ≤ s.params.bufBytes) (hshape : s.data.len.toNat % 16 = 0) :
    exec .mix s = .next (s.layered fun b => xor16 b s.data.rk) :=
  State.perform_ok (body := Body.mix) (blockLayer_of hcap hshape)

/-- Settles O36: MIX completes with a block layer, which XORs each byte of a block of the message with its byte of RK
and keeps the bytes from LEN up. -/
theorem mixXorsTheRoundKey : Obligations.MixXorsTheRoundKey := fun s hwf hcap hshape =>
  ⟨_, exec_mix_of hcap hshape, (Memory.mapBlocks_spec hwf _ s.data.nblk).1,
    fun _ _ hi hn => Data.read_mapMessage_xor16 hwf s.data.rk hi hn,
    fun _ => Data.read_mapMessage_above hwf _⟩

/-- Settles O37: XOR with a key undoes itself, and the first MIX leaves RK and LEN to the second. -/
theorem mixTwiceRestores : Obligations.MixTwiceRestores := by
  refine ⟨xor16_xor16, fun s hwf hcap hshape => ?_⟩
  have hrestored : (s.data.mapMessage fun b => xor16 b s.data.rk).mapMessage (fun b => xor16 b s.data.rk) = s.data :=
    Data.mapMessage_mapMessage hwf fun b => xor16_xor16 b s.data.rk
  exact ⟨_, _, exec_mix_of hcap hshape, exec_mix_of (s := s.layered fun b => xor16 b s.data.rk) hcap hshape, rfl,
    hrestored⟩

end Sys2Proof.Machine
end

section
/-! PROOFS. The chaining layer (47_chaining.md R240 to R243). CHN.F and CHN.R meet one relation, `IsChained`, and differ
only in the buffer whose blocks they chain with, the output's or the input's. The relation can be read in both
directions, as XOR undoes itself, and fixes its output block after block: that is why each command undoes the other. -/

namespace Sys2Proof.Machine

/-! ## Chained buffers -/

/-- The block before block `i` of a buffer, or the initial value (R240). -/
def Memory.blockBefore (iv : Block) (m : Memory) (i : Nat) : Block := if i = 0 then iv else Memory.block m (i - 1)

@[simp] theorem Memory.blockBefore_zero (iv : Block) (m : Memory) : Memory.blockBefore iv m 0 = iv := if_pos rfl

@[simp] theorem Memory.blockBefore_succ (iv : Block) (m : Memory) (i : Nat) :
    Memory.blockBefore iv m (i + 1) = Memory.block m i := if_neg (Nat.succ_ne_zero i)

/-- `out` is `m` with each of its first `n` blocks XORed with the block of `prev` before it (R241, R242). -/
structure IsChained (iv : Block) (n : Nat) (prev m out : Memory) : Prop where
  canonical : Memory.wf out
  above : ∀ i, n ≤ i → Memory.block out i = Memory.block m i
  below : ∀ i, i < n → Memory.block out i = xor16 (Memory.block m i) (Memory.blockBefore iv prev i)

/-- CHN.F chains with the blocks of its output (R241). -/
theorem isChained_chainForward (iv : Block) {m : Memory} (hwf : Memory.wf m) (n : Nat) :
    IsChained iv n (chainForward iv n m).1 m (chainForward iv n m).1 := by
  obtain ⟨hcanonical, habove, hbelow, -⟩ := chainForward_spec iv hwf n
  exact ⟨hcanonical, habove, hbelow⟩

/-- CHN.R chains with the blocks of its input (R242). -/
theorem isChained_chainReverse (iv : Block) {m : Memory} (hwf : Memory.wf m) (n : Nat) :
    IsChained iv n m m (chainReverse iv n m).1 := by
  obtain ⟨hcanonical, habove, hbelow, -⟩ := chainReverse_spec iv hwf n
  exact ⟨hcanonical, habove, hbelow⟩

namespace IsChained

variable {iv : Block} {n : Nat} {prev m out : Memory}

/-! ### Byte by byte -/

theorem read_cell (h : IsChained iv n prev m out) {i j : Nat} (hi : i < n) (hj : j < 16) :
    Memory.read out (16 * i + j) = Memory.read m (16 * i + j) ^^^ (Memory.blockBefore iv prev i)[j] := by
  rw [← Memory.block_getElem out i j hj, ← Memory.block_getElem m i j hj, h.below i hi, xor16_getElem]

theorem read_first (h : IsChained iv n prev m out) (hn : 0 < n) {j : Nat} (hj : j < 16) :
    Memory.read out j = Memory.read m j ^^^ iv[j] := by
  simpa only [Nat.mul_zero, Nat.zero_add, Memory.blockBefore_zero] using h.read_cell hn hj

theorem read_later (h : IsChained iv n prev m out) {a : Nat} (hfirst : 16 ≤ a) (ha : a < 16 * n) :
    Memory.read out a = Memory.read m a ^^^ Memory.read prev (a - 16) := by
  obtain ⟨i, j, hj, rfl⟩ : ∃ i j, j < 16 ∧ a = 16 * (i + 1) + j := ⟨a / 16 - 1, a % 16, by omega, by omega⟩
  have hplace : 16 * (i + 1) + j - 16 = 16 * i + j := by omega
  rw [h.read_cell (by omega) hj, hplace, ← Memory.block_getElem prev i j hj]
  simp only [Memory.blockBefore_succ]

theorem read_above (h : IsChained iv n prev m out) {a : Nat} (ha : 16 * n ≤ a) :
    Memory.read out a = Memory.read m a := by
  simp only [Memory.read_eq_block, h.above (a / 16) (by omega)]

/-! ### Input and output -/

/-- XOR with the same blocks leads back from the output to the input. -/
theorem symm (h : IsChained iv n prev m out) (hwf : Memory.wf m) : IsChained iv n prev out m :=
  ⟨hwf, fun i hi => (h.above i hi).symm, fun i hi => by rw [h.below i hi, xor16_xor16]⟩

/-- The input fixes the output, also where the blocks chained with are the output's own: block `i` of the buffers
chained with need only agree where block `i` of the outputs does. -/
theorem unique {prev' out' : Memory} (h : IsChained iv n prev m out) (h' : IsChained iv n prev' m out')
    (hprev : ∀ i, Memory.block out i = Memory.block out' i → Memory.block prev i = Memory.block prev' i) :
    out = out' := by
  have hstep (i : Nat) (hbefore : Memory.blockBefore iv prev i = Memory.blockBefore iv prev' i) :
      Memory.block out i = Memory.block out' i := by
    rcases Nat.lt_or_ge i n with hi | hi
    · rw [h.below i hi, h'.below i hi, hbefore]
    · rw [h.above i hi, h'.above i hi]
  have hblock (i : Nat) : Memory.block out i = Memory.block out' i := by
    induction i with
    | zero => exact hstep 0 (by simp only [Memory.blockBefore_zero])
    | succ i ih => exact hstep (i + 1) (by simp only [Memory.blockBefore_succ, hprev i ih])
  refine Memory.ext_of_read h.canonical h'.canonical fun a => ?_
  simp only [Memory.read_eq_block, hblock]

end IsChained

/-- From the output of CHN.F, CHN.R chains with the very blocks that CHN.F chained with. -/
theorem chainReverse_chainForward (iv : Block) {m : Memory} (hwf : Memory.wf m) (n : Nat) :
    (chainReverse iv n (chainForward iv n m).1).1 = m := by
  have hforward := isChained_chainForward iv hwf n
  exact (isChained_chainReverse iv hforward.canonical n).unique (hforward.symm hwf) fun _ _ => rfl

/-- From the output of CHN.R, CHN.F chains with the blocks it restores, which CHN.R chained with. -/
theorem chainForward_chainReverse (iv : Block) {m : Memory} (hwf : Memory.wf m) (n : Nat) :
    (chainForward iv n (chainReverse iv n m).1).1 = m := by
  have hreverse := isChained_chainReverse iv hwf n
  exact (isChained_chainForward iv hreverse.canonical n).unique (hreverse.symm hwf) fun _ => id

/-! ## CHN.F and CHN.R -/

/-- The data with another buffer. -/
def Data.withBuf (d : Data) (m : Memory) : Data := { d with buf := m }

theorem Body.chnF_of {p : Params} {d : Data} (hcap : d.len.toNat ≤ p.bufBytes) (hshape : d.len.toNat % 16 = 0) :
    Body.chnF p d = .ok (d.withBuf (chainForward d.rk d.nblk d.buf).1) :=
  bind_ok.mpr ⟨d, needBlocks_of hcap hshape, rfl⟩

theorem Body.chnR_of {p : Params} {d : Data} (hcap : d.len.toNat ≤ p.bufBytes) (hshape : d.len.toNat % 16 = 0) :
    Body.chnR p d = .ok (d.withBuf (chainReverse d.rk d.nblk d.buf).1) :=
  bind_ok.mpr ⟨d, needBlocks_of hcap hshape, rfl⟩

/-- The state in which a command that leaves the buffer `m` has completed (R256). -/
def State.rebuffered (s : State) (m : Memory) : State := State.complete { s with data := s.data.withBuf m }

theorem exec_chnF_of {s : State} (hcap : s.data.len.toNat ≤ s.params.bufBytes) (hshape : s.data.len.toNat % 16 = 0) :
    exec .chnF s = .next (s.rebuffered (chainForward s.data.rk s.data.nblk s.data.buf).1) :=
  State.perform_ok (Body.chnF_of hcap hshape)

theorem exec_chnR_of {s : State} (hcap : s.data.len.toNat ≤ s.params.bufBytes) (hshape : s.data.len.toNat % 16 = 0) :
    exec .chnR s = .next (s.rebuffered (chainReverse s.data.rk s.data.nblk s.data.buf).1) :=
  State.perform_ok (Body.chnR_of hcap hshape)

theorem Data.mul_nblk {d : Data} (hshape : d.len.toNat % 16 = 0) : 16 * d.nblk = d.len.toNat :=
  Nat.mul_div_cancel' (Nat.dvd_of_mod_eq_zero hshape)

/-! ## The statements -/

/-- Settles O38: both commands complete with a chained buffer, CHN.F's chained with itself and CHN.R's with the input,
and a chained buffer is read byte by byte. -/
theorem chainingXorsThePreviousBlock : Obligations.ChainingXorsThePreviousBlock := by
  intro s hwf hcap hshape
  have hforward := isChained_chainForward s.data.rk hwf s.data.nblk
  have hreverse := isChained_chainReverse s.data.rk hwf s.data.nblk
  have hlen := Data.mul_nblk hshape
  exact
    ⟨⟨_, exec_chnF_of hcap hshape, hforward.canonical,
      fun _ hn hlt => hforward.read_first (by omega) hn,
      fun _ hfirst hlt => hforward.read_later hfirst (by omega),
      fun _ hle => hforward.read_above (by omega)⟩,
    ⟨_, exec_chnR_of hcap hshape, hreverse.canonical,
      fun _ hn hlt => hreverse.read_first (by omega) hn,
      fun _ hfirst hlt => hreverse.read_later hfirst (by omega),
      fun _ hle => hreverse.read_above (by omega)⟩⟩

/-- Settles O39: either loop undoes the other under the same RK, for every number of blocks, and neither command changes
RK or LEN. -/
theorem chainingInvolution : Obligations.ChainingInvolution := by
  intro s hwf hcap hshape
  exact
    ⟨⟨_, _, exec_chnF_of hcap hshape, exec_chnR_of (s := s.rebuffered _) hcap hshape, rfl,
      congrArg s.data.withBuf (chainReverse_chainForward s.data.rk hwf s.data.nblk)⟩,
    ⟨_, _, exec_chnR_of hcap hshape, exec_chnF_of (s := s.rebuffered _) hcap hshape, rfl,
      congrArg s.data.withBuf (chainForward_chainReverse s.data.rk hwf s.data.nblk)⟩⟩

end Sys2Proof.Machine
end

section
/-! PROOFS. The fault state (60_exceptions.md R290 to R303, R307): how a command gets there, what the host sees of it,
and the two ways out. A step is one event. In the fault state a transaction works around the data state, and the engine
can only perform CLR, which like reset leaves nothing of it; so the data state behind a fault reaches nobody. -/

namespace Sys2Proof.Machine

/-! ## A step is one event -/

/-- The next event is the first of the list, or the engine's turn when the list is used up (log entry 1). -/
theorem step_eq_happen (s : State) :
    step s = State.happen { s with events := s.events.tail } (s.events.headD .engine) := by
  cases h : s.events with
  | nil => rw [step_engine (.inl h), h]; rfl
  | cons e es => exact step_cons h

/-- With the word of CLR pending, the engine's turn is CLR (R266). -/
theorem State.engineTurn_clr {s : State} (hb : s.busy = true) (hp : s.pend = 0x00000001) :
    State.engineTurn s = .next (State.complete (State.zeroise s)) :=
  State.engineTurn_exec (i := .clr) hb (hp ▸ decode_clr_word)

/-! ## What an event does to the error in the fault state -/

theorem State.hostRead_error (s : State) (width off : Nat) : (State.hostRead s width off).err = s.err ∧
    (State.hostRead s width off).ecode = s.ecode ∧ (State.hostRead s width off).eopc = s.eopc := by
  rcases State.hostRead_cases s width off with ⟨x, w, hs⟩ | ⟨-, x, w, hs⟩
  all_goals rw [hs]; exact ⟨rfl, rfl, rfl⟩

/-- No write of the fault state touches ERR or ERRINFO (R68). -/
theorem State.writeFaulted_error (s : State) (v : Word) (g : Reg) : (State.writeFaulted s v g).err = s.err ∧
    (State.writeFaulted s v g).ecode = s.ecode ∧ (State.writeFaulted s v g).eopc = s.eopc := by
  cases g with
  | cmd =>
    by_cases hv : v = 0x00000001
    · subst hv
      exact ⟨rfl, rfl, rfl⟩
    · rw [State.writeFaulted_cmd_dropped s hv]
      exact ⟨rfl, rfl, rfl⟩
  | id | status | errinfo | inten | rounds | len | cap | key w | rk w | sboxw n | invw n | rksw n | bufw n =>
    exact ⟨rfl, rfl, rfl⟩

theorem State.hostWrite_error {s : State} (he : s.err = true) (width off : Nat) (v : Word) :
    (State.hostWrite s width off v).err = s.err ∧ (State.hostWrite s width off v).ecode = s.ecode ∧
      (State.hostWrite s width off v).eopc = s.eopc := by
  rcases State.hostWrite_cases s width off v with
    ⟨x, w, hs⟩ | ⟨-, x, w, hs⟩ | ⟨-, -, g, -, hs⟩ | ⟨-, hidle, -⟩
  · rw [hs]
    exact ⟨rfl, rfl, rfl⟩
  · rw [hs]
    exact ⟨rfl, rfl, rfl⟩
  · rw [hs]
    exact State.writeFaulted_error s v g
  · exact absurd (hidle.symm.trans he) Bool.false_ne_true

/-- Every event keeps the error, but reset and the performing of a pending CLR (R302). -/
theorem State.happen_faulted {s t : State} (he : s.err = true) (hclr : s.busy = true → s.pend = 0x00000001)
    {e : Event} (h : State.happen s e = .next t) : (t.err = s.err ∧ t.ecode = s.ecode ∧ t.eopc = s.eopc) ∨
      (e = .reset ∧ t = State.applyReset s) ∨ (s.busy = true ∧ t = State.complete (State.zeroise s)) := by
  cases e with
  | read width off =>
    cases h
    exact .inl (State.hostRead_error s width off)
  | write width off v =>
    cases h
    exact .inl (State.hostWrite_error he width off v)
  | reset =>
    cases h
    exact .inr (.inl ⟨rfl, rfl⟩)
  | engine =>
    cases hb : s.busy with
    | false =>
      cases (State.engineTurn_idle hb).symm.trans h
      exact .inl ⟨rfl, rfl, rfl⟩
    | true =>
      cases (State.engineTurn_clr hb (hclr hb)).symm.trans h
      exact .inr (.inr ⟨rfl, rfl⟩)

/-- Settles O57: the step is one event, and what reset and CLR leave is written out. -/
theorem faultStateIsLeftByClrOrReset : Obligations.FaultStateIsLeftByClrOrReset := by
  intro s t hinv he ht
  rw [step_eq_happen] at ht
  have hclr : s.busy = true → s.pend = 0x00000001 := fun hb => hinv.onlyClr hb he
  rcases State.happen_faulted (s := { s with events := s.events.tail }) he hclr ht with
    ⟨herr, hcode, hopc⟩ | ⟨hreset, rfl⟩ | ⟨hb, rfl⟩
  · exact .inl ⟨herr.trans he, hcode, hopc⟩
  · have hhead : s.events.head? = some .reset := by
      cases hev : s.events with
      | nil => rw [hev] at hreset; cases hreset
      | cons e es => rw [hev] at hreset; exact congrArg some hreset
    exact .inr (.inl ⟨hhead, rfl, rfl, rfl, rfl, rfl, rfl, rfl, rfl, rfl, rfl⟩)
  · exact .inr (.inr ⟨hb, hclr hb, rfl, rfl, rfl, rfl, rfl, rfl, rfl, rfl, rfl, rfl⟩)

/-! ## What an event shows of the data state in the fault state -/

/-- The state with another data state. -/
def State.withData (s : State) (d : Data) : State := { s with data := d }

/-- STATUS hides the valid flags while `ERR = 1` (R301). -/
theorem State.statusWord_withData {s : State} (he : s.err = true) (d : Data) :
    State.statusWord (s.withData d) = State.statusWord s := by
  simp only [State.statusWord, State.withData, he, Bool.not_true, Bool.false_and]

/-- No register that is served in the fault state shows the data state (R68, R301). -/
theorem State.regValue_withData {s : State} (he : s.err = true) (d : Data) {g : Reg} (hg : g.alwaysServed = true) :
    State.regValue (s.withData d) g = State.regValue s g := by
  cases g with
  | status => exact State.statusWord_withData he d
  | id | errinfo | inten | cap => rfl
  | cmd | rounds | len | key w | rk w | sboxw n | invw n | rksw n | bufw n => cases hg

/-- A read in the fault state works around the data state. -/
theorem State.hostRead_withData {s : State} (he : s.err = true) (d : Data) (width off : Nat) :
    State.hostRead (s.withData d) width off = (State.hostRead s width off).withData d := by
  by_cases hw : width = 32
  · subst hw
    cases hat : regAt s.params.bufBytes off with
    | none => rw [State.hostRead_unmapped hat, State.hostRead_unmapped (s := s.withData d) hat]; rfl
    | some g =>
      cases hg : g.alwaysServed with
      | true =>
        rw [State.hostRead_served hat hg, State.hostRead_served (s := s.withData d) hat hg,
          State.regValue_withData he d hg]
        rfl
      | false =>
        cases hb : s.busy with
        | true => rw [State.hostRead_busy hat hg hb, State.hostRead_busy (s := s.withData d) hat hg hb]; rfl
        | false =>
          rw [State.hostRead_faulted hat hg hb he, State.hostRead_faulted (s := s.withData d) hat hg hb he]
          rfl
  · rw [State.hostRead_width hw, State.hostRead_width hw]
    rfl

theorem State.writeFaulted_withData (s : State) (d : Data) (v : Word) (g : Reg) :
    State.writeFaulted (s.withData d) v g = (State.writeFaulted s v g).withData d := by
  cases g with
  | cmd =>
    by_cases hv : v = 0x00000001
    · subst hv
      rfl
    · rw [State.writeFaulted_cmd_dropped s hv, State.writeFaulted_cmd_dropped (s.withData d) hv]
  | id | status | errinfo | inten | rounds | len | cap | key w | rk w | sboxw n | invw n | rksw n | bufw n => rfl

/-- A write in the fault state works around the data state. -/
theorem State.hostWrite_withData {s : State} (he : s.err = true) (d : Data) (width off : Nat) (v : Word) :
    State.hostWrite (s.withData d) width off v = (State.hostWrite s width off v).withData d := by
  by_cases hw : width = 32
  · subst hw
    cases hat : regAt s.params.bufBytes off with
    | none => rw [State.hostWrite_unmapped hat, State.hostWrite_unmapped (s := s.withData d) hat]; rfl
    | some g =>
      cases hb : s.busy with
      | true => rw [State.hostWrite_busy hat hb, State.hostWrite_busy (s := s.withData d) hat hb]; rfl
      | false =>
        rw [State.hostWrite_faulted hat hb he, State.hostWrite_faulted (s := s.withData d) hat hb he,
          State.writeFaulted_withData]
        rfl
  · rw [State.hostWrite_width hw, State.hostWrite_width hw]
    rfl

/-- Two states are equal, or fault states that differ in the data state alone, the second one's being `d` (R301). -/
def State.AgreesBut (d : Data) (t t' : State) : Prop :=
  (t.err = true → t' = t.withData d) ∧ (t.err = false → t' = t)

theorem State.AgreesBut.of_fault {d : Data} {t : State} (he : t.err = true) :
    State.AgreesBut d t (t.withData d) :=
  ⟨fun _ => rfl, fun hne => absurd (hne.symm.trans he) Bool.false_ne_true⟩

theorem State.AgreesBut.of_no_fault {d : Data} {t : State} (he : t.err = false) : State.AgreesBut d t t :=
  ⟨fun hne => absurd (he.symm.trans hne) Bool.false_ne_true, fun _ => rfl⟩

/-- Such states look alike from outside: at the port, in STATUS and ERRINFO, and by the interrupt. -/
theorem State.AgreesBut.observations {d : Data} {t t' : State} (h : State.AgreesBut d t t') :
    t'.response = t.response ∧ State.statusWord t' = State.statusWord t ∧
      State.errinfoWord t' = State.errinfoWord t ∧ State.irq t' = State.irq t := by
  cases he : t.err with
  | true =>
    rw [h.1 he]
    exact ⟨rfl, State.statusWord_withData he d, rfl, rfl⟩
  | false =>
    rw [h.2 he]
    exact ⟨rfl, rfl, rfl, rfl⟩

/-- An event takes two fault states that differ in the data state alone to states that still do, or to one state. -/
theorem State.happen_agreesBut {s : State} (he : s.err = true) (hclr : s.busy = true → s.pend = 0x00000001)
    (d : Data) (e : Event) : ∃ t t', State.happen s e = .next t ∧ State.happen (s.withData d) e = .next t' ∧
      State.AgreesBut d t t' := by
  cases e with
  | read width off =>
    exact ⟨_, _, rfl, congrArg _ (State.hostRead_withData he d width off),
      .of_fault ((State.hostRead_error s width off).1.trans he)⟩
  | write width off v =>
    exact ⟨_, _, rfl, congrArg _ (State.hostWrite_withData he d width off v),
      .of_fault ((State.hostWrite_error he width off v).1.trans he)⟩
  | reset => exact ⟨_, _, rfl, rfl, .of_no_fault rfl⟩
  | engine =>
    cases hb : s.busy with
    | false => exact ⟨_, _, State.engineTurn_idle hb, State.engineTurn_idle (s := s.withData d) hb, .of_fault he⟩
    | true =>
      exact ⟨_, _, State.engineTurn_clr hb (hclr hb), State.engineTurn_clr (s := s.withData d) hb (hclr hb),
        .of_no_fault rfl⟩

/-- Settles O58: both steps are the same event, which keeps the states alike. -/
theorem hiddenStateIsUnobservable : Obligations.HiddenStateIsUnobservable := by
  intro s t t' d hinv he ht ht'
  rw [step_eq_happen] at ht ht'
  obtain ⟨u, u', hu, hu', hagree⟩ := State.happen_agreesBut (s := { s with events := s.events.tail }) he
    (fun hb => hinv.onlyClr hb he) d (s.events.headD .engine)
  cases hu.symm.trans ht
  cases hu'.symm.trans ht'
  obtain ⟨hresp, hstatus, hinfo, hirq⟩ := hagree.observations
  exact ⟨hresp, hstatus, hinfo, hirq, hagree.1, hagree.2⟩

/-! ## How a command faults -/

/-- Settles O7: fault entry as R300 writes it, the codes kind by kind (R290). -/
theorem faultEntryRecords : Obligations.FaultEntryRecords := by
  refine fun s k => ⟨State.hiddenData s k, ?_⟩
  cases k <;> rfl

/-- Settles O6: the engine's turn finds an ILLEGAL word in PEND and enters the fault state. -/
theorem illegalWordFaults : Obligations.IllegalWordFaults := fun s _ hev hb hdec =>
  ⟨_, s.pend, (step_engine hev).trans (State.engineTurn_illegal hb hdec)⟩

/-- A block command that needs no flag makes the two checks on LEN before anything else (R307). -/
theorem exec_of_needBlocks_error {i : Instr}
    (hi : i ∈ ([.rotF, .rotR, .trnF, .trnR, .mix, .chnF, .chnR, .unpad] : List Instr)) {s : State} {k : FaultKind}
    (h : needBlocks s.params s.data = .error k) : exec i s = .next (State.faultEntry s k) := by
  simp only [List.mem_cons, List.not_mem_nil, or_false] at hi
  rcases hi with rfl | rfl | rfl | rfl | rfl | rfl | rfl | rfl
  all_goals exact State.perform_error (bind_error.mpr (.inl h))

/-- Settles O40: the two checks on LEN, in their order. -/
theorem blockCommandsFaultInOrder : Obligations.BlockCommandsFaultInOrder := fun _ _ hi =>
  ⟨fun hlen => exec_of_needBlocks_error hi (needBlocks_overflow hlen),
    fun hcap hshape => exec_of_needBlocks_error hi (needBlocks_shape hcap hshape)⟩

end Sys2Proof.Machine
end

section
/-! PROOFS. The engine's step and reset (48_orchestrator.md R255, R256, R265, R266; 70_reset_and_hazards.md R330, R332):
every step answers, a command ends in completion or in fault entry, and what reset and CLR leave, also as the host reads
it. -/

namespace Sys2Proof.Machine

/-! ## Every step answers -/

theorem State.perform_answers (s : State) (body : Body) : ∃ t, State.perform s body = .next t := by
  rcases State.perform_cases s body with ⟨d, -, hs⟩ | ⟨k, -, hs⟩
  · exact ⟨_, hs⟩
  · exact ⟨_, hs⟩

/-- CLR answers at once, every other command performs a body. -/
theorem exec_answers (i : Instr) (s : State) : ∃ t, exec i s = .next t := by
  by_cases hclr : i = .clr
  · subst hclr
    exact ⟨_, rfl⟩
  · obtain ⟨body, hbody⟩ := exec_performs_after_calls hclr s
    rw [hbody]
    exact State.perform_answers _ body

theorem State.engineTurn_answers (s : State) : ∃ t, State.engineTurn s = .next t := by
  rcases State.engineTurn_cases s with ⟨-, hs⟩ | ⟨-, i, -, hs⟩ | ⟨-, e, -, hs⟩
  · exact ⟨_, hs⟩
  · rw [hs]
    exact exec_answers i s
  · exact ⟨_, hs⟩

/-- Settles O10: of the events only the engine's turn could fail to answer. -/
theorem everyStepAnswers : Obligations.EveryStepAnswers := by
  intro s
  rcases step_cases s with hs | ⟨width, off, hs⟩ | ⟨width, off, v, hs⟩ | hs
  · rw [hs]
    exact State.engineTurn_answers _
  · exact ⟨_, hs⟩
  · exact ⟨_, hs⟩
  · exact ⟨_, hs⟩

/-- Settles O5: the engine's turn with and without a pending command, and the transaction at the head of the list. -/
theorem stepPerformsThePendingCommand : Obligations.StepPerformsThePendingCommand := fun _ =>
  ⟨fun hev => ⟨fun _ hb hdec => (step_engine hev).trans (State.engineTurn_exec hb hdec),
      fun hb => (step_engine hev).trans (State.engineTurn_idle hb)⟩,
    fun _ _ _ hev => step_cons hev, fun _ _ _ _ hev => step_cons hev⟩

/-- Settles O8: CLR always completes, and any other command ends as its body answers, after its calls of the oracle. -/
theorem commandsCompleteOrFault : Obligations.CommandsCompleteOrFault := by
  intro s t i h
  by_cases hclr : i = .clr
  · subst hclr
    cases h
    exact .inl ⟨rfl, rfl, fun hne => absurd rfl hne⟩
  · obtain ⟨body, hbody⟩ := exec_performs_after_calls hclr s
    rw [hbody] at h
    rcases State.perform_cases { s with draws := s.draws + entropyCalls i } body with ⟨d, -, hs⟩ | ⟨k, -, hs⟩
    · cases hs.symm.trans h
      exact .inl ⟨rfl, rfl, fun _ => ⟨rfl, rfl, rfl⟩⟩
    · cases hs.symm.trans h
      exact .inr ⟨k, rfl⟩

/-! ## NOP, CLR and reset -/

/-- Settles O15: the body of NOP answers with the data it is given (R265). -/
theorem nopOnlyCompletes : Obligations.NopOnlyCompletes := fun _ => State.perform_ok (body := Body.nop) rfl

/-- Settles O16: CLR is completion of the zeroised state (R266). -/
theorem clrZeroises : Obligations.ClrZeroises := fun _ => rfl

/-- Settles O9: the reset event at the head of the list is the step, and an empty BUF reads zero everywhere. -/
theorem resetEventZeroesEverything : Obligations.ResetEventZeroesEverything := fun _ _ hev =>
  ⟨_, step_cons hev, rfl, Memory.read_nil, rfl⟩

theorem Params.default_legal : Params.default.legal := by
  unfold Params.legal Params.default
  decide

/-- Settles O12: a reset of the reset state is the reset state, and reset leaves the invariant. -/
theorem resetHasTheInvariant : Obligations.ResetHasTheInvariant :=
  State.applyReset_inv (s := State.reset) Params.default_legal

/-! ## What the host reads after reset -/

/-- The reset state of an implementation with the parameters `p` (R10, R330). -/
def State.resetWith (p : Params) : State := { State.reset with params := p }

theorem rowWord_zero (w : Fin 4) : rowWord (Vector.replicate 16 0) w = 0 := by
  simp only [rowWord, Vector.getElem_replicate]
  rfl

/-- Every register but ID and CAP reads 0 after reset (R332). -/
theorem State.regValue_resetWith (p : Params) {g : Reg} (hid : g ≠ .id) (hcap : g ≠ .cap) :
    State.regValue (State.resetWith p) g = 0 := by
  cases g with
  | id => exact absurd rfl hid
  | cap => exact absurd rfl hcap
  | key w => exact rowWord_zero w
  | rk w => exact rowWord_zero w
  | status => exact (by decide : State.statusWord State.reset = 0)
  | errinfo => exact (by decide : State.errinfoWord State.reset = 0)
  | inten => exact (by decide : State.intenWord State.reset = 0)
  | bufw n => exact (by decide : lanes 0 0 0 0 = 0)
  | cmd | rounds | len | sboxw n | invw n | rksw n => rfl

/-- The map has each register once. -/
theorem Reg.offset_inj {n : Nat} {g g' : Reg} (hg : g.InWindow n) (hg' : g'.InWindow n) (h : g.offset = g'.offset) :
    g = g' :=
  Option.some.inj ((regAt_at hg).symm.trans ((congrArg (regAt n) h).trans (regAt_at hg')))

/-- The values of R332, by the offset. -/
theorem State.regValue_resetWith_offset (p : Params) {g : Reg} (hg : g.InWindow p.bufBytes) :
    State.regValue (State.resetWith p) g =
      if g.offset = 0x000 then 0x53434501 else if g.offset = 0x01C then BitVec.ofNat 32 p.bufBytes else 0 := by
  by_cases hid : g = .id
  · subst hid
    rfl
  · by_cases hcap : g = .cap
    · subst hcap
      rfl
    · have hid' : g.offset ≠ 0x000 := fun h => hid (Reg.offset_inj hg (g' := .id) trivial h)
      have hcap' : g.offset ≠ 0x01C := fun h => hcap (Reg.offset_inj hg (g' := .cap) trivial h)
      rw [if_neg hid', if_neg hcap', State.regValue_resetWith p hid hcap]

/-- Settles O56: a mapped offset is that of a register, which the idle port shows; no other offset has one. -/
theorem readsAfterReset : Obligations.ReadsAfterReset := by
  refine fun p off hp => ⟨fun hoff => ?_, fun hoff => ?_⟩
  · obtain ⟨g, hg, rfl⟩ := exists_reg_of_mappedOffset hoff
    rw [← State.regValue_resetWith_offset p hg]
    exact congrArg State.response (State.hostRead_offset (s := State.resetWith p) rfl rfl hg)
  · have hnone := regAt_of_not_mappedOffset hp.1 hoff
    exact congrArg State.response (State.hostRead_unmapped (s := State.resetWith p) hnone)

end Sys2Proof.Machine
end

section
/-! PROOFS. The rounds of ENC, ENCG and DEC (48_orchestrator.md R257 to R263). The block layers of these commands
compose into one map over the blocks of the message, whose function is the functional form of R260 or R263. -/

namespace Sys2Proof.Machine

/-! ## Block layers as one map over the blocks -/

/-- Two canonical memories with the same blocks are equal. -/
theorem Memory.ext_of_block {m m' : Memory} (h : Memory.wf m) (h' : Memory.wf m')
    (heq : ∀ i, Memory.block m i = Memory.block m' i) : m = m' :=
  Memory.ext_of_read h h' fun a => by simp only [Memory.read_eq_block, heq]

theorem Memory.wf_mapBlocks {m : Memory} (h : Memory.wf m) (f : Block → Block) (n : Nat) :
    Memory.wf (Memory.mapBlocks f n m) := (Memory.mapBlocks_spec h f n).1

theorem Memory.block_mapBlocks {m : Memory} (h : Memory.wf m) (f : Block → Block) (n i : Nat) :
    Memory.block (Memory.mapBlocks f n m) i = if i < n then f (Memory.block m i) else Memory.block m i :=
  (Memory.mapBlocks_spec h f n).2 i

theorem Memory.mapBlocks_mapBlocks {m : Memory} (h : Memory.wf m) (f g : Block → Block) (n : Nat) :
    Memory.mapBlocks g n (Memory.mapBlocks f n m) = Memory.mapBlocks (fun b => g (f b)) n m := by
  have hf := Memory.wf_mapBlocks h f n
  refine Memory.ext_of_block (Memory.wf_mapBlocks hf g n) (Memory.wf_mapBlocks h _ n) fun i => ?_
  rw [Memory.block_mapBlocks hf, Memory.block_mapBlocks h, Memory.block_mapBlocks h]
  by_cases hi : i < n
  · simp only [if_pos hi]
  · simp only [if_neg hi]

theorem Memory.mapBlocks_id {m : Memory} (h : Memory.wf m) (n : Nat) : Memory.mapBlocks (fun b => b) n m = m := by
  refine Memory.ext_of_block (Memory.wf_mapBlocks h _ n) h fun i => ?_
  rw [Memory.block_mapBlocks h, ite_self]

/-- The byte layer of a table over whole blocks is the block layer of the substituted block (R187). -/
theorem Memory.mapBytes_eq_mapBlocks {m : Memory} (h : Memory.wf m) (t : Table) (n : Nat) :
    Memory.mapBytes (fun b => t[b.toNat]) (16 * n) m = Memory.mapBlocks (substituteBlock t) n m := by
  obtain ⟨hwf, hread⟩ := Memory.mapBytes_spec h (fun b => t[b.toNat]) (16 * n)
  refine Memory.ext_of_read hwf (Memory.wf_mapBlocks h _ n) fun a => ?_
  rw [hread, Memory.read_mapBlocks h]
  by_cases ha : a / 16 < n
  · rw [if_pos (by omega), if_pos ha, substituteBlock, Vector.getElem_map, ← Memory.read_eq_block]
  · rw [if_neg (by omega), if_neg ha]

theorem Data.mapMessage_comp {d : Data} (hwf : Memory.wf d.buf) (f g : Block → Block) :
    (d.mapMessage f).mapMessage g = d.mapMessage fun b => g (f b) :=
  congrArg (fun m => { d with buf := m }) (Memory.mapBlocks_mapBlocks hwf f g d.nblk)

theorem Data.substitute_eq_mapMessage {d : Data} (hwf : Memory.wf d.buf) (hshape : d.len.toNat % 16 = 0) (t : Table) :
    d.substitute t = d.mapMessage (substituteBlock t) := by
  rw [Data.substitute, ← Data.mul_nblk hshape, Memory.mapBytes_eq_mapBlocks hwf, Data.mapMessage]

/-! ## The bodies of the layers -/

theorem Body.mix_of {p : Params} {d : Data} (hcap : d.len.toNat ≤ p.bufBytes) (hshape : d.len.toNat % 16 = 0) :
    Body.mix p d = .ok (d.mapMessage fun b => xor16 b d.rk) := blockLayer_of hcap hshape

theorem Body.rotF_of {p : Params} {d : Data} (hcap : d.len.toNat ≤ p.bufBytes) (hshape : d.len.toNat % 16 = 0) :
    Body.rotF p d = .ok (d.mapMessage (rotateForward d.rk)) := blockLayer_of hcap hshape

theorem Body.rotR_of {p : Params} {d : Data} (hcap : d.len.toNat ≤ p.bufBytes) (hshape : d.len.toNat % 16 = 0) :
    Body.rotR p d = .ok (d.mapMessage (rotateReverse d.rk)) := blockLayer_of hcap hshape

theorem Body.trnF_of {p : Params} {d : Data} (hcap : d.len.toNat ≤ p.bufBytes) (hshape : d.len.toNat % 16 = 0) :
    Body.trnF p d = .ok (d.mapMessage (transpose d.rk)) := blockLayer_of hcap hshape

theorem Body.trnR_of {p : Params} {d : Data} (hcap : d.len.toNat ≤ p.bufBytes) (hshape : d.len.toNat % 16 = 0) :
    Body.trnR p d = .ok (d.mapMessage (reverseTranspose d.rk)) := blockLayer_of hcap hshape

/-! ## The rounds -/

/-- The block function of a round of ENC under the round key `k` (R258, R260). -/
def encryptBlock (k : KeyMatrix) (b : Block) : Block := transpose k (rotateForward k (xor16 b k))

/-- The block function of a round of DEC under the round key `k` (R262, R263). -/
def decryptBlock (k : KeyMatrix) (b : Block) : Block := xor16 (rotateReverse k (reverseTranspose k b)) k

theorem encryptRounds_zero (k : KeyMatrix) : encryptRounds k 0 = fun b => b := by
  funext b
  rw [encryptRounds]

theorem encryptRounds_succ (k : KeyMatrix) (r : Nat) :
    encryptRounds k (r + 1) = fun b => encryptBlock (roundKey k r) (encryptRounds k r b) := by
  funext b
  rw [encryptRounds, encryptBlock]

theorem decryptRounds_zero (k : KeyMatrix) : decryptRounds k 0 = fun b => b := by
  funext b
  rw [decryptRounds]

theorem decryptRounds_succ (k : KeyMatrix) (r : Nat) :
    decryptRounds k (r + 1) = fun b => decryptRounds k r (decryptBlock (roundKey k r) b) := by
  funext b
  rw [decryptRounds, decryptBlock]

/-- The data with another round key. -/
def Data.withRk (d : Data) (k : KeyMatrix) : Data := { d with rk := k }

/-- The data with another round key and every message block replaced by `f` of it. -/
def Data.withRound (d : Data) (k : KeyMatrix) (f : Block → Block) : Data := (d.mapMessage f).withRk k

theorem Data.withRound_id {d : Data} (hwf : Memory.wf d.buf) : d.withRound d.rk (fun b => b) = d :=
  congrArg (fun m => { d with buf := m }) (Memory.mapBlocks_id hwf d.nblk)

theorem Data.withRound_withRound {d : Data} (hwf : Memory.wf d.buf) (k k' : KeyMatrix) (f g : Block → Block) :
    (d.withRound k f).withRound k' g = d.withRound k' fun b => g (f b) :=
  congrArg (fun m => { d with rk := k', buf := m }) (Memory.mapBlocks_mapBlocks hwf f g d.nblk)

@[simp] theorem Data.withRound_rk (d : Data) (k : KeyMatrix) (f : Block → Block) : (d.withRound k f).rk = k := rfl

theorem Data.wf_withRound {d : Data} (hwf : Memory.wf d.buf) (k : KeyMatrix) (f : Block → Block) :
    Memory.wf (d.withRound k f).buf := Memory.wf_mapBlocks hwf f d.nblk

theorem Body.kadv_eq (p : Params) (d : Data) : Body.kadv p d = .ok (d.withRk (h16 d.rk)) := rfl

/-- MIX, ROT.F and TRN.F together map every block of the message (R258). -/
theorem encryptLayers_of {p : Params} {d : Data} (hwf : Memory.wf d.buf) (hcap : d.len.toNat ≤ p.bufBytes)
    (hshape : d.len.toNat % 16 = 0) :
    (Body.mix p d >>= Body.rotF p >>= Body.trnF p) = .ok (d.mapMessage (encryptBlock d.rk)) := by
  rw [Body.mix_of hcap hshape, ok_bind, Body.rotF_of (d := d.mapMessage _) hcap hshape, ok_bind,
    Body.trnF_of (d := (d.mapMessage _).mapMessage _) hcap hshape, Data.mapMessage_comp hwf,
    Data.mapMessage_comp hwf]
  rfl

theorem encryptRound_of {p : Params} {d : Data} (hwf : Memory.wf d.buf) (hcap : d.len.toNat ≤ p.bufBytes)
    (hshape : d.len.toNat % 16 = 0) : encryptRound p d = .ok (d.withRound (h16 d.rk) (encryptBlock d.rk)) := by
  rw [encryptRound, encryptLayers_of hwf hcap hshape, ok_bind, Body.kadv_eq]
  rfl

/-- `n` rounds of ENC from any RK on (R258, R260). -/
theorem loopUp_encryptRound {p : Params} {d : Data} (hwf : Memory.wf d.buf) (hcap : d.len.toNat ≤ p.bufBytes)
    (hshape : d.len.toNat % 16 = 0) (n : Nat) : loopUp (fun _ => encryptRound p) n d =
      .ok (d.withRound (roundKey d.rk n) (encryptRounds d.rk n)) := by
  induction n with
  | zero => rw [loopUp, roundKey, encryptRounds_zero, Data.withRound_id hwf]
  | succ n ih =>
    rw [loopUp, ih, ok_bind, encryptRound_of (Data.wf_withRound hwf _ _) hcap hshape, Data.withRound_rk,
      Data.withRound_withRound hwf, roundKey, encryptRounds_succ]

/-- KSEL on the sequence of KEY gives its round key (R162). -/
theorem Body.ksel_of_sequence {p : Params} {d : Data} (hqv : d.qv = true) (hrks : d.rks = keySequence d.key d.r)
    {i : Nat} (hi : i ≤ d.r.val) : Body.ksel i p d = .ok (d.withRk (roundKey d.key i)) := by
  have hi25 : i < 25 := by omega
  have hkey : d.rks[i] = roundKey d.key i := by
    simp only [hrks]
    exact keySequence_of_le d.key hi25 hi
  rw [Body.ksel_of_le hi25 hqv hi, hkey, Data.withRk]

/-- TRN.R, ROT.R and MIX together map every block of the message (R262). -/
theorem decryptLayers_of {p : Params} {d : Data} (hwf : Memory.wf d.buf) (hcap : d.len.toNat ≤ p.bufBytes)
    (hshape : d.len.toNat % 16 = 0) :
    (Body.trnR p d >>= Body.rotR p >>= Body.mix p) = .ok (d.mapMessage (decryptBlock d.rk)) := by
  rw [Body.trnR_of hcap hshape, ok_bind, Body.rotR_of (d := d.mapMessage _) hcap hshape, ok_bind,
    Body.mix_of (d := (d.mapMessage _).mapMessage _) hcap hshape, Data.mapMessage_comp hwf,
    Data.mapMessage_comp hwf]
  rfl

theorem decryptRound_of {p : Params} {d : Data} (hwf : Memory.wf d.buf) (hcap : d.len.toNat ≤ p.bufBytes)
    (hshape : d.len.toNat % 16 = 0) {i : Nat} {k : KeyMatrix} (hksel : Body.ksel i p d = .ok (d.withRk k)) :
    decryptRound p i d = .ok (d.withRound k (decryptBlock k)) := by
  rw [decryptRound, hksel, ok_bind, decryptLayers_of (d := d.withRk k) hwf hcap hshape]
  rfl

/-- The rounds `n - 1` downto 0 of DEC, from `K_n` in RK down to KEY (R262, R263). -/
theorem loopDown_decryptRound {p : Params} {d : Data} (hwf : Memory.wf d.buf) (hcap : d.len.toNat ≤ p.bufBytes)
    (hshape : d.len.toNat % 16 = 0) (hqv : d.qv = true) (hrks : d.rks = keySequence d.key d.r) {n : Nat}
    (hn : n ≤ d.r.val) (hrk : d.rk = roundKey d.key n) :
    loopDown (decryptRound p) n d = .ok (d.withRound d.key (decryptRounds d.key n)) := by
  induction n generalizing d with
  | zero =>
    have hkey : d.key = d.rk := by rw [hrk, roundKey]
    rw [loopDown, decryptRounds_zero]
    conv_rhs => rw [hkey, Data.withRound_id hwf]
  | succ n ih =>
    have hround := decryptRound_of hwf hcap hshape
      (Body.ksel_of_sequence (p := p) hqv hrks (Nat.le_of_succ_le hn))
    rw [loopDown, hround, ok_bind]
    refine (ih (Data.wf_withRound hwf _ _) hcap hshape hqv hrks (Nat.le_of_succ_le hn) rfl).trans ?_
    rw [Data.withRound_withRound hwf, decryptRounds_succ]
    rfl

end Sys2Proof.Machine
end

section
/-! PROOFS. ENC, ENCG and DEC (48_orchestrator.md R257 to R264): the buffer each of them leaves, by blocks, the data
state at its end, and its faults. DEC of a buffer that holds the ciphertext finds the padded message, whose sentinel
stands at the old length. -/

namespace Sys2Proof.Machine

/-! ## The ciphertext -/

theorem block_padBuffer {m : Memory} (h : Memory.wf m) {n i : Nat} (hi : i < n / 16 + 1) :
    Memory.block (padBuffer m n) i = paddedBlock m n i := by
  refine Vector.ext fun j hj => ?_
  rw [Memory.block_getElem, read_padBuffer h, paddedBlock, Vector.getElem_ofFn, paddedLength]
  rcases Nat.lt_trichotomy (16 * i + j) n with hlt | heq | hgt
  · rw [if_neg hlt.ne, if_neg (by omega), if_pos hlt]
  · rw [if_pos heq, if_neg heq.not_lt, if_pos heq]
  · rw [if_neg hgt.ne', if_pos (by omega), if_neg hgt.not_gt, if_neg hgt.ne']

/-- The buffer ENC leaves of a message of `n` bytes, for the table `t` (R258). -/
def cipherBuffer (t : Table) (k : KeyMatrix) (r : Nat) (m : Memory) (n : Nat) : Memory :=
  (chainForward (roundKey k r) (n / 16 + 1) (Memory.mapBlocks (fun b => encryptRounds k r (substituteBlock t b))
    (n / 16 + 1) (padBuffer m n))).1

section
variable (t : Table) (k : KeyMatrix) (r : Nat) {m : Memory} (h : Memory.wf m) (n : Nat)
include h

theorem isChained_cipherBuffer : IsChained (roundKey k r) (n / 16 + 1) (cipherBuffer t k r m n)
    (Memory.mapBlocks (fun b => encryptRounds k r (substituteBlock t b)) (n / 16 + 1) (padBuffer m n))
    (cipherBuffer t k r m n) :=
  isChained_chainForward _ (Memory.wf_mapBlocks (wf_padBuffer h n) _ _) _

theorem wf_cipherBuffer : Memory.wf (cipherBuffer t k r m n) := (isChained_cipherBuffer t k r h n).canonical

theorem read_cipherBuffer_above {a : Nat} (ha : 16 * (n / 16 + 1) ≤ a) :
    Memory.read (cipherBuffer t k r m n) a = Memory.read m a := by
  rw [(isChained_cipherBuffer t k r h n).read_above ha, Memory.read_mapBlocks_above (wf_padBuffer h n) _ ha,
    read_padBuffer h, if_neg (by omega), if_neg (by unfold paddedLength; omega)]

/-- Each block of the buffer is the padded block through SUB.F and the rounds, chained with the one before it. -/
theorem block_cipherBuffer_chained {i : Nat} (hi : i < n / 16 + 1) : Memory.block (cipherBuffer t k r m n) i =
    xor16 (encryptRounds k r (substituteBlock t (paddedBlock m n i)))
      (Memory.blockBefore (roundKey k r) (cipherBuffer t k r m n) i) := by
  rw [(isChained_cipherBuffer t k r h n).below i hi, Memory.block_mapBlocks (wf_padBuffer h n), if_pos hi,
    block_padBuffer h hi]

/-- With the table of the key, the blocks of the buffer are those of the functional form (R260). -/
theorem block_cipherBuffer (x : SboxDraw) {i : Nat} (hi : i < n / 16 + 1) :
    Memory.block (cipherBuffer (genSbox x k) k r m n) i = cipherBlock x k r m n i := by
  induction i with
  | zero => rw [block_cipherBuffer_chained _ k r h n hi, Memory.blockBefore_zero, cipherBlock]
  | succ i ih =>
    rw [block_cipherBuffer_chained _ k r h n hi, Memory.blockBefore_succ, ih (by omega), cipherBlock]

end

/-! ## The body of ENC from PAD onward -/

theorem Body.kbase_eq (p : Params) (d : Data) : Body.kbase p d = .ok (d.withRk d.key) := rfl

/-- The data with a new table, whose inverse is not yet known (R184). -/
def Data.withSbox (d : Data) (t : Table) : Data := { d with sbox := t, sv := true, nv := false }

theorem Body.sgen_eq (p : Params) (d : Data) : Body.sgen p d = .ok (d.withSbox (genSbox p.sboxDraw d.key)) := rfl

/-- SUB.F on whole blocks, while SV = 1 (R188). -/
theorem Body.subF_of {p : Params} {d : Data} (hwf : Memory.wf d.buf) (hcap : d.len.toNat ≤ p.bufBytes)
    (hshape : d.len.toNat % 16 = 0) (hsv : d.sv = true) :
    Body.subF p d = .ok (d.mapMessage (substituteBlock d.sbox)) := by
  rw [Body.subF, hsv, needFlag_true, ok_bind, byteLayer_of hcap hshape, Data.substitute_eq_mapMessage hwf hshape]

/-- The data ENC leaves of data with whole blocks and a valid table: the blocks mapped and chained, the last round key
in RK (R258). -/
def Data.encryptedBlocks (d : Data) : Data :=
  { d with
    rk := roundKey d.key d.r.val
    buf := (chainForward (roundKey d.key d.r.val) d.nblk (Memory.mapBlocks
      (fun b => encryptRounds d.key d.r.val (substituteBlock d.sbox b)) d.nblk d.buf)).1 }

/-- ENC from SUB.F onward (R258). -/
theorem encryptFromSubF_of {p : Params} {d : Data} (hwf : Memory.wf d.buf) (hcap : d.len.toNat ≤ p.bufBytes)
    (hshape : d.len.toNat % 16 = 0) (hsv : d.sv = true) :
    (Body.subF p d >>= Body.kbase p >>= fun d => loopUp (fun _ => encryptRound p) d.r.val d >>= Body.chnF p) =
      .ok d.encryptedBlocks := by
  have hloop := loopUp_encryptRound (p := p) (d := d.withRound d.key (substituteBlock d.sbox))
    (Data.wf_withRound hwf _ _) hcap hshape d.r.val
  rw [Data.withRound_withRound hwf, Data.withRound_rk] at hloop
  rw [Body.subF_of hwf hcap hshape hsv, ok_bind, Body.kbase_eq, ok_bind]
  refine (congrArg (· >>= Body.chnF p) hloop).trans ?_
  rw [ok_bind]
  exact Body.chnF_of (d := d.withRound _ _) hcap hshape

/-- The data ENC leaves, for the table `t` and the round count `r` (R258). -/
def Data.encrypted (d : Data) (t : Table) (r : Nat) : Data :=
  { d with
    rk := roundKey d.key r
    sbox := t
    sv := true
    nv := false
    buf := cipherBuffer t d.key r d.buf d.len.toNat
    len := BitVec.ofNat 32 (paddedLength d.len.toNat) }

theorem paddedLength_shape (n : Nat) : paddedLength n % 16 = 0 := Nat.mul_mod_right ..

/-- The data with the message padded (R111). -/
def Data.padded (d : Data) : Data :=
  { d with buf := padBuffer d.buf d.len.toNat, len := BitVec.ofNat 32 (paddedLength d.len.toNat) }

/-- The body of ENC from PAD onward completes when the message leaves room for its padding (R258, R268). Its parts are
proved for every table, since unification would evaluate the shuffle of a given one. -/
theorem encryptFromPad_of {p : Params} {d : Data} (hp : p.legal) (hwf : Memory.wf d.buf)
    (hlen : d.len.toNat ≤ p.bufBytes - 1) : encryptFromPad p d =
      .ok (d.encrypted (genSbox p.sboxDraw d.key) d.r.val) := by
  have hl : d.padded.len.toNat = paddedLength d.len.toNat :=
    toNat_ofNat_of_le_capacity hp (paddedLength_le hp hlen)
  have hcap : d.padded.len.toNat ≤ p.bufBytes := hl.trans_le (paddedLength_le hp hlen)
  have hshape : d.padded.len.toNat % 16 = 0 := by rw [hl, paddedLength_shape]
  have hnblk : d.padded.nblk = d.len.toNat / 16 + 1 := by
    rw [Data.nblk, hl, paddedLength, Nat.mul_div_cancel_left _ (by decide)]
  have hpad : Body.pad p d = .ok d.padded := Body.pad_of_le hlen
  have hend (t : Table) : (d.padded.withSbox t).encryptedBlocks = d.encrypted t d.r.val := by
    rw [Data.encrypted, cipherBuffer, ← hnblk]
    rfl
  have hrest (t : Table) := encryptFromSubF_of (p := p) (d := d.padded.withSbox t) (wf_padBuffer hwf _) hcap hshape rfl
  rw [encryptFromPad, hpad, ok_bind, Body.sgen_eq, ok_bind, hrest, hend]
  rfl

/-! ## ENC and ENCG -/

/-- KSET before the body makes the round count that of KEY (R258). -/
theorem Body.enc_of {p : Params} {d : Data} (hp : p.legal) (hwf : Memory.wf d.buf)
    (hlen : d.len.toNat ≤ p.bufBytes - 1) {r : Fin 25} (hr : r.val = d.key[0].toNat) (hpos : 1 ≤ r.val) :
    Body.enc p d = .ok (Data.encrypted { d with r := r, kv := true } (genSbox p.sboxDraw d.key) r.val) := by
  rw [Body.enc, Body.kset_of_count hr hpos, ok_bind]
  exact encryptFromPad_of (d := { d with r := r, kv := true }) hp hwf hlen

/-- The data KGEN leaves (R134). -/
def Data.drawn (d : Data) (x : Draw) : Data :=
  { d with
    key := x.bytes.set 0 (BitVec.ofNat 8 x.rounds.val)
    r := x.rounds
    kv := true
    qv := false
    sv := false
    nv := false }

theorem Body.encg_of (x : Draw) {p : Params} {d : Data} (hp : p.legal) (hwf : Memory.wf d.buf)
    (hlen : d.len.toNat ≤ p.bufBytes - 1) : Body.encg x p d =
      .ok ((d.drawn x).encrypted (genSbox p.sboxDraw (d.drawn x).key) x.rounds.val) := by
  have hkgen : Body.kgen x p d = .ok (d.drawn x) := rfl
  rw [Body.encg, hkgen, ok_bind]
  exact encryptFromPad_of (d := d.drawn x) hp hwf hlen

/-- The length of the ciphertext as ENC writes it back (R258). -/
theorem toNat_paddedLength {p : Params} (hp : p.legal) {n : Nat} (h : n ≤ p.bufBytes - 1) :
    (BitVec.ofNat 32 (paddedLength n)).toNat = 16 * (n / 16 + 1) :=
  toNat_ofNat_of_le_capacity hp (paddedLength_le hp h)

/-- Settles O45: the body completes with the chained blocks, which are those of the functional form. -/
theorem encComputesTheCiphertext : Obligations.EncComputesTheCiphertext := by
  intro s hp hwf hpos hmax hlen
  have hr : (Fin.ofNat 25 s.data.key[0].toNat).val = s.data.key[0].toNat := Nat.mod_eq_of_lt (by omega)
  have hbody := Body.enc_of hp hwf hlen hr (hpos.trans_eq hr.symm)
  rw [hr] at hbody
  have hl := toNat_paddedLength hp hlen
  exact ⟨_, _, State.perform_ok hbody, wf_cipherBuffer _ _ _ hwf _, hl,
    fun _ hi => block_cipherBuffer _ _ hwf _ _ hi,
    fun _ ha => read_cipherBuffer_above _ _ _ hwf _ (hl.symm.trans_le ha)⟩

/-- Settles O46: as O45, for the key that KGEN has loaded from the oracle. -/
theorem encgEncryptsUnderTheDrawnKey : Obligations.EncgEncryptsUnderTheDrawnKey := by
  intro s k r hp hwf hk hr hlen
  obtain rfl : r = (Config.entropy s.draws).rounds := Fin.ext hr
  subst hk
  have hbody := Body.encg_of (Config.entropy s.draws) hp hwf hlen
  have hl := toNat_paddedLength hp hlen
  exact ⟨_, _, State.perform_ok (s := (State.draw s).2) hbody, wf_cipherBuffer _ _ _ hwf _, hl,
    fun _ hi => block_cipherBuffer _ _ hwf _ _ hi,
    fun _ ha => read_cipherBuffer_above _ _ _ hwf _ (hl.symm.trans_le ha)⟩

/-! ## The plaintext -/

/-- A chunked block of the message is a block of what CHUNK leaves (R113). -/
theorem block_chunkBuffer {m : Memory} (h : Memory.wf m) {n i : Nat} (hi : i < (n + 15) / 16) :
    Memory.block (chunkBuffer m n) i = chunkedBlock m n i := by
  refine Vector.ext fun j hj => ?_
  rw [Memory.block_getElem, read_chunkBuffer h, chunkedBlock, Vector.getElem_ofFn, chunkedLength]
  rcases Nat.lt_or_ge (16 * i + j) n with hlt | hge
  · rw [if_neg (by omega), if_pos hlt]
  · rw [if_pos (by omega), if_neg hge.not_gt]

/-- The buffer of DEC before UNPAD, for a ciphertext of `n` bytes and the inverse table `t` (R262). -/
def plainBuffer (t : Table) (k : KeyMatrix) (r : Nat) (m : Memory) (n : Nat) : Memory :=
  Memory.mapBlocks (fun b => substituteBlock t (decryptRounds k r b)) ((n + 15) / 16)
    (chainReverse (roundKey k r) ((n + 15) / 16) (chunkBuffer m n)).1

section
variable (t : Table) (k : KeyMatrix) (r : Nat) {m : Memory} (h : Memory.wf m) (n : Nat)
include h

theorem isChained_beforeRounds : IsChained (roundKey k r) ((n + 15) / 16) (chunkBuffer m n) (chunkBuffer m n)
    (chainReverse (roundKey k r) ((n + 15) / 16) (chunkBuffer m n)).1 :=
  isChained_chainReverse _ (wf_chunkBuffer h n) _

theorem wf_plainBuffer : Memory.wf (plainBuffer t k r m n) :=
  Memory.wf_mapBlocks (isChained_beforeRounds k r h n).canonical _ _

/-- The block before a block of the chunked message, or the initial value (R242, R263). -/
theorem blockBefore_chunkBuffer {i : Nat} (hi : i < (n + 15) / 16) :
    Memory.blockBefore (roundKey k r) (chunkBuffer m n) i = chainedBefore k r m n i := by
  cases i with
  | zero => rw [Memory.blockBefore_zero, chainedBefore]
  | succ i => rw [Memory.blockBefore_succ, block_chunkBuffer h (by omega), chainedBefore]

/-- With the inverse of the table of the key, the blocks of the buffer are those of the functional form (R263). -/
theorem block_plainBuffer (x : SboxDraw) {i : Nat} (hi : i < (n + 15) / 16) :
    Memory.block (plainBuffer (invertTable (genSbox x k)) k r m n) i = plainBlock x k r m n i := by
  have hchained := isChained_beforeRounds k r h n
  rw [plainBuffer, Memory.block_mapBlocks hchained.canonical, if_pos hi, hchained.below i hi, block_chunkBuffer h hi,
    blockBefore_chunkBuffer k r h n hi, plainBlock]

/-- The buffer byte by byte: the plaintext of R263, and above it the bytes as before. -/
theorem read_plainBuffer (x : SboxDraw) (a : Nat) :
    Memory.read (plainBuffer (invertTable (genSbox x k)) k r m n) a =
      if a < 16 * ((n + 15) / 16) then plainByte x k r m n a else Memory.read m a := by
  have hchained := isChained_beforeRounds k r h n
  by_cases ha : a < 16 * ((n + 15) / 16)
  · rw [if_pos ha, Memory.read_eq_block, plainByte]
    simp only [block_plainBuffer k r h n x (i := a / 16) (by omega)]
  · rw [if_neg ha, plainBuffer, Memory.read_mapBlocks_above hchained.canonical _ (by omega),
      hchained.read_above (by omega), read_chunkBuffer h, chunkedLength, if_neg (by omega)]

end

/-! ## The body of DEC up to UNPAD -/

theorem chunkedLength_shape (n : Nat) : chunkedLength n % 16 = 0 := Nat.mul_mod_right ..

/-- The data with the round count `r` and the sequence of KEY (R136, R160). -/
def Data.keyed (d : Data) (r : Fin 25) : Data := { d with r := r, kv := true, rks := keySequence d.key r, qv := true }

/-- KSET and KDRV at the start of DEC (R262). -/
theorem kset_kdrv_of {p : Params} {d : Data} {r : Fin 25} (hr : r.val = d.key[0].toNat) (hpos : 1 ≤ r.val) :
    (Body.kset p d >>= Body.kdrv p) = .ok (d.keyed r) := by
  rw [Body.kset_of_count hr hpos, ok_bind, Body.kdrv_of_kv rfl, Data.keyed]

/-- The data of DEC when its sequence is derived and its last block filled (R262). -/
def Data.sequenced (d : Data) (r : Fin 25) : Data :=
  { d.keyed r with
    buf := chunkBuffer d.buf d.len.toNat
    len := BitVec.ofNat 32 (chunkedLength d.len.toNat) }

/-- KSEL R and CHN.R, on whole blocks and the sequence of KEY (R262). -/
theorem kselLast_chnR_of {p : Params} {d : Data} (hcap : d.len.toNat ≤ p.bufBytes) (hshape : d.len.toNat % 16 = 0)
    (hqv : d.qv = true) (hrks : d.rks = keySequence d.key d.r) :
    (Body.ksel d.r.val p d >>= Body.chnR p) = .ok ((d.withRk (roundKey d.key d.r.val)).withBuf
      (chainReverse (roundKey d.key d.r.val) d.nblk d.buf).1) := by
  rw [Body.ksel_of_sequence hqv hrks le_rfl, ok_bind]
  exact Body.chnR_of (d := d.withRk _) hcap hshape

/-- DEC from KSEL R to the last round (R262). -/
theorem decryptRounds_of {p : Params} {d : Data} (hwf : Memory.wf d.buf) (hcap : d.len.toNat ≤ p.bufBytes)
    (hshape : d.len.toNat % 16 = 0) (hqv : d.qv = true) (hrks : d.rks = keySequence d.key d.r) :
    (Body.ksel d.r.val p d >>= Body.chnR p >>= fun d => loopDown (decryptRound p) d.r.val d) =
      .ok ((d.withBuf (chainReverse (roundKey d.key d.r.val) d.nblk d.buf).1).withRound d.key
        (decryptRounds d.key d.r.val)) := by
  rw [kselLast_chnR_of hcap hshape hqv hrks, ok_bind]
  exact loopDown_decryptRound (d := (d.withRk (roundKey d.key d.r.val)).withBuf _) (chainReverse_spec _ hwf _).1 hcap
    hshape hqv hrks le_rfl rfl

theorem toNat_sequenced_len {p : Params} (hp : p.legal) {d : Data} (hcap : d.len.toNat ≤ p.bufBytes) (r : Fin 25) :
    (d.sequenced r).len.toNat = chunkedLength d.len.toNat :=
  toNat_ofNat_of_le_capacity hp (chunkedLength_le hp hcap)

/-- The data of DEC when its rounds are done (R262). -/
def Data.afterRounds (d : Data) (r : Fin 25) : Data :=
  ((d.sequenced r).withBuf (chainReverse (roundKey d.key r.val) (d.sequenced r).nblk
    (chunkBuffer d.buf d.len.toNat)).1).withRound d.key (decryptRounds d.key r.val)

theorem Data.wf_afterRounds {d : Data} (hwf : Memory.wf d.buf) (r : Fin 25) : Memory.wf (d.afterRounds r).buf :=
  Memory.wf_mapBlocks (chainReverse_spec _ (wf_chunkBuffer hwf _) _).1 _ _

/-- DEC up to its last round, for a ciphertext that fits (R262). -/
theorem decryptToRounds_of {p : Params} {d : Data} (hp : p.legal) (hwf : Memory.wf d.buf)
    (hcap : d.len.toNat ≤ p.bufBytes) {r : Fin 25} (hr : r.val = d.key[0].toNat) (hpos : 1 ≤ r.val) :
    (Body.kset p d >>= Body.kdrv p >>= Body.chunk p >>= (fun d => Body.ksel d.r.val p d) >>= Body.chnR p >>=
      fun d => loopDown (decryptRound p) d.r.val d) = .ok (d.afterRounds r) := by
  have hl := toNat_sequenced_len hp hcap r
  have hcap' : (d.sequenced r).len.toNat ≤ p.bufBytes := hl.trans_le (chunkedLength_le hp hcap)
  have hshape' : (d.sequenced r).len.toNat % 16 = 0 := by rw [hl, chunkedLength_shape]
  have hchunk : Body.chunk p (d.keyed r) = .ok (d.sequenced r) := Body.chunk_of_le hcap
  have hrounds := decryptRounds_of (d := d.sequenced r) (wf_chunkBuffer hwf _) hcap' hshape' rfl rfl
  rw [kset_kdrv_of hr hpos, ok_bind, hchunk, ok_bind, hrounds]
  rfl

/-- The data with both tables (R184, R186). -/
def Data.withTables (d : Data) (t t' : Table) : Data := { d with sbox := t, inv := t', sv := true, nv := true }

theorem Body.sinv_withSbox (p : Params) (d : Data) (t : Table) :
    Body.sinv p (d.withSbox t) = .ok (d.withTables t (invertTable t)) := Body.sinv_of_sv rfl

/-- SUB.R on whole blocks, while NV = 1 (R189). -/
theorem Body.subR_of {p : Params} {d : Data} (hwf : Memory.wf d.buf) (hcap : d.len.toNat ≤ p.bufBytes)
    (hshape : d.len.toNat % 16 = 0) (hnv : d.nv = true) :
    Body.subR p d = .ok (d.mapMessage (substituteBlock d.inv)) := by
  rw [Body.subR, hnv, needFlag_true, ok_bind, byteLayer_of hcap hshape, Data.substitute_eq_mapMessage hwf hshape]

/-- DEC from SGEN to SUB.R (R262). -/
theorem decryptTables_of {p : Params} {d : Data} (hwf : Memory.wf d.buf) (hcap : d.len.toNat ≤ p.bufBytes)
    (hshape : d.len.toNat % 16 = 0) {t : Table} (ht : t = genSbox p.sboxDraw d.key) :
    (Body.sgen p d >>= Body.sinv p >>= Body.subR p) =
      .ok ((d.withTables t (invertTable t)).mapMessage (substituteBlock (invertTable t))) := by
  have hsubR (t' : Table) : Body.subR p (d.withTables t t') =
      .ok ((d.withTables t t').mapMessage (substituteBlock t')) :=
    Body.subR_of (d := d.withTables t t') hwf hcap hshape rfl
  rw [Body.sgen_eq, ← ht, ok_bind, Body.sinv_withSbox, ok_bind, hsubR]

/-- The data of DEC before UNPAD, with the tables `t` and `t'` (R262). -/
def Data.decrypted (d : Data) (t t' : Table) (r : Fin 25) : Data where
  key := d.key
  rk := d.key
  r := r
  rks := keySequence d.key r
  sbox := t
  inv := t'
  buf := plainBuffer t' d.key r.val d.buf d.len.toNat
  len := BitVec.ofNat 32 (chunkedLength d.len.toNat)
  kv := true
  qv := true
  sv := true
  nv := true

/-- The blocks of the message through the rounds and SUB.R are those of `plainBuffer`. -/
theorem Data.afterRounds_decrypted {p : Params} {d : Data} (hp : p.legal) (hwf : Memory.wf d.buf)
    (hcap : d.len.toNat ≤ p.bufBytes) (r : Fin 25) (t t' : Table) :
    ((d.afterRounds r).withTables t t').mapMessage (substituteBlock t') = d.decrypted t t' r := by
  have hnblk : (d.sequenced r).nblk = (d.len.toNat + 15) / 16 := by
    rw [Data.nblk, toNat_sequenced_len hp hcap, chunkedLength, Nat.mul_div_cancel_left _ (by decide)]
  rw [Data.decrypted, plainBuffer, ← hnblk,
    ← Memory.mapBlocks_mapBlocks (chainReverse_spec _ (wf_chunkBuffer hwf _) _).1]
  rfl

/-- The data of DEC before UNPAD, with the tables of KEY (R262). -/
def Data.plaintext (d : Data) (p : Params) (r : Fin 25) : Data :=
  d.decrypted (genSbox p.sboxDraw d.key) (invertTable (genSbox p.sboxDraw d.key)) r

/-- DEC completes up to UNPAD for a ciphertext that fits (R262, R263). -/
theorem Body.dec_of {p : Params} {d : Data} (hp : p.legal) (hwf : Memory.wf d.buf) (hcap : d.len.toNat ≤ p.bufBytes)
    {r : Fin 25} (hr : r.val = d.key[0].toNat) (hpos : 1 ≤ r.val) :
    Body.dec p d = Body.unpad p (d.plaintext p r) := by
  have hl : (d.afterRounds r).len.toNat = chunkedLength d.len.toNat := toNat_sequenced_len hp hcap r
  have htables : (Body.sgen p (d.afterRounds r) >>= Body.sinv p >>= Body.subR p) = .ok _ :=
    decryptTables_of (d := d.afterRounds r) (t := genSbox p.sboxDraw d.key) (Data.wf_afterRounds hwf r)
      (hl.trans_le (chunkedLength_le hp hcap)) (by rw [hl, chunkedLength_shape]) rfl
  rw [Body.dec, decryptToRounds_of hp hwf hcap hr hpos, ok_bind, htables, ok_bind,
    Data.afterRounds_decrypted hp hwf hcap, Data.plaintext]

theorem Data.toNat_plaintext_len {p : Params} (hp : p.legal) {d : Data} (hcap : d.len.toNat ≤ p.bufBytes)
    (r : Fin 25) : (d.plaintext p r).len.toNat = 16 * ((d.len.toNat + 15) / 16) :=
  toNat_sequenced_len hp hcap r

theorem Data.wf_plaintext {d : Data} (hwf : Memory.wf d.buf) (p : Params) (r : Fin 25) :
    Memory.wf (d.plaintext p r).buf :=
  wf_plainBuffer _ d.key r.val hwf d.len.toNat

theorem Data.read_plaintext {d : Data} (hwf : Memory.wf d.buf) (p : Params) (r : Fin 25) (a : Nat) :
    Memory.read (d.plaintext p r).buf a = if a < 16 * ((d.len.toNat + 15) / 16)
      then plainByte p.sboxDraw d.key r.val d.buf d.len.toNat a else Memory.read d.buf a :=
  read_plainBuffer d.key r.val hwf d.len.toNat p.sboxDraw a

/-! ## DEC -/

/-- The sentinel depends on the bytes of the message alone. -/
theorem sentinelAt_congr {f g : Nat → Byte} {n : Nat} (h : ∀ a, a < n → f a = g a) (j : Nat) :
    sentinelAt f n j ↔ sentinelAt g n j := by
  have hleft {f g : Nat → Byte} (h : ∀ a, a < n → f a = g a) (hf : sentinelAt f n j) : sentinelAt g n j := by
    obtain ⟨hj, hmark, hzeros⟩ := hf
    exact ⟨hj, (h j hj).symm.trans hmark, fun a hja han => (h a han).symm.trans (hzeros a hja han)⟩
  exact ⟨hleft h, hleft fun a ha => (h a ha).symm⟩

/-- UNPAD finds a sentinel in the plaintext where the functional form has one. -/
theorem Data.sentinelAt_plaintext {p : Params} (hp : p.legal) {d : Data} (hwf : Memory.wf d.buf)
    (hcap : d.len.toNat ≤ p.bufBytes) (r : Fin 25) (j : Nat) :
    sentinelAt (Memory.read (d.plaintext p r).buf) (d.plaintext p r).len.toNat j ↔
      sentinelAt (plainByte p.sboxDraw d.key r.val d.buf d.len.toNat) (16 * ((d.len.toNat + 15) / 16)) j := by
  rw [Data.toNat_plaintext_len hp hcap]
  exact sentinelAt_congr (fun a ha => (Data.read_plaintext hwf p r a).trans (if_pos ha)) j

theorem exec_dec_of {s : State} {d : Data} (h : Body.dec s.params s.data = .ok d) :
    exec .dec s = .next (State.complete { s with data := d }) := State.perform_ok h

/-- Settles O47: DEC is UNPAD of the plaintext, whose bytes are those of the functional form. -/
theorem decComputesThePlaintext : Obligations.DecComputesThePlaintext := by
  intro s hp hwf hpos hmax hcap
  obtain ⟨r, hrdef⟩ : ∃ r, r = Fin.ofNat 25 s.data.key[0].toNat := ⟨_, rfl⟩
  have hr : r.val = s.data.key[0].toNat := by rw [hrdef]; exact Nat.mod_eq_of_lt (by omega)
  rw [← hrdef, ← hr]
  have hbody := Body.dec_of hp hwf hcap hr (hpos.trans_eq hr.symm)
  have hl := Data.toNat_plaintext_len hp hcap r
  have hcap' : (s.data.plaintext s.params r).len.toNat ≤ s.params.bufBytes :=
    hl.trans_le (chunkedLength_le hp hcap)
  have hshape' : (s.data.plaintext s.params r).len.toNat % 16 = 0 := by rw [hl, Nat.mul_mod_right]
  have hsentinel := Data.sentinelAt_plaintext hp hwf hcap r
  refine ⟨fun j hj => ⟨(s.data.plaintext s.params r).buf, ?_, Data.wf_plaintext hwf _ r,
    Data.read_plaintext hwf s.params r⟩, fun hnone => State.perform_error ?_⟩
  · rw [exec_dec_of (hbody.trans (Body.unpad_of_sentinel hcap' hshape' ((hsentinel j).mpr hj)))]
    simp only [State.complete, Data.plaintext, Data.decrypted]
  · exact hbody.trans (Body.unpad_of_no_sentinel hcap' hshape' fun j hj => hnone j ((hsentinel j).mp hj))

/-! ## The faults of ENC, ENCG and DEC -/

theorem encryptFromPad_overflow {p : Params} {d : Data} (h : p.bufBytes - 1 < d.len.toNat) :
    encryptFromPad p d = .error .bufferOverflow := by
  simp only [encryptFromPad, Body.pad_overflow h, error_bind]

/-- Settles O48: each chain of bodies ends at the first that faults, KSET before PAD and CHUNK, and KGEN never
faults. -/
theorem macroCommandsFaultInOrder : Obligations.MacroCommandsFaultInOrder := by
  intro s
  refine ⟨fun hout => ?_, fun hpos hmax => ?_, fun hlen => ?_⟩
  · have hkset : Body.kset s.params s.data = .error .roundCountOutOfRange := Body.kset_out_of_range hout
    exact ⟨State.perform_error (by rw [Body.enc, hkset, error_bind]),
      State.perform_error (by simp only [Body.dec, hkset, error_bind])⟩
  · have hr : (Fin.ofNat 25 s.data.key[0].toNat).val = s.data.key[0].toNat := Nat.mod_eq_of_lt (by omega)
    have hpos' := hpos.trans_eq hr.symm
    refine ⟨fun hlen => State.perform_error ?_, fun hlen => State.perform_error ?_⟩
    · rw [Body.enc, Body.kset_of_count hr hpos', ok_bind]
      exact encryptFromPad_overflow hlen
    · have hchunk : Body.chunk s.params (s.data.keyed (Fin.ofNat 25 s.data.key[0].toNat)) = .error .bufferOverflow :=
        Body.chunk_overflow hlen
      simp only [Body.dec, kset_kdrv_of hr hpos', ok_bind, hchunk, error_bind]
  · refine State.perform_error (s := (State.draw s).2) (body := Body.encg _) ?_
    exact encryptFromPad_overflow (d := s.data.drawn _) hlen

end Sys2Proof.Machine
end

section
/-! PROOFS. DEC after ENC or ENCG (48_orchestrator.md R264). Both leave the ciphertext under the key that then stands in
KEY; DEC of the ciphertext finds the padded message, whose sentinel stands at the old length. -/

namespace Sys2Proof.Machine

/-- `t` holds the ciphertext of the message of `s`, under its own KEY (R260). -/
structure State.HoldsCiphertext (s t : State) : Prop where
  legal : t.params.legal
  noError : t.err = false
  canonical : Memory.wf t.data.buf
  one_le_count : 1 ≤ t.data.key[0].toNat
  count_le : t.data.key[0].toNat ≤ 24
  length : t.data.len.toNat = 16 * (s.data.len.toNat / 16 + 1)
  length_le : t.data.len.toNat ≤ t.params.bufBytes
  blocks : ∀ i, i < s.data.len.toNat / 16 + 1 → Memory.block t.data.buf i =
    cipherBlock t.params.sboxDraw t.data.key t.data.key[0].toNat s.data.buf s.data.len.toNat i

theorem exec_enc_holdsCiphertext {s : State} (hpos : 1 ≤ s.data.key[0].toNat) (hmax : s.data.key[0].toNat ≤ 24)
    (hp : s.params.legal) (hwf : Memory.wf s.data.buf) (he : s.err = false)
    (hlen : s.data.len.toNat ≤ s.params.bufBytes - 1) : ∃ t, exec .enc s = .next t ∧ s.HoldsCiphertext t := by
  obtain ⟨m, l, hexec, hcanonical, hl, hblocks, -⟩ := encComputesTheCiphertext s hp hwf hpos hmax hlen
  exact ⟨_, hexec, hp, he, hcanonical, hpos, hmax, hl, hl.trans_le (paddedLength_le hp hlen), hblocks⟩

theorem exec_encg_holdsCiphertext {s : State} (hp : s.params.legal) (hwf : Memory.wf s.data.buf) (he : s.err = false)
    (hlen : s.data.len.toNat ≤ s.params.bufBytes - 1) : ∃ t, exec .encg s = .next t ∧ s.HoldsCiphertext t := by
  have hcount := drawnKey_count (Config.entropy s.draws)
  obtain ⟨m, l, hexec, hcanonical, hl, hblocks, -⟩ :=
    encgEncryptsUnderTheDrawnKey s _ (Config.entropy s.draws).rounds hp hwf rfl rfl hlen
  exact ⟨_, hexec, hp, he, hcanonical, (one_le_rounds _).trans_eq hcount.symm, hcount.trans_le (rounds_le _), hl,
    hl.trans_le (paddedLength_le hp hlen), fun i hi => (hblocks i hi).trans (congrArg
      (fun r => cipherBlock s.params.sboxDraw _ r s.data.buf s.data.len.toNat i) hcount.symm)⟩

/-- A buffer with the ciphertext decrypts to the padded message, byte by byte (R260, R263). -/
theorem plainByte_of_cipherBlock {x : SboxDraw} {k : KeyMatrix} {r n : Nat} {m m' : Memory}
    (h : ∀ i, i < n / 16 + 1 → Memory.block m' i = cipherBlock x k r m n i) {a : Nat} (ha : a < 16 * (n / 16 + 1)) :
    plainByte x k r m' (16 * (n / 16 + 1)) a = if a < n then Memory.read m a else if a = n then 0x80 else 0x00 := by
  have hblock := plainBlock_of_cipherBlock (i := a / 16) (n' := 16 * (n / 16 + 1)) (by omega)
    fun j hj => h j (by omega)
  have hplace : 16 * (a / 16) + a % 16 = a := Nat.div_add_mod a 16
  simp only [plainByte, hblock, paddedBlock, Vector.getElem_ofFn, hplace]

/-- DEC restores the message of `s` from its ciphertext (R264). -/
theorem exec_dec_of_holdsCiphertext {s t : State} (h : s.HoldsCiphertext t) : ∃ u, exec .dec t = .next u ∧
    u.err = false ∧ u.data.len = s.data.len ∧
      ∀ a, a < s.data.len.toNat → Memory.read u.data.buf a = Memory.read s.data.buf a := by
  have hchunked : 16 * ((t.data.len.toNat + 15) / 16) = 16 * (s.data.len.toNat / 16 + 1) := by
    rw [h.length]
    omega
  have hdec := (decComputesThePlaintext t h.legal h.canonical h.one_le_count h.count_le h.length_le).1 s.data.len.toNat
  rw [hchunked, h.length] at hdec
  have hplain {a : Nat} (ha : a < 16 * (s.data.len.toNat / 16 + 1)) := plainByte_of_cipherBlock h.blocks ha
  have hroom : s.data.len.toNat < 16 * (s.data.len.toNat / 16 + 1) := by omega
  have hmark := (hplain hroom).trans ((if_neg (lt_irrefl _)).trans (if_pos rfl))
  obtain ⟨m, hexec, -, hread⟩ := hdec ⟨hroom, hmark, fun a hlo hhi =>
    (hplain hhi).trans ((if_neg hlo.not_gt).trans (if_neg hlo.ne'))⟩
  refine ⟨_, hexec, h.noError, ofNat_toNat_word _, fun a ha => ?_⟩
  have ha' := ha.trans hroom
  exact (hread a).trans (by rw [if_pos ha', hplain ha', if_pos ha])

/-- Settles O49: the reloaded state holds the same ciphertext, byte by byte and so block by block. -/
theorem encryptDecryptRoundTrip : Obligations.EncryptDecryptRoundTrip := by
  intro s c hc hp hwf he hlen
  obtain ⟨t, hexec, ht⟩ : ∃ t, exec c s = .next t ∧ s.HoldsCiphertext t := by
    rcases hc with ⟨rfl, hpos, hmax⟩ | rfl
    · exact exec_enc_holdsCiphertext hpos hmax hp hwf he hlen
    · exact exec_encg_holdsCiphertext hp hwf he hlen
  refine ⟨t, hexec, ht.noError, ht.canonical, fun t' hparams hkey hlen' hwf' he' hbytes => ?_⟩
  refine exec_dec_of_holdsCiphertext ⟨hparams ▸ ht.legal, he', hwf', hkey ▸ ht.one_le_count, hkey ▸ ht.count_le,
    hlen' ▸ ht.length, hlen' ▸ hparams ▸ ht.length_le, fun i hi => ?_⟩
  rw [hparams, hkey, ← ht.blocks i hi]
  refine Vector.ext fun j hj => ?_
  rw [Memory.block_getElem, Memory.block_getElem]
  exact hbytes _ (by rw [ht.length]; omega)

end Sys2Proof.Machine
end

section
/-! PROOFS. Which bytes of BUF a command can write (48_orchestrator.md R274). The bodies of the commands but UNPAD, CLR
and DEC never shorten the message and write below the new LEN, which composes along ENC and ENCG; UNPAD writes no
byte. -/

namespace Sys2Proof.Machine

/-! ## Bodies that write inside the message -/

/-- Where `f` answers, LEN has not become smaller and no byte from the new LEN up has changed. -/
def WritesInside (f : Data → Except FaultKind Data) : Prop :=
  ∀ d d' : Data, Memory.wf d.buf → f d = .ok d' → Memory.wf d'.buf ∧ d.len.toNat ≤ d'.len.toNat ∧
    ∀ a, d'.len.toNat ≤ a → Memory.read d'.buf a = Memory.read d.buf a

theorem WritesInside.bind {f g : Data → Except FaultKind Data} (hf : WritesInside f) (hg : WritesInside g) :
    WritesInside fun d => f d >>= g := fun d d' hwf hd => by
  obtain ⟨e, he, hd'⟩ := bind_ok.mp hd
  obtain ⟨hwf1, hlen1, hread1⟩ := hf d e hwf he
  obtain ⟨hwf2, hlen2, hread2⟩ := hg e d' hwf1 hd'
  exact ⟨hwf2, hlen1.trans hlen2, fun a ha => (hread2 a ha).trans (hread1 a (hlen2.trans ha))⟩

theorem WritesInside.loopUp {step : Nat → Data → Except FaultKind Data} (hs : ∀ i, WritesInside (step i)) (n : Nat) :
    WritesInside (loopUp step n) := by
  induction n with
  | zero => exact fun d d' hwf hd => by cases hd; exact ⟨hwf, le_rfl, fun _ _ => rfl⟩
  | succ n ih => exact ih.bind (hs n)

/-- A body that leaves BUF and LEN alone. -/
theorem WritesInside.of_same {f : Data → Except FaultKind Data}
    (h : ∀ d d', f d = .ok d' → d'.buf = d.buf ∧ d'.len = d.len) : WritesInside f := fun d d' hwf hd => by
  obtain ⟨hbuf, hlen⟩ := h d d' hd
  rw [hbuf, hlen]
  exact ⟨hwf, le_rfl, fun _ _ => rfl⟩

/-- A body whose answer, behind a check, leaves BUF and LEN alone. -/
theorem WritesInside.of_needFlag {flag : Data → Bool} {f : Data → Except FaultKind Data}
    (h : ∀ d d', f d = .ok d' → d'.buf = d.buf ∧ d'.len = d.len) :
    WritesInside fun d => needFlag (flag d) d >>= f := .of_same fun d d' hd => by
  obtain ⟨e, he, hd'⟩ := bind_ok.mp hd
  obtain ⟨-, rfl⟩ := needFlag_ok.mp he
  exact h e d' hd'

/-! ### Keys and tables -/

theorem writesInside_nop (p : Params) : WritesInside (Body.nop p) :=
  .of_same fun d d' hd => by cases hd; exact ⟨rfl, rfl⟩

theorem writesInside_kgen (x : Draw) (p : Params) : WritesInside (Body.kgen x p) :=
  .of_same fun d d' hd => by cases hd; exact ⟨rfl, rfl⟩

theorem writesInside_kset (p : Params) : WritesInside (Body.kset p) := .of_same fun d d' hd => by
  obtain ⟨-, r, -, rfl⟩ := Body.kset_ok hd
  exact ⟨rfl, rfl⟩

theorem writesInside_kdrv (p : Params) : WritesInside (Body.kdrv p) :=
  .of_needFlag (flag := Data.kv) fun d d' hd => by cases hd; exact ⟨rfl, rfl⟩

theorem writesInside_kadv (p : Params) : WritesInside (Body.kadv p) :=
  .of_same fun d d' hd => by cases hd; exact ⟨rfl, rfl⟩

theorem writesInside_ksel (idx : Nat) (p : Params) : WritesInside (Body.ksel idx p) :=
  .of_needFlag (flag := Data.qv) fun d d' hd => by
    split at hd
    · cases hd; exact ⟨rfl, rfl⟩
    · cases hd

theorem writesInside_kbase (p : Params) : WritesInside (Body.kbase p) :=
  .of_same fun d d' hd => by cases hd; exact ⟨rfl, rfl⟩

theorem writesInside_sgen (p : Params) : WritesInside (Body.sgen p) :=
  .of_same fun d d' hd => by cases hd; exact ⟨rfl, rfl⟩

theorem writesInside_sinv (p : Params) : WritesInside (Body.sinv p) :=
  .of_needFlag (flag := Data.sv) fun d d' hd => by cases hd; exact ⟨rfl, rfl⟩

/-! ### Layers -/

theorem writesInside_blockLayer (f : Block → Block) (p : Params) : WritesInside (blockLayer f p) :=
  fun d d' hwf hd => by
    obtain ⟨-, -, rfl⟩ := blockLayer_ok.mp hd
    exact ⟨Memory.wf_mapBlocks hwf f d.nblk, le_rfl, fun a => Data.read_mapMessage_above hwf f⟩

theorem writesInside_byteLayer (t : Table) (p : Params) : WritesInside (byteLayer t p) := fun d d' hwf hd => by
  obtain ⟨-, -, rfl⟩ := byteLayer_ok.mp hd
  obtain ⟨hwf', hread⟩ := Memory.mapBytes_spec hwf (fun b => t[b.toNat]) d.len.toNat
  exact ⟨hwf', le_rfl, fun a ha => (hread a).trans (if_neg ha.not_gt)⟩

theorem writesInside_subF (p : Params) : WritesInside (Body.subF p) := fun d d' hwf hd => by
  obtain ⟨e, he, hd'⟩ := bind_ok.mp hd
  obtain ⟨-, rfl⟩ := needFlag_ok.mp he
  exact writesInside_byteLayer e.sbox p e d' hwf hd'

theorem writesInside_subR (p : Params) : WritesInside (Body.subR p) := fun d d' hwf hd => by
  obtain ⟨e, he, hd'⟩ := bind_ok.mp hd
  obtain ⟨-, rfl⟩ := needFlag_ok.mp he
  exact writesInside_byteLayer e.inv p e d' hwf hd'

theorem writesInside_rotF (p : Params) : WritesInside (Body.rotF p) :=
  fun d => writesInside_blockLayer (rotateForward d.rk) p d

theorem writesInside_rotR (p : Params) : WritesInside (Body.rotR p) :=
  fun d => writesInside_blockLayer (rotateReverse d.rk) p d

theorem writesInside_trnF (p : Params) : WritesInside (Body.trnF p) :=
  fun d => writesInside_blockLayer (transpose d.rk) p d

theorem writesInside_trnR (p : Params) : WritesInside (Body.trnR p) :=
  fun d => writesInside_blockLayer (reverseTranspose d.rk) p d

theorem writesInside_mix (p : Params) : WritesInside (Body.mix p) :=
  fun d => writesInside_blockLayer (fun b => xor16 b d.rk) p d

/-- A chained buffer keeps the bytes above its blocks, and the blocks of a message lie below LEN. -/
theorem IsChained.read_above_len {d : Data} {iv : Block} {prev m : Memory} (h : IsChained iv d.nblk prev d.buf m)
    {a : Nat} (ha : d.len.toNat ≤ a) : Memory.read m a = Memory.read d.buf a :=
  h.read_above ((Data.nblk_le le_rfl).trans ha)

theorem writesInside_chnF (p : Params) : WritesInside (Body.chnF p) := fun d d' hwf hd => by
  obtain ⟨e, he, hd'⟩ := bind_ok.mp hd
  obtain ⟨-, -, rfl⟩ := needBlocks_ok.mp he
  cases hd'
  have hchained := isChained_chainForward e.rk hwf e.nblk
  exact ⟨hchained.canonical, le_rfl, fun _ => hchained.read_above_len⟩

theorem writesInside_chnR (p : Params) : WritesInside (Body.chnR p) := fun d d' hwf hd => by
  obtain ⟨e, he, hd'⟩ := bind_ok.mp hd
  obtain ⟨-, -, rfl⟩ := needBlocks_ok.mp he
  cases hd'
  have hchained := isChained_chainReverse e.rk hwf e.nblk
  exact ⟨hchained.canonical, le_rfl, fun _ => hchained.read_above_len⟩

/-! ### The block codec -/

/-- PAD writes from the old LEN to the padded one, which LEN can hold (R10, R111). -/
theorem writesInside_pad {p : Params} (hp : p.legal) : WritesInside (Body.pad p) := fun d d' hwf hd => by
  rcases Nat.lt_or_ge (p.bufBytes - 1) d.len.toNat with hlen | hlen
  · rw [Body.pad_overflow hlen] at hd
    cases hd
  · rw [Body.pad_of_le hlen] at hd
    cases hd
    have hgrow : d.len.toNat < 16 * (d.len.toNat / 16 + 1) := by omega
    simp only [toNat_paddedLength hp hlen]
    refine ⟨wf_padBuffer hwf _, hgrow.le, fun a ha => ?_⟩
    rw [read_padBuffer hwf, if_neg (hgrow.trans_le ha).ne', if_neg fun h => ha.not_gt h.2]

/-- CHUNK writes from the old LEN to the filled one, which LEN can hold (R10, R113). -/
theorem writesInside_chunk {p : Params} (hp : p.legal) : WritesInside (Body.chunk p) := fun d d' hwf hd => by
  rcases Nat.lt_or_ge p.bufBytes d.len.toNat with hlen | hlen
  · rw [Body.chunk_overflow hlen] at hd
    cases hd
  · rw [Body.chunk_of_le hlen] at hd
    cases hd
    simp only [toNat_ofNat_of_le_capacity hp (chunkedLength_le hp hlen)]
    refine ⟨wf_chunkBuffer hwf _, le_chunkedLength _, fun a ha => ?_⟩
    rw [read_chunkBuffer hwf, if_neg fun h => ha.not_gt h.2]

/-- UNPAD writes no byte of BUF (R115). -/
theorem Body.unpad_buf {p : Params} {d d' : Data} (h : Body.unpad p d = .ok d') : d'.buf = d.buf := by
  obtain ⟨e, he, hd'⟩ := bind_ok.mp h
  obtain ⟨-, -, rfl⟩ := needBlocks_ok.mp he
  dsimp only at hd'
  split at hd'
  · cases hd'
  · cases hd'
    rfl

/-! ### ENC and ENCG -/

theorem writesInside_encryptRound (p : Params) : WritesInside (encryptRound p) :=
  (((writesInside_mix p).bind (writesInside_rotF p)).bind (writesInside_trnF p)).bind (writesInside_kadv p)

theorem writesInside_encryptFromPad {p : Params} (hp : p.legal) : WritesInside (encryptFromPad p) :=
  ((((writesInside_pad hp).bind (writesInside_sgen p)).bind (writesInside_subF p)).bind (writesInside_kbase p)).bind
    (WritesInside.bind (fun d => WritesInside.loopUp (fun _ => writesInside_encryptRound p) d.r.val d)
      (writesInside_chnF p))

/-! ## The statement -/

/-- A body that writes inside the message, performed to completion. -/
theorem WritesInside.perform {s t : State} {body : Body} (hbody : WritesInside (body s.params))
    (hwf : Memory.wf s.data.buf) (h : State.perform s body = .next t) (he : t.err = false) {a : Nat}
    (ha : t.data.len.toNat ≤ a) : Memory.read t.data.buf a = Memory.read s.data.buf a := by
  rcases State.perform_cases s body with ⟨d, hd, hs⟩ | ⟨k, -, hs⟩
  · cases hs.symm.trans h
    exact (hbody _ d hwf hd).2.2 a ha
  · cases hs.symm.trans h
    cases he

/-- UNPAD performed to completion. -/
theorem exec_unpad_buf {s t : State} (h : exec .unpad s = .next t) (he : t.err = false) : t.data.buf = s.data.buf := by
  rcases State.perform_cases s Body.unpad with ⟨d, hd, hs⟩ | ⟨k, -, hs⟩
  · cases hs.symm.trans h
    exact Body.unpad_buf hd
  · cases hs.symm.trans h
    cases he

/-- Settles O14: UNPAD changes no byte, and every other body writes below the new LEN. -/
theorem commandsWriteInsideTheMessage : Obligations.CommandsWriteInsideTheMessage := by
  intro i s t hclr hdec hp hwf h he a _ ha
  cases i with
  | clr => exact absurd rfl hclr
  | dec => exact absurd rfl hdec
  | unpad => rw [exec_unpad_buf h he]
  | kgen => exact (writesInside_kgen _ _).perform (s := (State.draw s).2) hwf h he ha
  | encg =>
    exact ((writesInside_kgen _ _).bind (writesInside_encryptFromPad hp)).perform (s := (State.draw s).2)
      (body := Body.encg _) hwf h he ha
  | enc => exact ((writesInside_kset _).bind (writesInside_encryptFromPad hp)).perform (body := Body.enc) hwf h he ha
  | nop => exact (writesInside_nop _).perform hwf h he ha
  | kset => exact (writesInside_kset _).perform hwf h he ha
  | kdrv => exact (writesInside_kdrv _).perform hwf h he ha
  | kadv => exact (writesInside_kadv _).perform hwf h he ha
  | ksel idx => exact (writesInside_ksel idx _).perform hwf h he ha
  | kbase => exact (writesInside_kbase _).perform hwf h he ha
  | sgen => exact (writesInside_sgen _).perform hwf h he ha
  | sinv => exact (writesInside_sinv _).perform hwf h he ha
  | subF => exact (writesInside_subF _).perform hwf h he ha
  | subR => exact (writesInside_subR _).perform hwf h he ha
  | rotF => exact (writesInside_rotF _).perform hwf h he ha
  | rotR => exact (writesInside_rotR _).perform hwf h he ha
  | trnF => exact (writesInside_trnF _).perform hwf h he ha
  | trnR => exact (writesInside_trnR _).perform hwf h he ha
  | mix => exact (writesInside_mix _).perform hwf h he ha
  | chnF => exact (writesInside_chnF _).perform hwf h he ha
  | chnR => exact (writesInside_chnR _).perform hwf h he ha
  | pad => exact (writesInside_pad hp).perform hwf h he ha
  | chunk => exact (writesInside_chunk hp).perform hwf h he ha

end Sys2Proof.Machine
end
